-- ==== Sys2Proof/Word.lean ====
section
/-! DEFINITION. The word types of the block (spec/00_scope.md R8, R11): every value is unsigned and has a fixed width. -/

namespace Sys2Proof

/-- An EEPROM byte and a data-bus value (R8 `DATA_BITS`). -/
abbrev Byte := BitVec 8

/-- An EEPROM address, 0..2047 (R8 `ADDR_BITS`). -/
abbrev Addr := BitVec 11

/-- A shift-register word (R8 `WORD_BITS`, R74). -/
abbrev SrWord := BitVec 16

/-- A model command word (R80). -/
abbrev CommandWord := BitVec 32

end Sys2Proof
end

