-- ==== Sys2Proof/Syntax.lean ====
section
/-! DEFINITION. The operations of the block (spec/30_encoding.md R81 to R83) and the caller's way of writing them (R86, R87). -/

namespace Sys2Proof

/-- Direction of the eight data pins (spec/10_state.md R24): `In` and `Out`. -/
inductive Dir where
  | input
  | output
  deriving DecidableEq, Repr

/-- The fourteen operations of opcode_table.json, with the fields R82 gives them at the widths R82 gives them. A level is a
`Bool`, `true` for 1. The address fields are wider than an address on purpose (R83): the operation rejects an address
above 2047, not the decoder. -/
inductive Instr where
  | init
  | setSer (l : Bool)
  | setSrclk (l : Bool)
  | setRclk (l : Bool)
  | setWe (l : Bool)
  | setDataDir (d : Dir)
  | setDataPin (k : Fin 8) (l : Bool)
  | readDataPin (k : Fin 8)
  | wait (t : BitVec 28)
  | send (w : SrWord)
  | select (o : Bool) (a : BitVec 16)
  | writeByte (v : Byte) (a : BitVec 16)
  | readByte (a : BitVec 16)
  | dumpRange (f u : BitVec 12)
  deriving DecidableEq, Repr

/-- A call as the caller writes it (R86, R87): the same operations with numbers of any size. Whether a call spells a command
word is `Call.wellFormed`. -/
inductive Call where
  | init
  | setSer (l : Nat)
  | setSrclk (l : Nat)
  | setRclk (l : Nat)
  | setWe (l : Nat)
  | setDataDir (d : Dir)
  | setDataPin (k l : Nat)
  | readDataPin (k : Nat)
  | wait (t : Nat)
  | send (w : Nat)
  | selectAddress (a : Nat) (o : Bool)
  | writeByte (a v : Nat)
  | readByte (a : Nat)
  | dumpRange (f u : Nat)
  deriving DecidableEq, Repr

end Sys2Proof
end

