-- ==== Sys2Proof/WellFormed.lean ====
section
/-! DEFINITION. Which calls spell a command word, the operation each of those stands for, and which operations have their
arguments in range. Every `Instr` is well formed by its types; the numbers a caller writes need a check
(spec/30_encoding.md R83, spec/42_eeprom_transactor.md R135). -/

namespace Sys2Proof

/-- Every argument of the call fits the field R82 gives it. A call that fails the check spells no command word and is
refused by the transcriber (R135 says so of `writeByte(a, v)` with `v > 255`). -/
def Call.wellFormed : Call → Bool
  | .init => true
  | .setSer l => decide (l < 2)
  | .setSrclk l => decide (l < 2)
  | .setRclk l => decide (l < 2)
  | .setWe l => decide (l < 2)
  | .setDataDir _ => true
  | .setDataPin k l => decide (k < 8) && decide (l < 2)
  | .readDataPin k => decide (k < 8)
  | .wait t => decide (t < 2 ^ 28)
  | .send w => decide (w < 2 ^ 16)
  | .selectAddress a _ => decide (a < 2 ^ 16)
  | .writeByte a v => decide (a < 2 ^ 16) && decide (v < 2 ^ 8)
  | .readByte a => decide (a < 2 ^ 16)
  | .dumpRange f u => decide (f < 2 ^ 12) && decide (u < 2 ^ 12)

/-- The operation the call's arguments name once they fit their fields. -/
def Call.operation : Call → Instr
  | .init => .init
  | .setSer l => .setSer (l == 1)
  | .setSrclk l => .setSrclk (l == 1)
  | .setRclk l => .setRclk (l == 1)
  | .setWe l => .setWe (l == 1)
  | .setDataDir d => .setDataDir d
  | .setDataPin k l => .setDataPin (Fin.ofNat 8 k) (l == 1)
  | .readDataPin k => .readDataPin (Fin.ofNat 8 k)
  | .wait t => .wait (BitVec.ofNat 28 t)
  | .send w => .send (BitVec.ofNat 16 w)
  | .selectAddress a o => .select o (BitVec.ofNat 16 a)
  | .writeByte a v => .writeByte (BitVec.ofNat 8 v) (BitVec.ofNat 16 a)
  | .readByte a => .readByte (BitVec.ofNat 16 a)
  | .dumpRange f u => .dumpRange (BitVec.ofNat 12 f) (BitVec.ofNat 12 u)

/-- The transcriber (R86, R135): a well-formed call becomes its operation, any other is refused. -/
def Call.transcribe (c : Call) : Option Instr :=
  if c.wellFormed then some c.operation else none

/-- Every address argument is 0..2047 (spec/42_eeprom_transactor.md R134): the caller's contract, whose breach is RangeError. -/
def Instr.argsInRange : Instr → Bool
  | .select _ a => decide (a.toNat ≤ 2047)
  | .writeByte _ a => decide (a.toNat ≤ 2047)
  | .readByte a => decide (a.toNat ≤ 2047)
  | .dumpRange f u => decide (f.toNat ≤ 2047) && decide (u.toNat ≤ 2047)
  | .init | .setSer _ | .setSrclk _ | .setRclk _ | .setWe _ | .setDataDir _ | .setDataPin _ _ | .readDataPin _
  | .wait _ | .send _ => true

/-- An operation as syntax is well formed for every value of its typed fields (R83: the operation, not its encoding, rejects
an address out of range). -/
def Instr.wellFormed (_ : Instr) : Bool := true

end Sys2Proof
end

