-- ==== Sys2Proof/Decode.lean ====
section
/-! DEFINITION. Decoding and encoding of the 32-bit model command word (spec/30_encoding.md R80 to R85). The rows below are
R82's table: pattern (its `match`), mask and fields. -/

namespace Sys2Proof

/-- Why a command word spells no operation (R84). -/
inductive Illegal where
  /-- `OP` is 0xE or 0xF. -/
  | reservedOp
  /-- A must-be-zero bit of the format of its `OP` is 1. -/
  | mustBeZero
  deriving DecidableEq, Repr

/-- One row of R82: a word spells the operation iff `cw &&& mask = pattern`; `read` takes its fields from the word. -/
structure Row where
  mnemonic : String
  pattern : CommandWord
  mask : CommandWord
  read : CommandWord → Instr

/-- A direction field: 0 In, 1 Out (R82). -/
def dirOfBit (b : Bool) : Dir := if b then .output else .input

/-- The bit of a direction (R82). -/
def dirBit : Dir → Bool
  | .input => false
  | .output => true

/-- Bit `n` of a command word as a level. -/
def levelField (n : Nat) (cw : CommandWord) : Bool := cw.getLsbD n

/-- `cw[10:8]`, the data pin `k`. -/
def pinField (cw : CommandWord) : Fin 8 := (cw.extractLsb' 8 3).toFin

/-- The rows of R82, in the table's order. -/
def rows : List Row :=
  [ ⟨"INIT", 0x00000000#32, 0xFFFFFFFF#32, fun _ => .init⟩,
    ⟨"SET_SER", 0x10000000#32, 0xFFFFFFFE#32, fun cw => .setSer (levelField 0 cw)⟩,
    ⟨"SET_SRCLK", 0x20000000#32, 0xFFFFFFFE#32, fun cw => .setSrclk (levelField 0 cw)⟩,
    ⟨"SET_RCLK", 0x30000000#32, 0xFFFFFFFE#32, fun cw => .setRclk (levelField 0 cw)⟩,
    ⟨"SET_WE", 0x40000000#32, 0xFFFFFFFE#32, fun cw => .setWe (levelField 0 cw)⟩,
    ⟨"SET_DATA_DIR", 0x50000000#32, 0xFFFFFFFE#32, fun cw => .setDataDir (dirOfBit (levelField 0 cw))⟩,
    ⟨"SET_DATA_PIN", 0x60000000#32, 0xFFFFF8FE#32, fun cw => .setDataPin (pinField cw) (levelField 0 cw)⟩,
    ⟨"READ_DATA_PIN", 0x70000000#32, 0xFFFFF8FF#32, fun cw => .readDataPin (pinField cw)⟩ ] ++
  [ ⟨"WAIT", 0x80000000#32, 0xF0000000#32, fun cw => .wait (cw.extractLsb' 0 28)⟩,
    ⟨"SEND", 0x90000000#32, 0xFFFF0000#32, fun cw => .send (cw.extractLsb' 0 16)⟩,
    ⟨"SELECT", 0xA0000000#32, 0xFFFE0000#32, fun cw => .select (levelField 16 cw) (cw.extractLsb' 0 16)⟩,
    ⟨"WRITE_BYTE", 0xB0000000#32, 0xFF000000#32, fun cw => .writeByte (cw.extractLsb' 16 8) (cw.extractLsb' 0 16)⟩,
    ⟨"READ_BYTE", 0xC0000000#32, 0xFFFF0000#32, fun cw => .readByte (cw.extractLsb' 0 16)⟩,
    ⟨"DUMP_RANGE", 0xD0000000#32, 0xF000F000#32, fun cw => .dumpRange (cw.extractLsb' 16 12) (cw.extractLsb' 0 12)⟩ ]

/-- The word spells the row's operation (R82). -/
def Row.spells (r : Row) (cw : CommandWord) : Bool := cw &&& r.mask == r.pattern

/-- `cw[31:28]`, the operation code (R80). -/
def opField (cw : CommandWord) : BitVec 4 := cw.extractLsb' 28 4

/-- Decoding (R85): the row of R82 that the word spells, or the reason why there is none. Total on every word. -/
def decode (cw : CommandWord) : Except Illegal Instr :=
  match rows.find? (fun r => r.spells cw) with
  | some r => .ok (r.read cw)
  | none => .error (if 14 ≤ (opField cw).toNat then .reservedOp else .mustBeZero)

/-- A level as the bit `n` of a command word. -/
def levelBits (n : Nat) (b : Bool) : CommandWord := (BitVec.ofBool b).setWidth 32 <<< n

/-- The pin field at bits 10..8. -/
def pinBits (k : Fin 8) : CommandWord := (BitVec.ofFin k : BitVec 3).setWidth 32 <<< 8

/-- The command word of an operation, written from R82's patterns. -/
def encode : Instr → CommandWord
  | .init => 0x00000000#32
  | .setSer l => 0x10000000#32 ||| levelBits 0 l
  | .setSrclk l => 0x20000000#32 ||| levelBits 0 l
  | .setRclk l => 0x30000000#32 ||| levelBits 0 l
  | .setWe l => 0x40000000#32 ||| levelBits 0 l
  | .setDataDir d => 0x50000000#32 ||| levelBits 0 (dirBit d)
  | .setDataPin k l => 0x60000000#32 ||| pinBits k ||| levelBits 0 l
  | .readDataPin k => 0x70000000#32 ||| pinBits k
  | .wait t => 0x80000000#32 ||| t.setWidth 32
  | .send w => 0x90000000#32 ||| w.setWidth 32
  | .select o a => 0xA0000000#32 ||| levelBits 16 o ||| a.setWidth 32
  | .writeByte v a => 0xB0000000#32 ||| v.setWidth 32 <<< 16 ||| a.setWidth 32
  | .readByte a => 0xC0000000#32 ||| a.setWidth 32
  | .dumpRange f u => 0xD0000000#32 ||| f.setWidth 32 <<< 16 ||| u.setWidth 32

/-- The instruction the decoder reads from an instruction of `nbits` bits whose value is `w`, numbered as opcode_table.json
numbers them: a command word is one 32-bit number whose bit 0 is the table's bit 0 (R80), and the bits above `nbits` are 0. A
value that needs more than 32 bits is no command word. -/
def decodeTableWord (nbits w : Nat) : Option Instr :=
  if w % 2 ^ nbits < 2 ^ 32 then
    match decode (BitVec.ofNat 32 (w % 2 ^ nbits)) with
    | .ok i => some i
    | .error _ => none
  else none

end Sys2Proof
end

