-- ==== Sys2Proof/Config.lean ====
section
/-! DEFINITION. What a build fixes (the parameters of spec/00_scope.md R9) and the free values (the draws of R12 and R18). No
free value has a body: nothing in Lean can tell what it is, so a claim about it holds for every value. -/

namespace Sys2Proof

/-- `PIN_FOR_BIT` (R9): value bit `i` is carried by controller data pin `table[i]`. A table that is not a permutation is no
legal parameter (spec/30_encoding.md R79), so the type admits permutations only. -/
structure PinMap where
  table : Vector (Fin 8) 8
  inj : ∀ i j : Fin 8, table[i] = table[j] → i = j
  deriving DecidableEq, Repr

/-- The pin that carries value bit `i`: `PIN_FOR_BIT[i]`. -/
def PinMap.pin (m : PinMap) (i : Fin 8) : Fin 8 := m.table[i]

/-- The configuration check of R79: a list of eight pins becomes a map when it is a permutation and is refused otherwise. -/
def PinMap.check (l : List (Fin 8)) : Option PinMap :=
  if hl : l.length = 8 then
    let v : Vector (Fin 8) 8 := ⟨⟨l⟩, hl⟩
    if hi : ∀ i j : Fin 8, v[i] = v[j] → i = j then some ⟨v, hi⟩ else none
  else none

/-- The parameters of R9, times in nanoseconds, and whether an EEPROM is connected and powered (spec/20_memory.md R55,
spec/60_exceptions.md R166). Fixed for a run: no operation writes them. -/
structure Params where
  /-- `PIN_FOR_BIT`. -/
  pinForBit : PinMap
  /-- `T_WE_PULSE`: how long the controller holds WE_n low, at least. -/
  tWePulse : Nat
  /-- `T_WRITE_DELAY`: how long the controller waits after a WE_n rising edge, at least. -/
  tWriteDelay : Nat
  /-- `T_READ_SETTLE`: how long the controller waits between the read latch edge and sampling. -/
  tReadSettle : Nat
  /-- `T_WP_MIN`: the EEPROM's minimum WE_n low pulse. -/
  tWpMin : Nat
  /-- `T_WC`: the EEPROM's maximum internal write-cycle time. -/
  tWc : Nat
  /-- `T_ACC`: the EEPROM's time from a change of A or OE_n to valid output. -/
  tAcc : Nat
  /-- `DUMP_INCLUSIVE`: whether `dumpRange(from, to)` includes `to`. -/
  dumpInclusive : Bool
  /-- An EEPROM is connected and powered; without one every sampled level is a draw (R55). -/
  connected : Bool
  deriving DecidableEq, Repr

/-- The premises a claim about correct operation needs (R9); that `pinForBit` is a permutation is part of its type. -/
abbrev Params.Premises (p : Params) : Prop :=
  p.tWpMin ≤ p.tWePulse ∧ p.tWc ≤ p.tWriteDelay ∧ p.tAcc ≤ p.tReadSettle

/-- The draws of R18, each a function of how many draws the run has made before it (of the address, for the initial cells). -/
structure Draws where
  /-- The latency of a primitive, any natural number (spec/10_state.md R35). -/
  latency : Nat → Nat
  /-- The level sampled on a line that gives no known value (spec/20_memory.md R55). -/
  busBit : Nat → Bool
  /-- The byte latched from a floating bus (spec/20_memory.md R62). -/
  busByte : Nat → Byte
  /-- What power loss leaves in the cell whose write cycle it cut (spec/60_exceptions.md R174). -/
  cutByte : Nat → Byte
  /-- The contents of each cell at the start of the run (spec/10_state.md R29). -/
  initialCell : Addr → Byte

namespace Config

/-- `T_WP_MIN`, OPEN (R9): a free value. -/
opaque tWpMin : Nat
/-- `T_WC`, OPEN (R9): a free value. -/
opaque tWc : Nat
/-- `T_ACC`, OPEN (R9): a free value. -/
opaque tAcc : Nat

/-- Free value: primitive latencies (R35). -/
opaque latency : Nat → Nat
/-- Free value: sampled levels of a floating, unsettled or unconnected bus (R55). -/
opaque busBit : Nat → Bool
/-- Free value: bytes latched from a floating bus (R62). -/
opaque busByte : Nat → Byte
/-- Free value: what power loss leaves in the cell being written (R174). -/
opaque cutByte : Nat → Byte
/-- Free value: the EEPROM's contents at the start of the run (R29). -/
opaque initialCell : Addr → Byte

/-- The draws of the machine: the free values above, unconstrained. -/
def draws : Draws := ⟨latency, busBit, busByte, cutByte, initialCell⟩

end Config

end Sys2Proof
end

