-- ==== Sys2Proof/Machine/Defaults.lean ====
section
/-! DEFINITION. The parameter values of the machine after reset: the defaults of spec/00_scope.md R9 where it gives one, the
free values of Config for the OPEN ones. -/

namespace Sys2Proof.Machine

/-- The default `PIN_FOR_BIT[i] = 7 - i` (R9, spec/30_encoding.md R78). -/
def defaultPinMap : PinMap := ⟨#v[7, 6, 5, 4, 3, 2, 1, 0], by decide⟩

/-- The parameters with R9's defaults and given values for the OPEN ones. -/
def paramsWith (tWpMin tWc tAcc : Nat) : Params :=
  { pinForBit := defaultPinMap
    tWePulse := 1000
    tWriteDelay := 10000000
    tReadSettle := 1000
    tWpMin := tWpMin
    tWc := tWc
    tAcc := tAcc
    dumpInclusive := true
    connected := true }

/-- The parameters after reset: R9's defaults, the OPEN ones left free. -/
def defaultParams : Params := paramsWith Config.tWpMin Config.tWc Config.tAcc

end Sys2Proof.Machine
end

