-- ==== Sys2Proof/Machine/State.lean ====
section
/-! DEFINITION. The state of the block and of the EEPROM as far as the block observes it (spec/10_state.md R43), the reasons a
step stops, and the state after reset (spec/70_reset_and_hazards.md R176). -/

namespace Sys2Proof.Machine

/-- The drive level of a controller pin (R22): `z` is not driven. -/
inductive Level where
  | z
  | lo
  | hi
  deriving DecidableEq, Repr

/-- The transaction phase (R30). -/
inductive Phase where
  | uninit
  | idle
  | addressSelected
  | dataDriven
  | pulsed
  | writeDelay
  | inputConfigured
  | sampled
  deriving DecidableEq, Repr

/-- A controller pin, named by role of its wiring (R20). -/
inductive Pin where
  | ser
  | srclk
  | rclk
  | weN
  | data (k : Fin 8)
  deriving DecidableEq, Repr

/-- The role of a pin (R23). -/
inductive Role where
  | unconfigured
  | serialOut
  | writeEnableOut
  | eepromDataIn
  | eepromDataOut
  deriving DecidableEq, Repr

/-- One value the block returns to the host (R37). -/
inductive Obs where
  | bit (k : Fin 8) (b : Bool)
  | byte (a : Addr) (v : Byte)
  deriving DecidableEq, Repr

/-- An internal write cycle in progress (R29): the cell, the byte and the time it ends. -/
structure WriteCycle where
  addr : Addr
  data : Byte
  tEnd : Nat
  deriving DecidableEq, Repr

/-- An EEPROM input that can be unstable while WE_n is low (spec/20_memory.md R59). -/
inductive EeInput where
  | address
  | outputEnable
  | dataBus
  deriving DecidableEq, Repr

/-- The faults of spec/60_exceptions.md R152, each with the info its row gives. `none` in an address or OE_n is `unknown`.
These are the machine's own faults: raising one is a next state with `State.fault` set (`raise` of Machine/Ops.lean). -/
inductive Raised where
  /-- Code 1 (R153): decoding; a second INIT. Safe: the spec's own stop. -/
  | illegalCommand (cw : CommandWord)
  /-- Code 2 (R154): every operation but INIT before INIT. Safe. -/
  | notInitialised (op : Instr)
  /-- Code 3 (R155): SELECT, WRITE_BYTE, READ_BYTE, DUMP_RANGE. Safe. -/
  | rangeError (value : Nat)
  /-- Code 4 (R156): every primitive but WAIT. Safe. -/
  | writeDelayViolation (elapsed : Nat)
  /-- Code 5 (R157): SET_DATA_PIN. Safe. -/
  | wrongPinRole (pin : Pin)
  /-- Code 6 (R158): READ_DATA_PIN. Safe. -/
  | readWhileDriving (k : Fin 8)
  /-- Code 7 (R159): SET_RCLK, SET_WE, SET_DATA_DIR, SET_DATA_PIN. Safe. -/
  | writeCycleViolation (busy : WriteCycle)
  /-- Code 8 (R160): SET_RCLK, SET_DATA_DIR, SET_DATA_PIN. Safe. -/
  | writeSignalsUnstable (changed : List EeInput)
  /-- Code 9 (R161): SET_WE. Safe. -/
  | writeSelectInvalid (a : Option Addr) (oeN : Option Bool)
  /-- Code 10 (R162): SET_WE. Safe. -/
  | wePulseTooShort (low : Nat)
  /-- Code 11 (R163): every primitive, after its effect. Safe. -/
  | busContention (a : Option Addr) (oeN : Option Bool)
  deriving DecidableEq, Repr

/-- The fault's code (R152). -/
def Raised.code : Raised → Nat
  | .illegalCommand _ => 1
  | .notInitialised _ => 2
  | .rangeError _ => 3
  | .writeDelayViolation _ => 4
  | .wrongPinRole _ => 5
  | .readWhileDriving _ => 6
  | .writeCycleViolation _ => 7
  | .writeSignalsUnstable _ => 8
  | .writeSelectInvalid _ _ => 9
  | .wePulseTooShort _ => 10
  | .busContention _ _ => 11

/-- One stage of the shift-register chain (R25): position `i` is an unknown (`none`) or a bit. -/
abbrev Stage := Vector (Option Bool) 16

/-- The EEPROM cells a completed write cycle of this run reached, as (address, byte) pairs in one canonical form
(`Memory.wf` of Machine/Ops.lean). A cell not listed has no value here and reads as the run's initial byte (R29). -/
abbrev Memory := List Host.Cell

/-- The state (R43), then the model's own fields. -/
structure State where
  /-- `c.ser` (R22). -/
  ser : Level
  /-- `c.srclk` (R22). -/
  srclk : Level
  /-- `c.rclk` (R22). -/
  rclk : Level
  /-- `c.we_n` (R22). -/
  weN : Level
  /-- `c.dataDir` (R24). -/
  dataDir : Dir
  /-- `c.dataOut` (R24), `none` while unknown. -/
  dataOut : Option Byte
  /-- `c.phase` (R30). -/
  phase : Phase
  /-- `c.pc` (R31). -/
  pc : Nat
  /-- `c.micro` (R31). -/
  micro : Nat
  /-- `c.fault` (R32). -/
  fault : Option Raised
  /-- `c.lastWeRise` (R36). -/
  lastWeRise : Option Nat
  /-- `c.out` (R37). -/
  out : List Obs
  /-- `sr.shift` (R25). -/
  shift : Stage
  /-- `sr.store` (R25). -/
  store : Stage
  /-- `ee.cells` (R29). -/
  cells : Memory
  /-- `ee.busy` (R29). -/
  busy : Option WriteCycle
  /-- `ee.weFall` (R29). -/
  weFall : Option Nat
  /-- `ee.tSel` (R29). -/
  tSel : Nat
  /-- `now` (R33). -/
  now : Nat
  /-- The host's operation list as command words (spec/00_scope.md R18, R31): the model's own field. -/
  program : List CommandWord
  /-- The build's parameters (spec/00_scope.md R9): the model's own field, written by nothing. -/
  params : Params
  /-- How many draws the run has made (spec/00_scope.md R18): the model's own field. -/
  draws : Nat
  /-- The byte `readByte` is assembling (spec/40_pin_primitives.md R108), 0 between operations: the model's own field. -/
  sampled : Byte
  deriving DecidableEq, Repr

/-- The ways the machine has no step. -/
inductive Fault where
  /-- Raised by `step` and by every meaning when a fault is recorded: the controller is stuck until reset
  (spec/60_exceptions.md R151, R167). Safe: the spec gives that state no step. -/
  | controllerStuck (code : Nat)
  deriving DecidableEq, Repr

/-- The ways a step has nothing to give a meaning to. -/
inductive Refusal where
  /-- Raised by `exec` for an instruction without a meaning. Safe: the machine stops. No arm raises it now. -/
  | notModelled (mnemonic : String)
  /-- Raised by `step` when the host's list holds no operation at `pc` and no write cycle is open: the run has ended
  (spec/10_state.md R42). Safe: the spec gives that state no step. -/
  | runEnded
  deriving DecidableEq, Repr

/-- The state right after reset (R43, spec/70_reset_and_hazards.md R176). The model's own fields: no operation placed, the
parameters' defaults, no draw made, nothing assembled. -/
def State.reset : State :=
  { ser := .z
    srclk := .z
    rclk := .z
    weN := .z
    dataDir := .input
    dataOut := none
    phase := .uninit
    pc := 0
    micro := 0
    fault := none
    lastWeRise := none
    out := []
    shift := Vector.replicate 16 none
    store := Vector.replicate 16 none
    cells := []
    busy := none
    weFall := none
    tSel := 0
    now := 0
    program := []
    params := defaultParams
    draws := 0
    sampled := 0 }

end Sys2Proof.Machine
end

