-- ==== Sys2Proof/Machine/Ops.lean ====
section
/-! DEFINITION. The named operations over memory, the shift-register stages, time and faults, fetching an operation, the EEPROM's
own step, and the host's power cycle. Every later definition reads and writes the state through these. -/

namespace Sys2Proof.Machine

/-! ### Memory: the EEPROM cells (spec/20_memory.md R45) -/

/-- The byte listed for address `a`, if a completed write cycle of the run reached it. -/
def Memory.read? : Memory → Nat → Option Byte
  | [], _ => none
  | (b, v) :: m, a => if a = b then some v else Memory.read? m a

/-- Write one byte (`MemWrite(a, 1, v)`), keeping the addresses strictly rising. -/
def Memory.write : Memory → Nat → Byte → Memory
  | [], a, v => [(a, v)]
  | (b, w) :: m, a, v =>
    if a < b then (a, v) :: (b, w) :: m
    else if a = b then (a, v) :: m
    else (b, w) :: Memory.write m a v

/-- The canonical form: addresses strictly rising, each the address of a cell (R45). An unlisted cell has no value in the
list, so no entry can equal what an unlisted cell reads as. -/
abbrev Memory.wf (m : Memory) : Prop :=
  m.Pairwise (fun x y => x.1 < y.1) ∧ ∀ c ∈ m, c.1 < 2048

/-- What the EEPROM holds in cell `a` (`MemRead(a, 1)`): the listed byte, else the cell's initial byte, a free value (R29). -/
def cellRead (D : Draws) (m : Memory) (a : Addr) : Byte :=
  (m.read? a.toNat).getD (D.initialCell a)

/-! ### The shift-register stages (spec/10_state.md R25, R26) -/

/-- One shift (spec/40_pin_primitives.md R104): position `i` moves to `i + 1`, `b` enters position 0, position 15 leaves. -/
def shiftIn (b : Option Bool) (v : Stage) : Stage := ⟨⟨b :: v.toList.take 15⟩, by simp⟩

/-- The stage that holds a word bit for bit (spec/30_encoding.md R77). -/
def wordStage (w : SrWord) : Stage := ⟨⟨(List.range 16).map fun i => some (w.getLsbD i)⟩, by simp⟩

/-- The number whose bits, from bit 0 up, are the list's; unknown if any of them is (spec/00_scope.md R12). -/
def readBits : List (Option Bool) → Option Nat
  | [] => some 0
  | none :: _ => none
  | some b :: r => (readBits r).map fun n => b.toNat + 2 * n

/-- `A = sr.store[10:0]` (R38), unknown if any of those bits is. -/
def stageAddr (v : Stage) : Option Addr := (readBits (v.toList.take 11)).map (BitVec.ofNat 11)

/-- `OE_n = sr.store[11]` (R38). -/
def stageOeN (v : Stage) : Option Bool := v[11]

/-! ### Levels -/

/-- The level that drives a bit. -/
def Level.ofBool (b : Bool) : Level := if b then .hi else .lo

/-- The bit a level carries; a pin not driven carries none. -/
def Level.bit? : Level → Option Bool
  | .z => none
  | .lo => some false
  | .hi => some true

/-! ### Faults (spec/60_exceptions.md R151, R165)

Raising a fault is this machine's exception entry. It saves nothing, changes no mode and transfers control nowhere: it records
the fault, and nothing but a reset (`powerCycle`) clears it. There is no return from a fault (R167). -/

/-- `raise F(info)`: record the fault unless one is recorded already (R32, R151). -/
def raise (f : Raised) (s : State) : State := { s with fault := s.fault.or (some f) }

/-! ### Time (spec/10_state.md R33 to R35) -/

/-- `advance(d)` (R34): time passes, and a write cycle whose end has come reaches its cell (spec/20_memory.md R60). -/
def advance (d : Nat) (s : State) : State :=
  match s.busy with
  | none => { s with now := s.now + d }
  | some c =>
    if c.tEnd ≤ s.now + d then
      { s with now := s.now + d, cells := Memory.write s.cells c.addr.toNat c.data, busy := none }
    else { s with now := s.now + d }

/-- One draw has been made: the next draw is a new free value. -/
def drew (s : State) : State := { s with draws := s.draws + 1 }

/-- The latency of a primitive (R35): `advance(δ)` with `δ = draw()`. -/
def elapse (D : Draws) (s : State) : State := advance (D.latency s.draws) (drew s)

/-! ### Operation index (spec/10_state.md R31) -/

/-- An operation that completed without fault advances `c.pc`; one that faulted leaves it. -/
def advancePc (s : State) : State := if s.fault.isNone then { s with pc := s.pc + 1 } else s

/-- A primitive of a macro operation that completed without fault advances `c.micro` (spec/40_pin_primitives.md R96). -/
def advanceMicro (s : State) : State := if s.fault.isNone then { s with micro := s.micro + 1 } else s

/-- A macro operation whose expansion completed (spec/42_eeprom_transactor.md R129): the phase, `c.micro` and `c.pc`. -/
def completeMacro (ph : Phase) (s : State) : State :=
  if s.fault.isNone then { s with phase := ph, micro := 0, pc := s.pc + 1 } else s

/-- The command word of the next operation: the host's list at `c.pc` (R31). -/
def fetch (s : State) : Option CommandWord := s.program[s.pc]?

/-- The list with `w` at index `n`, extended with zero words where it is too short. -/
def placeAt : Nat → CommandWord → List CommandWord → List CommandWord
  | 0, w, [] => [w]
  | 0, w, _ :: l => w :: l
  | n + 1, w, [] => 0#32 :: placeAt n w []
  | n + 1, w, x :: l => x :: placeAt n w l

/-! ### Steps without an operation -/

/-- What one step of the machine answers. -/
abbrev Outcome := Host.Outcome State Fault Refusal

/-- The machine with no operation left: the EEPROM completes its open write cycle (spec/20_memory.md R60); with none open the run
has ended (spec/10_state.md R42). -/
def idleStep (s : State) : Outcome :=
  match s.busy with
  | some c => .next (advance (c.tEnd - s.now) s)
  | none => .refused .runEnded

/-- The common entry of every operation but INIT (spec/40_pin_primitives.md R96, spec/42_eeprom_transactor.md R129): no step
while a fault is recorded; NotInitialised before INIT; else the operation's own course. -/
def gate (i : Instr) (s : State) (course : State) : Outcome :=
  match s.fault with
  | some f => .fault (.controllerStuck f.code)
  | none => .next (if s.phase = .uninit then raise (.notInitialised i) s else course)

/-! ### The host's power cycle -/

/-- Reset by a power cycle (spec/70_reset_and_hazards.md R176, R177): every state takes its reset value, the cells keep their
contents, and a cell whose write cycle the power loss cut holds any value (spec/60_exceptions.md R174). The host's list and the
build's parameters are the host's and stay. -/
def powerCycle (D : Draws) (s : State) : State :=
  { State.reset with
    cells := match s.busy with
      | none => s.cells
      | some c => Memory.write s.cells c.addr.toNat (D.cutByte s.draws)
    program := s.program
    params := s.params
    draws := s.draws + 1 }

end Sys2Proof.Machine
end

