-- ==== Sys2Proof/Machine/Operands.lean ====
section
/-! DEFINITION. The operand forms: word assembly and serial order (spec/30_encoding.md R75, R76), the data byte on the pins
(R78), the range checks (spec/42_eeprom_transactor.md R134) and the addresses of a dump (R143). -/

namespace Sys2Proof.Machine

/-- The byte with bit `k` set to `b`. -/
def setBit (v : Byte) (k : Fin 8) (b : Bool) : Byte :=
  if b then v ||| (1#8 <<< k.val) else v &&& ~~~(1#8 <<< k.val)

/-- The value bits in ascending order, as the loops of `driveByte` and `sampleByte` visit them (R131, R132). -/
def valueBits : List (Fin 8) := [0, 1, 2, 3, 4, 5, 6, 7]

/-- `pinLevels(v)` (R78): the level of each data pin that carries `v`. -/
def pinLevels (m : PinMap) (v : Byte) : Byte :=
  valueBits.foldl (fun p i => setBit p (m.pin i) (v.getLsbD i)) 0#8

/-- `unpack(p)` (R78): the value whose pin levels are `p`. -/
def unpack (m : PinMap) (p : Byte) : Byte :=
  valueBits.foldl (fun v i => setBit v i (p.getLsbD (m.pin i))) 0#8

/-- `packWord(a, oe)` (R75): bit 11 the inverted output-enable flag, bits 10..0 the address. -/
def packWord (a : BitVec 16) (oe : Bool) : SrWord := ((if oe then 0#16 else 1#16) <<< 11) ||| a

/-- The bits of a word in the order SER carries them (R76): `w[15]` first. -/
def serialBits (w : SrWord) : List Bool :=
  [15, 14, 13, 12, 11, 10, 9, 8, 7, 6, 5, 4, 3, 2, 1, 0].map fun j => w.getLsbD j

/-- The range check of an address argument (R134). -/
def rangeCheck (a : Nat) : Option Raised := if 2047 < a then some (.rangeError a) else none

/-- The range checks of a dump, `f` before `u` (R143, spec/60_exceptions.md R164). -/
def dumpCheck (f u : Nat) : Option Raised := (rangeCheck f).or (rangeCheck u)

/-- The addresses of `dumpRange(f, u)` in ascending order (R143): `u` included when `DUMP_INCLUSIVE`, none if `f` is past the
last. -/
def dumpAddresses (inclusive : Bool) (f u : Nat) : List Nat :=
  List.range' f ((if inclusive then u + 1 else u) - f)

end Sys2Proof.Machine
end

