-- ==== Sys2Proof/Machine/Primitive.lean ====
section
/-! DEFINITION. The primitive pin operations (spec/40_pin_primitives.md) as an expansion names them, and the entries of an
expansion (spec/30_encoding.md R88). -/

namespace Sys2Proof.Machine

/-- A primitive pin operation. `samplePin` is READ_DATA_PIN inside `readByte`, whose bit goes to the assembling byte (R108);
`wait` takes any natural number, since the waits of the transactor are parameters. -/
inductive Prim where
  | setSer (l : Bool)
  | setSrclk (l : Bool)
  | setRclk (l : Bool)
  | setWe (l : Bool)
  | setDataDir (d : Dir)
  | setDataPin (k : Fin 8) (l : Bool)
  | readDataPin (k : Fin 8)
  | samplePin (k : Fin 8)
  | wait (t : Nat)
  deriving DecidableEq, Repr

/-- An entry of a macro operation's expansion: a primitive, a phase the controller enters, or the byte `readByte` returns. -/
inductive Micro where
  | prim (p : Prim)
  | enter (ph : Phase)
  | emit (a : Addr)
  deriving DecidableEq, Repr

/-- Every primitive but WAIT is a bus operation (R112). -/
def Prim.isBusOp : Prim → Bool
  | .wait _ => false
  | .setSer _ | .setSrclk _ | .setRclk _ | .setWe _ | .setDataDir _ | .setDataPin _ _ | .readDataPin _
  | .samplePin _ => true

end Sys2Proof.Machine
end

