-- ==== Sys2Proof/Machine/Flags.lean ====
section
/-! DEFINITION. The block has no status flags (spec/10_state.md R40). This file holds what plays their part: the signals derived
from the state (R38, R39), the pin roles (R23), and the checks every primitive makes (spec/40_pin_primitives.md R110 to R113). -/

namespace Sys2Proof.Machine

/-! ### Derived signals (spec/10_state.md R38, R39) -/

/-- The address lines the EEPROM sees. -/
def State.addr (s : State) : Option Addr := stageAddr s.store

/-- The output-enable line the EEPROM sees. -/
def State.oeN (s : State) : Option Bool := stageOeN s.store

/-- The WE_n the EEPROM sees: held high while the pin is not driven. -/
def Level.weSeen : Level → Bool
  | .z => true
  | .lo => false
  | .hi => true

/-- The controller's drive of the data lines. -/
inductive Bus where
  | floating
  | driven (v : Option Byte)
  deriving DecidableEq, Repr

/-- `busC` (R38). -/
def State.busC (s : State) : Bus :=
  match s.dataDir with
  | .input => .floating
  | .output => .driven s.dataOut

/-- The EEPROM inputs an operation can change. CE_n is tied active (R38) and is no field. -/
structure EeInputs where
  a : Option Addr
  oeN : Option Bool
  weN : Bool
  busC : Bus
  deriving DecidableEq, Repr

/-- `eeInputs()` (spec/40_pin_primitives.md R96). -/
def eeInputs (s : State) : EeInputs := ⟨s.addr, s.oeN, s.weN.weSeen, s.busC⟩

/-- `eeDrives` (R39): OE_n is 0 or unknown. -/
def State.eeDrives (s : State) : Bool := s.oeN != some true

/-! ### Pin roles (spec/10_state.md R23) -/

/-- The role of a pin. -/
def role (s : State) : Pin → Role
  | .ser | .srclk | .rclk => if s.phase = .uninit then .unconfigured else .serialOut
  | .weN => if s.phase = .uninit then .unconfigured else .writeEnableOut
  | .data _ => match s.dataDir with
    | .input => .eepromDataIn
    | .output => .eepromDataOut

/-- The pin must have the role, else the fault. -/
def expectRole (s : State) (p : Pin) (r : Role) (f : Raised) : Option Raised := if role s p = r then none else some f

/-- `roleCheck(op)` (R113). -/
def roleCheck (s : State) : Prim → Option Raised
  | .setSer _ => expectRole s .ser .serialOut (.wrongPinRole .ser)
  | .setSrclk _ => expectRole s .srclk .serialOut (.wrongPinRole .srclk)
  | .setRclk _ => expectRole s .rclk .serialOut (.wrongPinRole .rclk)
  | .setWe _ => expectRole s .weN .writeEnableOut (.wrongPinRole .weN)
  | .setDataPin k _ => expectRole s (.data k) .eepromDataOut (.wrongPinRole (.data k))
  | .readDataPin k => expectRole s (.data k) .eepromDataIn (.readWhileDriving k)
  | .samplePin k => expectRole s (.data k) .eepromDataIn (.readWhileDriving k)
  | .setDataDir _ => none
  | .wait _ => none

/-! ### The write delay (spec/40_pin_primitives.md R112) -/

/-- `writeDelayCheck()`. -/
def writeDelayCheck (s : State) : Option Raised :=
  match s.lastWeRise with
  | none => none
  | some tr => if s.now < tr + s.params.tWriteDelay then some (.writeDelayViolation (s.now - tr)) else none

/-- The checks before a primitive's effect, in the order of R96. -/
def preCheck (p : Prim) (s : State) : Option Raised :=
  (if p.isBusOp then writeDelayCheck s else none).or (roleCheck s p)

/-! ### The EEPROM's reactions and checks (spec/20_memory.md R56 to R62, spec/40_pin_primitives.md R110) -/

/-- WE_n falling edge (R57). -/
def weFalling (s : State) : Except Raised State :=
  if s.oeN = some true ∧ s.addr ≠ none then .ok { s with weFall := some s.now }
  else .error (.writeSelectInvalid s.addr s.oeN)

/-- Opens the write cycle of a rising edge (R58). -/
def openCycle (a : Addr) (v : Byte) (s : State) : State :=
  { s with busy := some ⟨a, v, s.now + s.params.tWc⟩, weFall := none }

/-- The byte on the data bus at the rising edge is latched (R58); a floating bus gives any byte (R62). -/
def latchByte (D : Draws) (a : Addr) (s : State) : State :=
  match s.busC with
  | .driven (some v) => openCycle a v s
  | .driven none => openCycle a (D.busByte s.draws) (drew s)
  | .floating => openCycle a (D.busByte s.draws) (drew s)

/-- WE_n rising edge (R58). In a state no run reaches, with no falling edge recorded or an unknown address, it faults
(DESIGN CHOICE, notes/assumptions/15.md; safe). -/
def weRising (D : Draws) (s : State) : Except Raised State :=
  match s.weFall with
  | none => .error (.wePulseTooShort 0)
  | some tf =>
    if s.now - tf < s.params.tWpMin then .error (.wePulseTooShort (s.now - tf))
    else match s.addr with
      | none => .error (.writeSelectInvalid none s.oeN)
      | some a => .ok (latchByte D a s)

/-- The address lines changed: they differ, or a latch edge met an unknown one (R56, R110). -/
def aChanged (latched : Bool) (old new : EeInputs) : Bool :=
  old.a != new.a || (latched && (old.a.isNone || new.a.isNone))

/-- OE_n changed, in the same sense. -/
def oeChanged (latched : Bool) (old new : EeInputs) : Bool :=
  old.oeN != new.oeN || (latched && (old.oeN.isNone || new.oeN.isNone))

/-- Whether latching the stage `v` counts as a change of A or OE_n (spec/20_memory.md R56). -/
def selects (s : State) (v : Stage) : Bool :=
  aChanged true (eeInputs s) (eeInputs { s with store := v }) || oeChanged true (eeInputs s) (eeInputs { s with store := v })

/-- The inputs of R59 that changed. -/
def changedInputs (latched : Bool) (old new : EeInputs) : List EeInput :=
  (if aChanged latched old new then [.address] else []) ++
  (if oeChanged latched old new then [.outputEnable] else []) ++
  (if old.busC != new.busC then [.dataBus] else [])

/-- The EEPROM's reaction to WE_n (R57, R58). -/
def weReaction (D : Draws) (old new : EeInputs) (s : State) : Except Raised State :=
  if old.weN && !new.weN then weFalling s
  else if !old.weN && new.weN then weRising D s
  else .ok s

/-- `ee.tSel <- now` when A or OE_n changed (R56). -/
def noteSelection (latched : Bool) (old new : EeInputs) (s : State) : State :=
  if aChanged latched old new || oeChanged latched old new then { s with tSel := s.now } else s

/-- `eepromCheck(old, new)` (R110) on the tentative state `s'`. -/
def eepromCheck (D : Draws) (latched : Bool) (old new : EeInputs) (s' : State) : Except Raised State :=
  let changed := changedInputs latched old new
  match s'.busy with
  | some c =>
    if changed = [] ∧ old.weN = new.weN then .ok s' else .error (.writeCycleViolation c)
  | none =>
    if old.weN = false ∧ new.weN = false ∧ changed ≠ [] then .error (.writeSignalsUnstable changed)
    else match weReaction D old new s' with
      | .error f => .error f
      | .ok t => .ok (noteSelection latched old new t)

/-! ### Contention (spec/40_pin_primitives.md R111) -/

/-- The data pins are outputs while the EEPROM may drive them. -/
def State.contention (s : State) : Bool := decide (s.dataDir = .output) && s.eeDrives

/-- `contentionCheck()` (R111), after the effect is committed. -/
def contentionCheck (s : State) : State :=
  if s.contention then raise (.busContention s.addr s.oeN) s else s

end Sys2Proof.Machine
end

