-- ==== Sys2Proof/Machine/PinPrimitives.lean ====
section
/-! DEFINITION. The primitive pin operations: the effect of each, the chain's reactions, the common step, and the meanings of
the eight primitives issued directly (spec/40_pin_primitives.md R96 to R114). -/

namespace Sys2Proof.Machine

/-! ### The chain's reactions (R104 to R107) -/

/-- `shiftEdge()` (R104). -/
def shiftEdge (s : State) : State := { s with shift := shiftIn s.ser.bit? s.shift }

/-- The latch edge (R106): all sixteen positions at once. -/
def latchEdge (s : State) : State := { s with store := s.shift }

/-! ### The effects -/

/-- SET_SER (R98). -/
def driveSer (l : Bool) (s : State) : State := { s with ser := Level.ofBool l }

/-- SET_SRCLK (R99): a rising edge shifts, anything else shifts nothing (R105). -/
def driveSrclk (l : Bool) (s : State) : State :=
  let t := { s with srclk := Level.ofBool l }
  if s.srclk = .lo ∧ l = true then shiftEdge t else t

/-- SET_RCLK (R100): a rising edge latches, anything else latches nothing (R107). -/
def driveRclk (l : Bool) (s : State) : State :=
  let t := { s with rclk := Level.ofBool l }
  if s.rclk = .lo ∧ l = true then latchEdge t else t

/-- SET_WE (R101): a rising edge starts the controller's write delay; the EEPROM's side is `weReaction`. -/
def driveWe (l : Bool) (s : State) : State :=
  let t := { s with weN := Level.ofBool l }
  if s.weN = .lo ∧ l = true then { t with lastWeRise := some s.now } else t

/-- SET_DATA_DIR (R102). -/
def driveDir (d : Dir) (s : State) : State := { s with dataDir := d }

/-- SET_DATA_PIN (R103). A bit of an unknown latch leaves it unknown (spec/00_scope.md R12); INIT makes it known. -/
def driveDataPin (k : Fin 8) (l : Bool) (s : State) : State := { s with dataOut := s.dataOut.map fun v => setBit v k l }

/-- The cell whose byte is on the data lines (spec/20_memory.md R55), if the lines carry one: an EEPROM is connected, its output
enabled, its address known, no write cycle runs, and A and OE_n have been stable for `T_ACC`. -/
def readableCell (s : State) : Option Addr :=
  if s.params.connected = true ∧ s.oeN = some false ∧ s.busy = none ∧ s.params.tAcc ≤ s.now - s.tSel then s.addr else none

/-- `ioLevel(k)` (R55) and the state after it: a level no cell gives is a draw. -/
def ioLevel (D : Draws) (k : Fin 8) (s : State) : Bool × State :=
  match readableCell s with
  | some a => ((cellRead D s.cells a).getLsbD k, s)
  | none => (D.busBit s.draws, drew s)

/-- READ_DATA_PIN issued directly (R108). -/
def samplePinOut (D : Draws) (k : Fin 8) (s : State) : State :=
  let r := ioLevel D k s
  { r.2 with out := r.2.out ++ [.bit k r.1] }

/-- READ_DATA_PIN inside `readByte` (R108, spec/42_eeprom_transactor.md R132). -/
def samplePinByte (D : Draws) (k : Fin 8) (s : State) : State :=
  let r := ioLevel D k s
  { r.2 with sampled := setBit r.2.sampled k r.1 }

/-- WAIT (R109). -/
def waitFor (t : Nat) (s : State) : State := advance t s

/-- `effect(op)` (R96). -/
def effect (D : Draws) (p : Prim) (s : State) : State :=
  match p with
  | .setSer l => driveSer l s
  | .setSrclk l => driveSrclk l s
  | .setRclk l => driveRclk l s
  | .setWe l => driveWe l s
  | .setDataDir d => driveDir d s
  | .setDataPin k l => driveDataPin k l s
  | .readDataPin k => samplePinOut D k s
  | .samplePin k => samplePinByte D k s
  | .wait t => waitFor t s

/-- An RCLK rising edge occurred between the two states (R110). -/
def rclkRose (s t : State) : Bool := decide (s.rclk = .lo) && decide (t.rclk = .hi)

/-! ### The common step (R96) -/

/-- The part of the common step after the latency: checks, tentative effect, EEPROM check, commit, contention check. -/
def actNow (D : Draws) (p : Prim) (s : State) : State :=
  match preCheck p s with
  | some f => raise f s
  | none =>
    match eepromCheck D (rclkRose s (effect D p s)) (eeInputs s) (eeInputs (effect D p s)) (effect D p s) with
    | .error f => raise f s
    | .ok t => contentionCheck t

/-- One primitive: its latency, then its checks and effect (R96). -/
def primStep (D : Draws) (p : Prim) (s : State) : State := actNow D p (elapse D s)

/-- A primitive issued directly by the program (R96). -/
def runDirect (D : Draws) (i : Instr) (p : Prim) (s : State) : Outcome := gate i s (advancePc (primStep D p s))

/-! ### The meanings -/

/-- SET_SER (R98). -/
def execSetSer (l : Bool) (s : State) : Outcome := runDirect Config.draws (.setSer l) (.setSer l) s

/-- SET_SRCLK (R99). -/
def execSetSrclk (l : Bool) (s : State) : Outcome := runDirect Config.draws (.setSrclk l) (.setSrclk l) s

/-- SET_RCLK (R100). -/
def execSetRclk (l : Bool) (s : State) : Outcome := runDirect Config.draws (.setRclk l) (.setRclk l) s

/-- SET_WE (R101). -/
def execSetWe (l : Bool) (s : State) : Outcome := runDirect Config.draws (.setWe l) (.setWe l) s

/-- SET_DATA_DIR (R102). -/
def execSetDataDir (d : Dir) (s : State) : Outcome := runDirect Config.draws (.setDataDir d) (.setDataDir d) s

/-- SET_DATA_PIN (R103). -/
def execSetDataPin (k : Fin 8) (l : Bool) (s : State) : Outcome :=
  runDirect Config.draws (.setDataPin k l) (.setDataPin k l) s

/-- READ_DATA_PIN (R108). -/
def execReadDataPin (k : Fin 8) (s : State) : Outcome := runDirect Config.draws (.readDataPin k) (.readDataPin k) s

/-- WAIT (R109). -/
def execWait (t : BitVec 28) (s : State) : Outcome := runDirect Config.draws (.wait t) (.wait t.toNat) s

end Sys2Proof.Machine
end

