-- ==== Sys2Proof/Machine/Expansion.lean ====
section
/-! DEFINITION. How a macro operation runs its fixed expansion (spec/42_eeprom_transactor.md R129). -/

namespace Sys2Proof.Machine

/-- `readByte` step 6 (R140): the assembled byte goes to the host under its address. -/
def emitByte (a : Addr) (s : State) : State :=
  { s with out := s.out ++ [.byte a (unpack s.params.pinForBit s.sampled)], sampled := 0 }

/-- One entry of an expansion. -/
def microStep (D : Draws) (m : Micro) (s : State) : State :=
  match m with
  | .prim p => advanceMicro (primStep D p s)
  | .enter ph => { s with phase := ph }
  | .emit a => emitByte a s

/-- An expansion in order; the first fault stops it (spec/60_exceptions.md R151). -/
def runMicros (D : Draws) : List Micro → State → State
  | [], s => s
  | m :: ms, s =>
    match (microStep D m s).fault with
    | some _ => microStep D m s
    | none => runMicros D ms (microStep D m s)

/-- A macro operation (R129): initialisation check, argument checks, expansion from primitive 0, completion in phase `ph`. A
failed check raises its fault with no time passing. -/
def runMacro (D : Draws) (i : Instr) (check : Option Raised) (ms : List Micro) (ph : Phase) (s : State) : Outcome :=
  gate i s <|
    match check with
    | some f => raise f s
    | none => completeMacro ph (runMicros D ms { s with micro := 0 })

end Sys2Proof.Machine
end

