-- ==== Sys2Proof/Machine/ShiftRegisterDriver.lean ====
section
/-! DEFINITION. The Shift-Register Driver: `send` (spec/41_shift_register_driver.md R121 to R127). -/

namespace Sys2Proof.Machine

/-- One bit of the stream (R121): its level on SER, then one SRCLK pulse. -/
def sendBit (b : Bool) : List Micro := [.prim (.setSer b), .prim (.setSrclk true), .prim (.setSrclk false)]

/-- The latch pulse (R121): high, then low. -/
def latchPulse : List Micro := [.prim (.setRclk true), .prim (.setRclk false)]

/-- The expansion of `send(w)` into 50 primitives (R121, R122). -/
def sendExpansion (w : SrWord) : List Micro := (serialBits w).flatMap sendBit ++ latchPulse

/-- SEND (R121). Issued directly it leaves the phase as it is (DEDUCED, notes/assumptions/14.md; safe). -/
def execSend (w : SrWord) (s : State) : Outcome := runMacro Config.draws (.send w) none (sendExpansion w) s.phase s

end Sys2Proof.Machine
end

