-- ==== Sys2Proof/Machine/EepromTransactor.lean ====
section
/-! DEFINITION. The EEPROM Transactor: INIT, SELECT, WRITE_BYTE, READ_BYTE and DUMP_RANGE (spec/42_eeprom_transactor.md R129 to
R147). -/

namespace Sys2Proof.Machine

/-! ### Expansions -/

/-- `driveByte(v)` (R131): eight SET_DATA_PIN in ascending value-bit order. -/
def driveByte (m : PinMap) (v : Byte) : List Micro :=
  valueBits.map fun i => .prim (.setDataPin (m.pin i) (v.getLsbD i))

/-- `sampleByte()` (R132): eight READ_DATA_PIN in the same order, into the assembling byte. -/
def sampleByte (m : PinMap) : List Micro := valueBits.map fun i => .prim (.samplePin (m.pin i))

/-- `selectAddress(a, o)` (R133) after its range check. -/
def selectExpansion (a : BitVec 16) (o : Bool) : List Micro := sendExpansion (packWord a o)

/-- `writeByte(a, v)` (R136) steps 2 to 4 and the WE_n falling edge of step 5. -/
def writeByteOpening (p : Params) (a : BitVec 16) (v : Byte) : List Micro :=
  selectExpansion a false ++ [.enter .addressSelected] ++
  [.prim (.setDataDir .output), .enter .dataDriven] ++
  driveByte p.pinForBit v ++
  [.prim (.setWe false)]

/-- `writeByte(a, v)` (R136) from the falling edge on: the low pulse, the rising edge and the write delay. -/
def writeBytePulse (p : Params) : List Micro :=
  [.enter .pulsed, .prim (.wait p.tWePulse), .prim (.setWe true)] ++
  [.enter .writeDelay, .prim (.wait p.tWriteDelay)]

/-- `writeByte(a, v)` (R136) steps 2 to 8. -/
def writeByteExpansion (p : Params) (a : BitVec 16) (v : Byte) : List Micro :=
  writeByteOpening p a v ++ writeBytePulse p

/-- `readByte(a)` (R140) steps 2 to 6. -/
def readByteExpansion (p : Params) (a : BitVec 16) : List Micro :=
  [.prim (.setDataDir .input), .enter .inputConfigured] ++
  selectExpansion a true ++ [.enter .addressSelected] ++
  [.prim (.wait p.tReadSettle)] ++
  sampleByte p.pinForBit ++ [.enter .sampled, .emit (a.setWidth 11)]

/-- `dumpRange(f, u)` (R143): `readByte` of each address. -/
def dumpRangeExpansion (p : Params) (f u : Nat) : List Micro :=
  (dumpAddresses p.dumpInclusive f u).flatMap fun a => readByteExpansion p (BitVec.ofNat 16 a)

/-! ### INIT (R130) -/

/-- The pins in their working state: WE_n high, the shift-register lines low, the data pins inputs over a latch of 0. -/
def configurePins (s : State) : State :=
  { s with
    weN := .hi
    ser := .lo
    srclk := .lo
    rclk := .lo
    dataDir := .input
    dataOut := some 0x00#8
    phase := .idle }

/-- INIT after its fault check: IllegalCommand with INIT's own word if it has run since reset, else the pins' set-up. -/
def runInit (D : Draws) (s : State) : State :=
  if s.phase = .uninit then advancePc (configurePins (elapse D s)) else raise (.illegalCommand (encode .init)) s

/-! ### The meanings -/

/-- INIT (R130): one step, not an expansion. -/
def execInit (s : State) : Outcome :=
  match s.fault with
  | some f => .fault (.controllerStuck f.code)
  | none => .next (runInit Config.draws s)

/-- SELECT (R133). -/
def execSelect (o : Bool) (a : BitVec 16) (s : State) : Outcome :=
  runMacro Config.draws (.select o a) (rangeCheck a.toNat) (selectExpansion a o) .idle s

/-- WRITE_BYTE (R136). -/
def execWriteByte (v : Byte) (a : BitVec 16) (s : State) : Outcome :=
  runMacro Config.draws (.writeByte v a) (rangeCheck a.toNat) (writeByteExpansion s.params a v) .idle s

/-- READ_BYTE (R140). -/
def execReadByte (a : BitVec 16) (s : State) : Outcome :=
  runMacro Config.draws (.readByte a) (rangeCheck a.toNat) (readByteExpansion s.params a) .idle s

/-- DUMP_RANGE (R143). -/
def execDumpRange (f u : BitVec 12) (s : State) : Outcome :=
  runMacro Config.draws (.dumpRange f u) (dumpCheck f.toNat u.toNat) (dumpRangeExpansion s.params f.toNat u.toNat) .idle s

end Sys2Proof.Machine
end

