-- ==== Sys2Proof/Machine/Dispatch.lean ====
section
/-! DEFINITION. The meaning of each operation: one arm per constructor of `Instr`. -/

namespace Sys2Proof.Machine

def exec (i : Instr) (s : State) : Host.Outcome State Fault Refusal :=
  match i with
  | .init => Sys2Proof.Machine.execInit s
  | .setSer l => Sys2Proof.Machine.execSetSer l s
  | .setSrclk l => Sys2Proof.Machine.execSetSrclk l s
  | .setRclk l => Sys2Proof.Machine.execSetRclk l s
  | .setWe l => Sys2Proof.Machine.execSetWe l s
  | .setDataDir d => Sys2Proof.Machine.execSetDataDir d s
  | .setDataPin k l => Sys2Proof.Machine.execSetDataPin k l s
  | .readDataPin k => Sys2Proof.Machine.execReadDataPin k s
  | .wait t => Sys2Proof.Machine.execWait t s
  | .send w => Sys2Proof.Machine.execSend w s
  | .select o a => Sys2Proof.Machine.execSelect o a s
  | .writeByte v a => Sys2Proof.Machine.execWriteByte v a s
  | .readByte a => Sys2Proof.Machine.execReadByte a s
  | .dumpRange f u => Sys2Proof.Machine.execDumpRange f u s

end Sys2Proof.Machine
end

