-- ==== Sys2Proof/Machine/Step.lean ====
section
/-! DEFINITION. One step of the machine, and the placing of an operation where the next step takes it. -/

namespace Sys2Proof.Machine

/-- One step: none while a fault is recorded (spec/60_exceptions.md R151); with an operation at `c.pc`, its word is decoded and
the operation executed, or IllegalCommand raised (spec/40_pin_primitives.md R96); with none left, the EEPROM's own step or the
end of the run (`idleStep`). -/
def step (s : State) : Host.Outcome State Fault Refusal :=
  match s.fault with
  | some f => .fault (.controllerStuck f.code)
  | none =>
    match fetch s with
    | none => idleStep s
    | some cw =>
      match decode cw with
      | .error _ => .next (raise (.illegalCommand cw) s)
      | .ok i => exec i s

/-- The host's list with the command word `w` (of `nbits` bits, the bits above them 0) at `c.pc`. -/
def State.withFetchWord (s : State) (nbits w : Nat) : State :=
  { s with program := placeAt s.pc (BitVec.ofNat 32 (w % 2 ^ nbits)) s.program }

end Sys2Proof.Machine
end

