-- ==== Sys2Proof/Machine/Transcriber.lean ====
section
/-! DEFINITION. The transcriber: the caller-facing text of spec/30_encoding.md R86 and R87 becomes operations and their command
words, or is refused (spec/42_eeprom_transactor.md R135); and the host's loading of the list. A text is a list of characters. -/

namespace Sys2Proof.Machine

/-- A caller's text. -/
abbrev Text := List Char

/-! ### Pieces of a text -/

/-- A blank character. -/
def isBlank (c : Char) : Bool := c == ' ' || c == '\t' || c == '\n' || c == '\r'

/-- The text without the blanks at its two ends. -/
def trim (t : Text) : Text := ((t.dropWhile isBlank).reverse.dropWhile isBlank).reverse

/-- The pieces between the characters `sep` holds of. -/
def splitText (sep : Char → Bool) : Text → List Text
  | [] => [[]]
  | c :: r =>
    if sep c then [] :: splitText sep r
    else match splitText sep r with
      | [] => [[c]]
      | t :: ts => (c :: t) :: ts

/-! ### Arguments -/

/-- The value of a digit in a base up to sixteen. -/
def digit? (base : Nat) (c : Char) : Option Nat :=
  let n := c.toNat
  (if 48 ≤ n ∧ n ≤ 57 then some (n - 48)
    else if 97 ≤ n ∧ n ≤ 102 then some (n - 87)
    else if 65 ≤ n ∧ n ≤ 70 then some (n - 55)
    else none).filter fun d => decide (d < base)

/-- The number whose further digits are the text's. -/
def digits (base : Nat) : Nat → Text → Option Nat
  | n, [] => some n
  | n, c :: r => (digit? base c).bind fun d => digits base (base * n + d) r

/-- A decimal or `0x` hexadecimal number (R86). -/
def number : Text → Option Nat
  | [] => none
  | '0' :: 'x' :: c :: r => digits 16 0 (c :: r)
  | t => digits 10 0 t

/-- A time in nanoseconds, or with the ending `us` or `ms` (R87). -/
def time (t : Text) : Option Nat :=
  match t.reverse with
  | 's' :: 'u' :: r => (number r.reverse).map fun n => 1000 * n
  | 's' :: 'm' :: r => (number r.reverse).map fun n => 1000000 * n
  | _ => number t

/-- `true` or `false` (R86). -/
def truth (t : Text) : Option Bool :=
  if t == "true".toList then some true else if t == "false".toList then some false else none

/-- `In` or `Out` (R87). -/
def direction (t : Text) : Option Dir :=
  if t == "In".toList then some .input else if t == "Out".toList then some .output else none

/-! ### Calls -/

/-- A call without arguments. -/
def noArg (call : Call) : List Text → Option Call
  | [] => some call
  | _ => none

/-- A call with one argument. -/
def oneArg {α : Type} (read : Text → Option α) (call : α → Call) : List Text → Option Call
  | [x] => (read x).map call
  | _ => none

/-- A call with two arguments. -/
def twoArgs {α β : Type} (read : Text → Option α) (read' : Text → Option β) (call : α → β → Call) :
    List Text → Option Call
  | [x, y] => (read x).bind fun a => (read' y).map fun b => call a b
  | _ => none

/-- The names of R81's syntax column, each with the reading of its arguments. -/
def callForms : List (String × (List Text → Option Call)) :=
  [ ("init", noArg .init),
    ("setSer", oneArg number .setSer),
    ("setSrclk", oneArg number .setSrclk),
    ("setRclk", oneArg number .setRclk),
    ("setWe", oneArg number .setWe),
    ("setDataDir", oneArg direction .setDataDir),
    ("setDataPin", twoArgs number number .setDataPin),
    ("readDataPin", oneArg number .readDataPin) ] ++
  [ ("wait", oneArg time .wait),
    ("send", oneArg number .send),
    ("selectAddress", twoArgs number truth .selectAddress),
    ("writeByte", twoArgs number number .writeByte),
    ("readByte", oneArg number .readByte),
    ("dumpRange", twoArgs number number .dumpRange) ]

/-- The arguments between a call's brackets. -/
def arguments (t : Text) : List Text :=
  if trim t = [] then [] else (splitText (fun c => c == ',') t).map trim

/-- One call: a name of R81 and its bracketed arguments. -/
def readCall (t : Text) : Option Call :=
  match splitText (fun c => c == '(') (trim t) with
  | [name, rest] =>
    match rest.reverse with
    | ')' :: inner =>
      (callForms.find? fun f => f.1.toList == trim name).bind fun f => f.2 (arguments inner.reverse)
    | _ => none
  | _ => none

/-- The operation a call's text spells; none if it spells no command word (R135). -/
def transcribe (t : Text) : Option Instr := (readCall t).bind Call.transcribe

/-- A list of calls, in order, none refused. -/
def transcribeAll : List Text → Option (List Instr)
  | [] => some []
  | t :: ts => (transcribe t).bind fun i => (transcribeAll ts).map fun is => i :: is

/-- A program (R86): calls in order, one operation each, separated by `;` or by line ends (DESIGN CHOICE,
notes/assumptions/18.md; safe). -/
def transcribeProgram (t : Text) : Option (List Instr) :=
  transcribeAll ((splitText (fun c => c == ';' || c == '\n') t).filter fun l => trim l != [])

/-! ### Loading -/

/-- The host hands over the operation list of a run (spec/60_exceptions.md R166): their command words, one per index. -/
def State.load (ops : List Instr) (s : State) : State := { s with program := ops.map encode }

end Sys2Proof.Machine
end

