-- ==== Sys2Proof/Safety.lean ====
section
/-! DEFINITION. What counts as a safe run, and the predicates on states that claims are stated with. -/

namespace Sys2Proof.Machine

/-- No fault is recorded: the run is safe so far (spec/60_exceptions.md R151). -/
abbrev State.Safe (s : State) : Prop := s.fault = none

/-- A run ends here (spec/10_state.md R42): no operation left, none in progress, no write cycle open, no fault. -/
abbrev State.Final (s : State) : Prop :=
  s.fault = none ∧ s.program.length ≤ s.pc ∧ s.micro = 0 ∧ s.busy = none

/-- The controller may run an operation: no fault is recorded and INIT has run (spec/40_pin_primitives.md R96). -/
abbrev State.Live (s : State) : Prop := s.fault = none ∧ s.phase ≠ .uninit

/-- The write delay of the last WE_n rising edge is over (spec/40_pin_primitives.md R112). -/
def State.DelayOver (s : State) : Prop := ∀ tr, s.lastWeRise = some tr → tr + s.params.tWriteDelay ≤ s.now

/-- An EEPROM input may change: no write cycle runs and WE_n is not low (spec/20_memory.md R59, R61). -/
abbrev State.Steady (s : State) : Prop := s.busy = none ∧ s.weN ≠ .lo

/-- What holds of the pins, the bus and the EEPROM in every state, also between the primitives of a macro operation and after a
fault. -/
structure State.BusLegal (s : State) : Prop where
  /-- The cells keep their canonical form. -/
  cells_wf : s.cells.wf
  /-- Before INIT nothing is driven and no pulse, cycle or delay runs (spec/70_reset_and_hazards.md R176, R178). -/
  undriven : s.phase = .uninit → s.ser = .z ∧ s.srclk = .z ∧ s.rclk = .z ∧ s.weN = .z ∧ s.dataDir = .input ∧
    s.dataOut = none ∧ s.busy = none ∧ s.weFall = none ∧ s.lastWeRise = none
  /-- From INIT on every line is driven and the data latch is known (spec/42_eeprom_transactor.md R130). -/
  driven : s.phase ≠ .uninit → s.ser ≠ .z ∧ s.srclk ≠ .z ∧ s.rclk ≠ .z ∧ s.weN ≠ .z ∧ s.dataOut ≠ none
  /-- `ee.weFall` is held exactly while WE_n is low (spec/10_state.md R29). -/
  pulse : s.weN = .lo ↔ s.weFall ≠ none
  /-- While WE_n is low the EEPROM is selected for writing (spec/20_memory.md R57, R59). -/
  pulse_selected : s.weN = .lo → s.oeN = some true ∧ s.addr ≠ none
  /-- The falling edge is in the past. -/
  pulse_time : ∀ tf, s.weFall = some tf → tf ≤ s.now
  /-- An open write cycle has not reached its end (spec/10_state.md R34). -/
  cycle_time : ∀ c, s.busy = some c → s.now ≤ c.tEnd
  /-- WE_n is high while a write cycle runs (spec/20_memory.md R61). -/
  cycle_high : s.busy ≠ none → s.weN = .hi
  /-- A write cycle ends `T_WC` after the WE_n rising edge that opened it (spec/20_memory.md R58). -/
  cycle_rise : ∀ c, s.busy = some c → ∃ tr, s.lastWeRise = some tr ∧ c.tEnd = tr + s.params.tWc
  /-- The last rising edge is in the past. -/
  rise_time : ∀ tr, s.lastWeRise = some tr → tr ≤ s.now
  /-- The last change of A or OE_n is in the past. -/
  sel_time : s.tSel ≤ s.now
  /-- No contention without a fault (spec/40_pin_primitives.md R111). -/
  no_contention : s.fault = none → s.contention = false

/-- The invariant of the machine between operations. -/
structure State.Legal (s : State) : Prop extends State.BusLegal s where
  /-- Between operations the phase is Uninit or Idle (spec/10_state.md R30). -/
  phase_between : s.fault = none → s.phase = .uninit ∨ s.phase = .idle
  /-- Between operations no macro operation is in progress (spec/10_state.md R31). -/
  micro_zero : s.fault = none → s.micro = 0
  /-- Between operations no byte is being assembled (spec/40_pin_primitives.md R108). -/
  sampled_zero : s.fault = none → s.sampled = 0

/-- The states the transactor's own operations leave (spec/42_eeprom_transactor.md R144): idle, no fault, the shift clocks low, WE_n
high, no pulse or write cycle, the write delay over, no contention. -/
structure State.Ready (s : State) : Prop where
  safe : s.fault = none
  idle : s.phase = .idle
  micro_zero : s.micro = 0
  srclk_low : s.srclk = .lo
  rclk_low : s.rclk = .lo
  we_high : s.weN = .hi
  latch_known : s.dataOut ≠ none
  no_pulse : s.weFall = none
  no_cycle : s.busy = none
  delay_over : s.DelayOver
  sel_time : s.tSel ≤ s.now
  no_contention : s.contention = false

/-- The primitive changes an EEPROM input, or latches with an unknown among the old or new A and OE_n, which counts as a change
(spec/20_memory.md R56, spec/40_pin_primitives.md R110). -/
def InputsChange (D : Draws) (p : Prim) (s : State) : Prop :=
  eeInputs (effect D p s) ≠ eeInputs s ∨
  (p = .setRclk true ∧ s.rclk = .lo ∧
    (s.addr = none ∨ s.oeN = none ∨ (effect D p s).addr = none ∨ (effect D p s).oeN = none))

/-- The byte the EEPROM holds in a cell (spec/10_state.md R29). -/
abbrev State.cell (s : State) (a : Addr) : Byte := cellRead Config.draws s.cells a

/-- Between the two states an open write cycle stayed open, the cells as they were, or ended with its byte in its cell
(spec/10_state.md R34, spec/20_memory.md R60). -/
def CycleStaysOrEnds (s t : State) : Prop :=
  (t.busy = s.busy ∧ t.cells = s.cells) ∨ ∃ c, s.busy = some c ∧ t.busy = none ∧ t.cell c.addr = c.data

/-- The state once the next primitive's latency has passed (spec/10_state.md R35). -/
abbrev State.afterLatency (s : State) : State := elapse Config.draws s

end Sys2Proof.Machine

namespace Sys2Proof

/-- The operations R144 speaks of, with arguments in range. -/
def Instr.transaction : Instr → Bool
  | .writeByte v a => (Instr.writeByte v a).argsInRange
  | .readByte a => (Instr.readByte a).argsInRange
  | .dumpRange f u => (Instr.dumpRange f u).argsInRange
  | .init | .setSer _ | .setSrclk _ | .setRclk _ | .setWe _ | .setDataDir _ | .setDataPin _ _ | .readDataPin _
  | .wait _ | .send _ | .select _ _ => false

/-- A part of the state an operation may write (the "State written" entries of spec/40 to 42); time, the operation index, the
fault and the completion of an open write cycle are no part. -/
inductive StatePart where
  | ser
  | srclk
  | shift
  | rclk
  | selection
  | we
  | dataDir
  | dataOut
  | phase
  | results
  deriving DecidableEq, Repr

/-- The parts each operation may write. `shift` is the shift stage, `selection` the storage stage with `ee.tSel`, `we` the level of
WE_n with the pulse, the write cycle it opens and the time of its rising edge, `results` is `c.out` with the byte being assembled. -/
def Instr.writes : Instr → List StatePart
  | .init => [.ser, .srclk, .rclk, .we, .dataDir, .dataOut, .phase]
  | .setSer _ => [.ser]
  | .setSrclk _ => [.srclk, .shift]
  | .setRclk _ => [.rclk, .selection]
  | .setWe _ => [.we]
  | .setDataDir _ => [.dataDir]
  | .setDataPin _ _ => [.dataOut]
  | .readDataPin _ => [.results]
  | .wait _ => []
  | .send _ => [.ser, .srclk, .shift, .rclk, .selection]
  | .select _ _ => [.ser, .srclk, .shift, .rclk, .selection, .phase]
  | .writeByte _ _ => [.ser, .srclk, .shift, .rclk, .selection, .we, .dataDir, .dataOut, .phase]
  | .readByte _ => [.ser, .srclk, .shift, .rclk, .selection, .dataDir, .phase, .results]
  | .dumpRange _ _ => [.ser, .srclk, .shift, .rclk, .selection, .dataDir, .phase, .results]

end Sys2Proof
end

