-- ==== Sys2Proof/Certificates/Slice0/Obligations.lean ====
section
/-! DEFINITION. The statements for the provers, from the numbered rules of spec/. Each docstring names the rule it formalises.
`s.afterLatency` is the state once the primitive's latency has passed: `now` has moved on by a free amount and an open write
cycle whose end has come has reached its cell; all else is as in `s`. -/

open Sys2Proof Sys2Proof.Machine

/-! ### Encoding -/

/-- Words written out from the patterns of R82 decode to the operations they stand for (the source of each is V3 of
spec/95_test_vectors.md). -/
def Obligations.WrittenWordsDecode : Prop :=
  decode 0x00000000#32 = .ok .init ∧ decode 0x10000001#32 = .ok (.setSer true) ∧
  decode 0x60000601#32 = .ok (.setDataPin 6 true) ∧ decode 0x80989680#32 = .ok (.wait 10000000#28) ∧
  decode 0x9000ABCD#32 = .ok (.send 0xABCD#16) ∧ decode 0xA0010005#32 = .ok (.select true 5#16) ∧
  decode 0xB0120001#32 = .ok (.writeByte 0x12#8 1#16) ∧ decode 0xD0000002#32 = .ok (.dumpRange 0#12 2#12)

/-- Decoding the word of an operation gives the operation back, for every operation and every value of its fields (R82, R83). -/
def Obligations.DecodeOfEncode : Prop := ∀ i : Instr, i.wellFormed = true → decode (encode i) = .ok i

/-- A word that decodes is the word of the operation it decodes to: no bit of it is dropped (R82, R84). -/
def Obligations.EncodeOfDecode : Prop := ∀ (cw : CommandWord) (i : Instr), decode cw = .ok i → encode i = cw

/-- R85: `decode(cw)` is the unique row of R82 with `cw & mask = match`, or illegal if there is none; each row has an OP of its own
and every mask covers bits 31..28. -/
def Obligations.DecodingIsUniqueAndTotal : Prop :=
  (∀ cw r, r ∈ rows → cw &&& r.mask = r.pattern → decode cw = .ok (r.read cw)) ∧
  (∀ cw, (∀ r ∈ rows, cw &&& r.mask ≠ r.pattern) → ∃ e, decode cw = .error e) ∧
  (∀ cw, ∀ r ∈ rows, ∀ q ∈ rows, cw &&& r.mask = r.pattern → cw &&& q.mask = q.pattern → r.mnemonic = q.mnemonic) ∧
  rows.Pairwise (fun r q => opField r.pattern ≠ opField q.pattern) ∧
  (∀ r ∈ rows, opField r.mask = 0xF#4)

/-- R84: a word with OP 0xE or 0xF, or with a must-be-zero bit of its format set, spells no operation, and executing it raises
IllegalCommand (code 1) with the word as info before any effect. -/
def Obligations.IllegalWordsRaise : Prop :=
  ∀ cw : CommandWord,
    (14 ≤ (opField cw).toNat ∨ ∃ r ∈ rows, opField cw = opField r.pattern ∧ cw &&& r.mask ≠ r.pattern) →
    (∃ e, decode cw = .error e) ∧
    ∀ s : State, s.fault = none → fetch s = some cw →
      step s = .next { s with fault := some (.illegalCommand cw) } ∧ (Raised.illegalCommand cw).code = 1

/-- R135: the value of `writeByte(a, v)` is a byte; a call, or a caller's text of one, with `v > 255` spells no command word and is
refused, and one whose arguments fit their fields is the operation with those arguments. -/
def Obligations.TranscriberRefusesWideBytes : Prop :=
  (∀ a v : Nat, 255 < v → (Call.writeByte a v).transcribe = none) ∧
  (∀ (t : Text) (a v : Nat), readCall t = some (.writeByte a v) → 255 < v → transcribe t = none) ∧
  (∀ a v : Nat, a < 65536 → v ≤ 255 → ∃ (va : Byte) (aa : BitVec 16),
    (Call.writeByte a v).transcribe = some (.writeByte va aa) ∧ va.toNat = v ∧ aa.toNat = a)

/-! ### The step -/

/-- When the command word at `c.pc` decodes to an operation, the step is that operation's execution, with nothing around it (R96). -/
def Obligations.StepRunsDecodedOperation : Prop :=
  ∀ (s : State) (cw : CommandWord) (i : Instr), s.fault = none → fetch s = some cw → decode cw = .ok i →
    i.wellFormed = true → step s = exec i s

/-- An operation placed by `withFetchWord` is the one the next step runs, wherever `c.pc` points. -/
def Obligations.PlacedOperationIsRun : Prop :=
  ∀ (s : State) (nbits w : Nat) (i : Instr), s.fault = none → decodeTableWord nbits w = some i →
    step (s.withFetchWord nbits w) = exec i (s.withFetchWord nbits w)

/-- R86: the host's list of operations runs in order, one operation each: loaded as command words, the operation at `c.pc` is the one
the step executes (that a list is loaded into State is the model's form, notes/assumptions/1.md). -/
def Obligations.LoadedOperationsAreRun : Prop :=
  ∀ (ops : List Instr) (s : State) (i : Instr), s.fault = none → ops[s.pc]? = some i →
    step (s.load ops) = exec i (s.load ops)

/-- R32 and R151: no fault is recorded at reset; the first fault raised is recorded; no rule but reset clears it; while one is
recorded the controller has no step, whatever the operation. That having no step is the outcome `controllerStuck` with the recorded
code is the model's form (DESIGN CHOICE, notes/assumptions/8.md). -/
def Obligations.FaultsAreKeptAndStopTheController : Prop :=
  State.reset.fault = none ∧
  (∀ (f : Raised) (s : State), s.fault = none → (raise f s).fault = some f) ∧
  (∀ (f g : Raised) (s : State), s.fault = some f → (raise g s).fault = some f) ∧
  (∀ (f : Raised) (s : State), s.fault = some f →
    step s = .fault (.controllerStuck f.code) ∧ ∀ i : Instr, exec i s = .fault (.controllerStuck f.code)) ∧
  (∀ s : State, (powerCycle Config.draws s).fault = none)

/-- R154: NotInitialised (code 2) is raised by every operation other than INIT while the phase is Uninit, before any effect, with the
operation as info. -/
def Obligations.NothingRunsBeforeInit : Prop :=
  ∀ (i : Instr) (s : State), i ≠ .init → s.fault = none → s.phase = .uninit →
    exec i s = .next { s with fault := some (.notInitialised i) } ∧ (Raised.notInitialised i).code = 2

/-- R60: with no operation left and no fault recorded, an open write cycle is completed by a step of the EEPROM's own, which
passes the time to its end, writes its byte to its cell and changes nothing else. -/
def Obligations.EepromCompletesOnItsOwn : Prop :=
  ∀ (s : State) (c : WriteCycle), s.fault = none → fetch s = none → s.busy = some c →
    ∃ t, step s = .next t ∧ t.now = max s.now c.tEnd ∧ t.busy = none ∧ t.cell c.addr = c.data ∧
      (∀ a, a ≠ c.addr → t.cell a = s.cell a) ∧ t = { s with now := t.now, cells := t.cells, busy := none }

/-- R42: with no operation left, none in progress, no fault and no write cycle open the run has ended and no step is taken. -/
def Obligations.FinalStatesHaveNoStep : Prop := ∀ s : State, s.Final → step s = .refused .runEnded

/-- R31: an operation that completes without fault advances `c.pc` by one and leaves `c.micro` 0; one that faults leaves `c.pc` at its
own index; no step writes `c.pc` otherwise; both indices are 0 at reset. -/
def Obligations.OperationIndexAdvances : Prop :=
  State.reset.pc = 0 ∧ State.reset.micro = 0 ∧
  (∀ (i : Instr) (s t : State), s.micro = 0 → exec i s = .next t →
    (t.fault = none → t.pc = s.pc + 1 ∧ t.micro = 0) ∧ (t.fault ≠ none → t.pc = s.pc)) ∧
  ∀ s t : State, step s = .next t → t.pc = s.pc ∨ (t.pc = s.pc + 1 ∧ t.fault = none ∧ fetch s ≠ none)

/-! ### Reset -/

/-- R176: power-on and the host's power cycle set every piece of state to its reset value; a power cycle that cuts no write cycle
keeps the cells, and at the first reset they are a draw. -/
def Obligations.PowerCycleResets : Prop :=
  (∀ t : State, (t = State.reset ∨ ∃ s, t = powerCycle Config.draws s) →
    t.ser = .z ∧ t.srclk = .z ∧ t.rclk = .z ∧ t.weN = .z ∧ t.dataDir = .input ∧ t.dataOut = none ∧ t.phase = .uninit ∧
    t.pc = 0 ∧ t.micro = 0 ∧ t.fault = none ∧ t.lastWeRise = none ∧ t.out = [] ∧
    (∀ i : Fin 16, t.shift[i] = none ∧ t.store[i] = none) ∧
    t.busy = none ∧ t.weFall = none ∧ t.tSel = 0 ∧ t.now = 0) ∧
  (∀ s : State, s.busy = none → (powerCycle Config.draws s).cells = s.cells) ∧
  (∀ a : Addr, State.reset.cell a = Config.initialCell a)

/-- R174: power loss during a write cycle leaves every cell but the one being written as it was, and that one with any value: a free
value (notes/assumptions/7.md), whatever it held and whatever was being written. -/
def Obligations.PowerLossCutsOneCell : Prop :=
  ∀ (s : State) (c : WriteCycle), s.busy = some c →
    (powerCycle Config.draws s).cell c.addr = Config.cutByte s.draws ∧
    ∀ a, a ≠ c.addr → (powerCycle Config.draws s).cell a = s.cell a

/-- The invariant `State.Legal` holds at reset. -/
def Obligations.ResetIsLegal : Prop := State.reset.Legal

/-- Every step keeps the invariant `State.Legal`: canonical cells, driven lines from INIT on, a selected EEPROM while WE_n is low, a
write cycle that has not reached its end, no contention without a fault, no operation in progress between operations. -/
def Obligations.StepsKeepLegal : Prop := ∀ s t : State, s.Legal → step s = .next t → t.Legal

/-- A power cycle keeps the invariant. -/
def Obligations.PowerCyclesKeepLegal : Prop := ∀ s : State, s.Legal → (powerCycle Config.draws s).Legal

/-! ### Words and pins -/

/-- R78 and R79: pin `PIN_FOR_BIT[i]` carries value bit `i`, driving and sampling; so `unpack` and `pinLevels` are exact inverses for
every permutation `PIN_FOR_BIT`; and a table that is no permutation of 0..7 is refused as a configuration, one that is taken as it
stands. -/
def Obligations.PinMapsAreInverse : Prop :=
  (∀ (m : PinMap) (v : Byte) (i : Fin 8), (pinLevels m v).getLsbD (m.pin i) = v.getLsbD i) ∧
  (∀ (m : PinMap) (p : Byte) (i : Fin 8), (unpack m p).getLsbD i = p.getLsbD (m.pin i)) ∧
  (∀ (m : PinMap) (v : Byte), unpack m (pinLevels m v) = v) ∧ (∀ (m : PinMap) (p : Byte), pinLevels m (unpack m p) = p) ∧
  (∀ l : List (Fin 8), (∃ m, PinMap.check l = some m) ↔ l.length = 8 ∧ l.Nodup) ∧
  (∀ (l : List (Fin 8)) (m : PinMap), PinMap.check l = some m → m.table.toList = l ∧ ∀ i : Fin 8, l[i]? = some (m.pin i))

/-- R75: for an address in range, bit 11 of the packed word is the inverted output-enable flag, bits 10..0 are the address and bits
15..12 are 0. -/
def Obligations.AddressPacking : Prop :=
  ∀ (a : BitVec 16) (oe : Bool), a.toNat ≤ 2047 →
    (packWord a oe).getLsbD 11 = !oe ∧ (packWord a oe).toNat % 2048 = a.toNat ∧ (packWord a oe).toNat < 4096

/-! ### The shift-register chain -/

/-- R104: a shift edge moves position `i` to `i + 1` and loads SER into position 0, and sixteen of them with SER at the bits of a word
from the most significant down leave the word, whatever the stage held. -/
def Obligations.ShiftEdgeShifts : Prop :=
  ∀ s : State,
    (shiftEdge s).shift[0] = s.ser.bit? ∧ (∀ (i : Nat) (h : i < 15), (shiftEdge s).shift[i + 1] = s.shift[i]) ∧
    ∀ (w : SrWord) (i : Nat) (h : i < 16),
      ((serialBits w).foldl (fun t b => shiftEdge (driveSer b t)) s).shift[i] = some (w.getLsbD i)

/-- R106: the latch edge copies all sixteen positions of the shift stage, known or unknown, and is the only write to the storage
stage. -/
def Obligations.LatchEdgeAloneWritesTheStore : Prop :=
  (∀ s : State, (latchEdge s).store = s.shift) ∧
  (∀ (D : Draws) (p : Prim) (s : State), (primStep D p s).store ≠ s.store →
    p = .setRclk true ∧ s.rclk = .lo ∧ (primStep D p s).store = s.shift) ∧
  (∀ (D : Draws) (s : State), (runInit D s).store = s.store)

/-- R105 and R107: a falling edge of SRCLK or RCLK, or a set of either to the level it has, does nothing to the chain. -/
def Obligations.OtherClockEdgesDoNothing : Prop :=
  ∀ (D : Draws) (s : State),
    (∀ l, s.srclk ≠ .lo ∨ l = false →
      (primStep D (.setSrclk l) s).shift = s.shift ∧ (primStep D (.setSrclk l) s).store = s.store) ∧
    (∀ l, s.rclk ≠ .lo ∨ l = false →
      (primStep D (.setRclk l) s).shift = s.shift ∧ (primStep D (.setRclk l) s).store = s.store)

/-- R123: during the 48 shift-phase primitives of `send` every EEPROM input is unchanged. -/
def Obligations.ShiftingIsInvisible : Prop :=
  ∀ (D : Draws) (w : SrWord) (n : Nat) (s : State), n ≤ 48 →
    eeInputs (runMicros D ((sendExpansion w).take n) s) = eeInputs s ∧
    (runMicros D ((sendExpansion w).take n) s).store = s.store

/-! ### Time -/

/-- R34: `advance(d)` adds `d` to `now`; a write cycle whose end has come then reaches its cell and ends; else nothing else changes. -/
def Obligations.AdvanceCompletesCycles : Prop :=
  ∀ (d : Nat) (s : State),
    (∀ c, s.busy = some c → c.tEnd ≤ s.now + d →
      advance d s = { s with now := s.now + d, busy := none, cells := (advance d s).cells } ∧
      (advance d s).cell c.addr = c.data ∧ ∀ a, a ≠ c.addr → (advance d s).cell a = s.cell a) ∧
    ((∀ c, s.busy = some c → s.now + d < c.tEnd) → advance d s = { s with now := s.now + d })

/-- No step turns time back, forgets a result, or changes the host's list or the build's parameters (R33, R37, R18). -/
def Obligations.StepsOnlyMoveForward : Prop :=
  ∀ s t : State, step s = .next t →
    s.now ≤ t.now ∧ s.draws ≤ t.draws ∧ t.params = s.params ∧ t.program = s.program ∧ ∃ l, t.out = s.out ++ l

/-! ### The primitives complete -/

/-- R130: INIT drives WE_n high and the shift-register lines low, makes the data pins inputs over a latch of 0 and enters Idle; no
EEPROM input changes. A second INIT raises IllegalCommand with INIT's word. -/
def Obligations.InitConfiguresThePins : Prop :=
  (∀ s : State, s.fault = none → s.phase = .uninit →
    exec .init s = .next { s.afterLatency with
      weN := .hi, ser := .lo, srclk := .lo, rclk := .lo, dataDir := .input, dataOut := some 0x00#8, phase := .idle,
      pc := s.pc + 1 } ∧
    (s.weN = .z → s.dataDir = .input → ∀ t, exec .init s = .next t → eeInputs t = eeInputs s)) ∧
  (∀ s : State, s.fault = none → s.phase ≠ .uninit →
    exec .init s = .next { s with fault := some (.illegalCommand 0x00000000#32) })

/-- R98: SET_SER drives SER to `l` and touches nothing else. -/
def Obligations.SetSerCompletes : Prop :=
  ∀ (l : Bool) (s : State), s.Live → s.DelayOver → s.contention = false →
    exec (.setSer l) s = .next { s.afterLatency with ser := Level.ofBool l, pc := s.pc + 1 }

/-- R99: SET_SRCLK drives SRCLK to `l`; a rising edge shifts SER into the shift stage; nothing else is touched. -/
def Obligations.SetSrclkCompletes : Prop :=
  ∀ (l : Bool) (s : State), s.Live → s.DelayOver → s.contention = false →
    exec (.setSrclk l) s = .next { s.afterLatency with
      srclk := Level.ofBool l
      shift := if s.srclk = .lo ∧ l = true then shiftIn s.ser.bit? s.shift else s.shift
      pc := s.pc + 1 }

/-- R100: SET_RCLK drives RCLK to `l`; a rising edge copies the shift stage into the storage stage, and `ee.tSel` takes the time if A
or OE_n changed. It completes when A and OE_n do not change or may change, and the data pins do not meet an enabled EEPROM. -/
def Obligations.SetRclkCompletes : Prop :=
  ∀ (l : Bool) (s : State), s.Live → s.DelayOver →
    (s.rclk = .lo ∧ l = true →
      (selects s s.shift = true → s.Steady) → (s.dataDir = .output → stageOeN s.shift = some true) →
      exec (.setRclk l) s = .next { s.afterLatency with
        rclk := .hi, store := s.shift, tSel := if selects s s.shift then s.afterLatency.now else s.tSel, pc := s.pc + 1 }) ∧
    (s.rclk ≠ .lo ∨ l = false → s.contention = false →
      exec (.setRclk l) s = .next { s.afterLatency with rclk := Level.ofBool l, pc := s.pc + 1 })

/-- R101: SET_WE to the level WE_n has does nothing; a falling edge with the EEPROM deselected for output and its address known opens
the pulse; a rising edge after a long enough pulse latches the driven byte (any byte, if the pins are inputs) into a write cycle
of `T_WC` and starts the controller's write delay. -/
def Obligations.SetWeCompletes : Prop :=
  ∀ (s : State), s.Live → s.DelayOver →
    (∀ l, s.weN = Level.ofBool l → s.contention = false →
      exec (.setWe l) s = .next { s.afterLatency with pc := s.pc + 1 }) ∧
    (s.weN = .hi → s.busy = none → s.oeN = some true → s.addr ≠ none →
      exec (.setWe false) s = .next { s.afterLatency with
        weN := .lo, weFall := some s.afterLatency.now, pc := s.pc + 1 }) ∧
    (∀ tf a, s.weN = .lo → s.busy = none → s.weFall = some tf → tf + s.params.tWpMin ≤ s.now → s.addr = some a →
      s.contention = false →
      (∀ v, s.dataDir = .output → s.dataOut = some v →
        exec (.setWe true) s = .next { s.afterLatency with
          weN := .hi, lastWeRise := some s.afterLatency.now, weFall := none,
          busy := some ⟨a, v, s.afterLatency.now + s.params.tWc⟩, pc := s.pc + 1 }) ∧
      (s.dataDir = .input → ∃ v, exec (.setWe true) s = .next { s.afterLatency with
          weN := .hi, lastWeRise := some s.afterLatency.now, weFall := none,
          busy := some ⟨a, v, s.afterLatency.now + s.params.tWc⟩, draws := s.draws + 2, pc := s.pc + 1 }))

/-- R102: SET_DATA_DIR sets the direction of all eight data pins. It completes when the direction does not change or may change, and
the pins as outputs do not meet an EEPROM that may drive. -/
def Obligations.SetDataDirCompletes : Prop :=
  ∀ (d : Dir) (s : State), s.Live → s.DelayOver → (s.dataDir ≠ d → s.Steady) → (d = .output → s.oeN = some true) →
    exec (.setDataDir d) s = .next { s.afterLatency with dataDir := d, pc := s.pc + 1 }

/-- R103: SET_DATA_PIN sets bit `k` of the output latch to `l`. It completes on output pins when the bit does not change or may
change. -/
def Obligations.SetDataPinCompletes : Prop :=
  ∀ (k : Fin 8) (l : Bool) (v : Byte) (s : State), s.Live → s.DelayOver → s.dataDir = .output → s.contention = false →
    s.dataOut = some v → (v.getLsbD k ≠ l → s.Steady) →
    exec (.setDataPin k l) s = .next { s.afterLatency with dataOut := some (setBit v k l), pc := s.pc + 1 } ∧
    ∀ j : Fin 8, (setBit v k l).getLsbD j = if j = k then l else v.getLsbD j

/-- R108 and R55: READ_DATA_PIN appends `bit(k, b)`, with `b` the bit of the addressed cell when a connected EEPROM is enabled,
idle and settled; in every other case the level is some bit. -/
def Obligations.ReadDataPinCompletes : Prop :=
  ∀ (k : Fin 8) (s : State), s.Live → s.DelayOver → s.dataDir = .input →
    (∀ a, s.params.connected = true → s.oeN = some false → s.addr = some a → s.busy = none →
      s.tSel + s.params.tAcc ≤ s.now →
      exec (.readDataPin k) s = .next { s.afterLatency with
        out := s.out ++ [.bit k ((s.cell a).getLsbD k)], pc := s.pc + 1 }) ∧
    (∃ b d, exec (.readDataPin k) s = .next { s.afterLatency with
      out := s.out ++ [.bit k b], draws := d, pc := s.pc + 1 })

/-- R109: WAIT lets `t` ns pass after its latency; a write cycle that ends by then has reached its cell. WAIT is no bus operation, so
the write delay does not forbid it. -/
def Obligations.WaitCompletes : Prop :=
  ∀ (t : BitVec 28) (s : State), s.Live → s.contention = false →
    exec (.wait t) s = .next { advance t.toNat s.afterLatency with pc := s.pc + 1 } ∧
    s.now + t.toNat ≤ (advance t.toNat s.afterLatency).now ∧
    ∀ c, s.busy = some c → c.tEnd ≤ s.now + t.toNat →
      (advance t.toNat s.afterLatency).busy = none ∧ (advance t.toNat s.afterLatency).cell c.addr = c.data

/-! ### The checks of the common step -/

/-- R112: within `T_WRITE_DELAY` of the last WE_n rising edge every primitive but WAIT raises WriteDelayViolation (code 4) with the
time elapsed, and without any other effect; WAIT does not. -/
def Obligations.WriteDelayIsEnforced : Prop :=
  ∀ (D : Draws) (p : Prim) (s : State) (tr : Nat), s.lastWeRise = some tr → s.fault = none →
    (elapse D s).now < tr + s.params.tWriteDelay →
    ((∀ t, p ≠ .wait t) →
      primStep D p s = raise (.writeDelayViolation ((elapse D s).now - tr)) (elapse D s)) ∧
    (∀ t e, (primStep D (.wait t) s).fault ≠ some (.writeDelayViolation e))

/-- R113: driving a data pin whose role is EepromDataIn is WrongPinRole (code 5), sampling one whose role is EepromDataOut is
ReadWhileDriving (code 6), and after INIT the shift-register lines and WE_n always have their roles. -/
def Obligations.RolesAreAsserted : Prop :=
  (∀ (D : Draws) (k : Fin 8) (l : Bool) (s : State), s.DelayOver → s.dataDir = .input →
    primStep D (.setDataPin k l) s = raise (.wrongPinRole (.data k)) (elapse D s)) ∧
  (∀ (D : Draws) (k : Fin 8) (s : State), s.DelayOver → s.dataDir = .output →
    primStep D (.readDataPin k) s = raise (.readWhileDriving k) (elapse D s) ∧
    primStep D (.samplePin k) s = raise (.readWhileDriving k) (elapse D s)) ∧
  (∀ (s : State) (l : Bool), s.phase ≠ .uninit →
    role s .ser = .serialOut ∧ role s .srclk = .serialOut ∧ role s .rclk = .serialOut ∧ role s .weN = .writeEnableOut ∧
    roleCheck s (.setSer l) = none ∧ roleCheck s (.setSrclk l) = none ∧ roleCheck s (.setRclk l) = none ∧
    roleCheck s (.setWe l) = none)

/-- R61: while a write cycle runs, a primitive that changes an EEPROM input raises WriteCycleViolation (code 7) with the cycle as
info, and has no effect. `s` is the state after the primitive's latency, its earlier checks passed. -/
def Obligations.WriteCycleIsProtected : Prop :=
  ∀ (D : Draws) (p : Prim) (s : State) (c : WriteCycle), preCheck p s = none → s.busy = some c →
    InputsChange D p s → actNow D p s = raise (.writeCycleViolation c) s

/-- R59, R160 and R110: while WE_n is low and stays low, a primitive that changes A, OE_n or the controller's drive of the data lines
raises WriteSignalsUnstable (code 8) and has no effect. R160 gives "the changed input" as info; that the info is the list of all
that changed is the model's form (notes/assumptions/13.md). -/
def Obligations.PulseSignalsAreStable : Prop :=
  ∀ (D : Draws) (p : Prim) (s : State), preCheck p s = none → s.busy = none → s.weN = .lo →
    (effect D p s).weN = .lo → InputsChange D p s →
    ∃ l, l ≠ [] ∧ actNow D p s = raise (.writeSignalsUnstable l) s ∧
      (.address ∈ l ↔ (effect D p s).addr ≠ s.addr ∨
        (p = .setRclk true ∧ s.rclk = .lo ∧ (s.addr = none ∨ (effect D p s).addr = none))) ∧
      (.outputEnable ∈ l ↔ (effect D p s).oeN ≠ s.oeN ∨
        (p = .setRclk true ∧ s.rclk = .lo ∧ (s.oeN = none ∨ (effect D p s).oeN = none))) ∧
      (.dataBus ∈ l ↔ (effect D p s).busC ≠ s.busC)

/-- R57: a WE_n falling edge while OE_n is not 1 or A is not known raises WriteSelectInvalid (code 9) with both as info; otherwise the
EEPROM records the time of the edge. -/
def Obligations.FallingEdgeChecksSelection : Prop :=
  ∀ (D : Draws) (s : State), s.DelayOver → s.phase ≠ .uninit → s.busy = none → s.weN = .hi →
    (s.oeN ≠ some true ∨ s.addr = none →
      primStep D (.setWe false) s = raise (.writeSelectInvalid s.addr s.oeN) (elapse D s)) ∧
    (s.oeN = some true → s.addr ≠ none →
      primStep D (.setWe false) s = { elapse D s with weN := .lo, weFall := some (elapse D s).now })

/-- R58: a WE_n rising edge less than `T_WP_MIN` after the falling edge raises WePulseTooShort (code 10) with the time WE_n was low;
otherwise the byte on the data bus is latched into a write cycle that ends `T_WC` later. -/
def Obligations.RisingEdgeChecksThePulse : Prop :=
  ∀ (D : Draws) (s : State) (tf : Nat) (a : Addr), s.DelayOver → s.phase ≠ .uninit → s.busy = none → s.weN = .lo →
    s.weFall = some tf → s.addr = some a → s.contention = false →
    ((elapse D s).now - tf < s.params.tWpMin →
      primStep D (.setWe true) s = raise (.wePulseTooShort ((elapse D s).now - tf)) (elapse D s)) ∧
    (s.params.tWpMin ≤ (elapse D s).now - tf →
      ∃ v, (primStep D (.setWe true) s).busy = some ⟨a, v, (elapse D s).now + s.params.tWc⟩ ∧
        (primStep D (.setWe true) s).weFall = none ∧ (primStep D (.setWe true) s).fault = s.fault ∧
        (s.dataDir = .output → ∀ u, s.dataOut = some u → v = u))

/-- R111: after every committed step, data pins that are outputs while the EEPROM may drive raise BusContention (code 11), the
effect kept. An operation that ends without a fault leaves no contention. -/
def Obligations.ContentionIsDetected : Prop :=
  (∀ (D : Draws) (p : Prim) (s t : State), preCheck p s = none →
    eepromCheck D (rclkRose s (effect D p s)) (eeInputs s) (eeInputs (effect D p s)) (effect D p s) = .ok t →
    (t.dataDir = .output → t.oeN ≠ some true → actNow D p s = raise (.busContention t.addr t.oeN) t) ∧
    (t.dataDir = .input ∨ t.oeN = some true → actNow D p s = t)) ∧
  (∀ (i : Instr) (s t : State), s.contention = false → exec i s = .next t → t.fault = none → t.contention = false)

/-! ### The driver -/

/-- R121: SEND from low clocks leaves the word in both stages, SER at `w[0]`, both clocks low, one operation further, and nothing
else changed but time, an open write cycle, which stays or ends with its byte in its cell, and, if A or OE_n changed, `ee.tSel`. It
completes when A and OE_n do not change or may change, and the data pins do not meet an enabled EEPROM. -/
def Obligations.SendLatchesTheWord : Prop :=
  ∀ (w : SrWord) (s : State), s.Live → s.DelayOver → s.contention = false → s.srclk = .lo → s.rclk = .lo →
    (selects s (wordStage w) = true → s.Steady) → (s.dataDir = .output → w.getLsbD 11 = true) →
    ∃ t, exec (.send w) s = .next t ∧
      t = { s with
        ser := Level.ofBool (w.getLsbD 0), shift := wordStage w, store := wordStage w, pc := s.pc + 1, micro := 0,
        tSel := t.tSel, now := t.now, draws := t.draws, busy := t.busy, cells := t.cells } ∧
      t.addr = some (w.setWidth 11) ∧ t.oeN = some (w.getLsbD 11) ∧
      s.now ≤ t.now ∧ CycleStaysOrEnds s t ∧
      (selects s (wordStage w) = false → t.tSel = s.tSel) ∧
      (selects s (wordStage w) = true → s.now ≤ t.tSel ∧ t.tSel ≤ t.now) ∧
      (∀ a, (∀ c, s.busy = some c → c.addr ≠ a) → t.cell a = s.cell a)

/-- R124: `send` is applied literally. Entered with SRCLK high it loses `w[15]` and keeps the old position 0 in position 15; entered
with RCLK high it latches nothing. It leaves both clocks low. -/
def Obligations.SendIsLiteralAboutEntryLevels : Prop :=
  ∀ (w : SrWord) (s : State), s.Live → s.DelayOver → s.contention = false →
    (s.srclk = .hi → s.rclk = .lo → s.Steady → (s.dataDir = .output → w.getLsbD 11 = true) →
      ∃ t, exec (.send w) s = .next t ∧ t.fault = none ∧ (∀ (i : Nat) (h : i < 15), t.shift[i] = some (w.getLsbD i)) ∧
        t.shift[15] = s.shift[0] ∧ t.store = t.shift ∧ t.srclk = .lo ∧ t.rclk = .lo) ∧
    (s.srclk = .lo → s.rclk = .hi →
      ∃ t, exec (.send w) s = .next t ∧ t.fault = none ∧ t.store = s.store ∧ t.shift = wordStage w ∧ t.srclk = .lo ∧
        t.rclk = .lo)

/-- R121 and R125: a SEND that would enable the EEPROM while the data pins are outputs raises BusContention at its latch edge, its
49th primitive, with the word latched and RCLK left high; the operation index stays. -/
def Obligations.SendStopsAtContention : Prop :=
  ∀ (w : SrWord) (s : State), s.Live → s.DelayOver → s.srclk = .lo → s.rclk = .lo → s.Steady → s.dataDir = .output →
    s.oeN = some true → w.getLsbD 11 = false →
    ∃ t, exec (.send w) s = .next t ∧ t.fault = some (.busContention (some (w.setWidth 11)) (some false)) ∧
      t.store = wordStage w ∧ t.rclk = .hi ∧ t.micro = 48 ∧ t.pc = s.pc ∧ t.dataOut = s.dataOut ∧ t.cells = s.cells

/-! ### The transactor -/

/-- R134: an address argument above 2047 raises RangeError (code 3) with the offending value before any primitive: no time passes and
nothing else changes. `dumpRange` checks `f` before `u`. -/
def Obligations.AddressesAboveTheRangeAreRefused : Prop :=
  ∀ s : State, s.Live →
    (∀ (o : Bool) (a : BitVec 16), 2047 < a.toNat →
      exec (.select o a) s = .next { s with fault := some (.rangeError a.toNat) }) ∧
    (∀ (v : Byte) (a : BitVec 16), 2047 < a.toNat →
      exec (.writeByte v a) s = .next { s with fault := some (.rangeError a.toNat) }) ∧
    (∀ a : BitVec 16, 2047 < a.toNat → exec (.readByte a) s = .next { s with fault := some (.rangeError a.toNat) }) ∧
    (∀ f u : BitVec 12, 2047 < f.toNat →
      exec (.dumpRange f u) s = .next { s with fault := some (.rangeError f.toNat) }) ∧
    (∀ f u : BitVec 12, f.toNat ≤ 2047 → 2047 < u.toNat →
      exec (.dumpRange f u) s = .next { s with fault := some (.rangeError u.toNat) })

/-- R133: SELECT of an address in range puts the address on A and the inverted flag on OE_n, ends Idle, and changes nothing else but
SER, the stages, time, `ee.tSel` and an open write cycle, which stays or ends with its byte in its cell. -/
def Obligations.SelectPresentsTheAddress : Prop :=
  ∀ (o : Bool) (a : BitVec 16) (s : State), a.toNat ≤ 2047 → s.Live → s.DelayOver → s.contention = false →
    s.srclk = .lo → s.rclk = .lo → (selects s (wordStage (packWord a o)) = true → s.Steady) →
    (s.dataDir = .output → o = false) →
    ∃ t, exec (.select o a) s = .next t ∧ t.addr = some (a.setWidth 11) ∧ t.oeN = some !o ∧
      t = { s with
        ser := t.ser, shift := wordStage (packWord a o), store := wordStage (packWord a o), phase := .idle,
        pc := s.pc + 1, micro := 0, tSel := t.tSel, now := t.now, draws := t.draws, busy := t.busy, cells := t.cells } ∧
      CycleStaysOrEnds s t ∧ (∀ b, (∀ c, s.busy = some c → c.addr ≠ b) → t.cell b = s.cell b)

/-- R136, R137 and R138: WRITE_BYTE from a state a transaction left stores `pinLevels(v)` in cell `a` and in no other. WE_n falls at
`tf`, in the state `u` after the opening of the expansion, with the address, OE_n 1 and the driven byte in place; it rises at `tr`, at
least `T_WE_PULSE` after `tf`; the operation ends at least `T_WRITE_DELAY` after `tr`, the pins driving, OE_n 1 and A = `a`.
If the part's write cycle outlasts the delay the operation completes with the cycle still open. -/
def Obligations.WriteByteStoresTheByte : Prop :=
  ∀ (v : Byte) (a : BitVec 16) (s : State), a.toNat ≤ 2047 → s.Ready → s.params.tWpMin ≤ s.params.tWePulse →
    ∃ (t u : State) (tf tr : Nat), exec (.writeByte v a) s = .next t ∧ t.fault = none ∧ t.pc = s.pc + 1 ∧ t.micro = 0 ∧
      t.phase = .idle ∧
      t.dataDir = .output ∧ t.dataOut = some (pinLevels s.params.pinForBit v) ∧ t.weN = .hi ∧ t.weFall = none ∧
      t.addr = some (a.setWidth 11) ∧ t.oeN = some true ∧ t.srclk = .lo ∧ t.rclk = .lo ∧
      t.out = s.out ∧ t.params = s.params ∧ t.program = s.program ∧ t.sampled = s.sampled ∧
      u = runMicros Config.draws (writeByteOpening s.params a v) { s with micro := 0 } ∧
      t = completeMacro .idle (runMicros Config.draws (writeBytePulse s.params) u) ∧
      u.fault = none ∧ u.weN = .lo ∧ u.weFall = some tf ∧ u.now = tf ∧ u.addr = some (a.setWidth 11) ∧ u.oeN = some true ∧
      u.dataDir = .output ∧ u.dataOut = some (pinLevels s.params.pinForBit v) ∧
      s.now ≤ tf ∧ tf + s.params.tWePulse ≤ tr ∧ t.lastWeRise = some tr ∧ tr + s.params.tWriteDelay ≤ t.now ∧
      (∀ b, b ≠ a.setWidth 11 → t.cell b = s.cell b) ∧
      (s.params.tWc ≤ s.params.tWriteDelay →
        t.Ready ∧ t.busy = none ∧ t.cell (a.setWidth 11) = pinLevels s.params.pinForBit v)

/-- R140: READ_BYTE from a state a transaction left appends `byte(a, v)`, with `v` the unpacked byte of the cell when an EEPROM is
connected and `T_ACC <= T_READ_SETTLE` (some byte otherwise), and ends with the data pins inputs, OE_n 0 and A = `a`. -/
def Obligations.ReadByteReturnsTheCell : Prop :=
  ∀ (a : BitVec 16) (s : State), a.toNat ≤ 2047 → s.Ready →
    ∃ (t : State) (v : Byte), exec (.readByte a) s = .next t ∧ t.Ready ∧ t.pc = s.pc + 1 ∧
      t.out = s.out ++ [.byte (a.setWidth 11) v] ∧ t.dataDir = .input ∧ t.dataOut = s.dataOut ∧
      t.addr = some (a.setWidth 11) ∧ t.oeN = some false ∧ t.cells = s.cells ∧ t.lastWeRise = s.lastWeRise ∧
      t.params = s.params ∧ t.program = s.program ∧ t.sampled = 0#8 ∧
      (s.params.connected = true → s.params.tAcc ≤ s.params.tReadSettle →
        v = unpack s.params.pinForBit (s.cell (a.setWidth 11)))

/-- R143: DUMP_RANGE from a state a transaction left appends one `byte` per address of the range in ascending order, `u` included when
`DUMP_INCLUSIVE`, with the cells' unpacked bytes under the premise of R140. -/
def Obligations.DumpRangeReturnsTheCells : Prop :=
  ∀ (f u : BitVec 12) (s : State), f.toNat ≤ 2047 → u.toNat ≤ 2047 → s.Ready →
    ∃ (t : State) (g : Nat → Byte), exec (.dumpRange f u) s = .next t ∧ t.Ready ∧ t.pc = s.pc + 1 ∧
      t.cells = s.cells ∧ t.params = s.params ∧ t.program = s.program ∧
      t.out = s.out ++ (dumpAddresses s.params.dumpInclusive f.toNat u.toNat).map
        (fun n => .byte (BitVec.ofNat 11 n) (g n)) ∧
      (s.params.connected = true → s.params.tAcc ≤ s.params.tReadSettle →
        ∀ n ∈ dumpAddresses s.params.dumpInclusive f.toNat u.toNat,
          g n = unpack s.params.pinForBit (s.cell (BitVec.ofNat 11 n)))

/-- R143: an empty range reads nothing, makes no pin activity and takes no time, from every state in which operations run. The range
holds exactly the addresses from `f` to `u`, or to `u - 1` when `DUMP_INCLUSIVE` is false, each once and in ascending order. -/
def Obligations.EmptyDumpsDoNothing : Prop :=
  (∀ (f u : BitVec 12) (s : State), f.toNat ≤ 2047 → u.toNat ≤ 2047 → s.Live →
    (u.toNat < f.toNat ∨ (u.toNat = f.toNat ∧ s.params.dumpInclusive = false)) →
    exec (.dumpRange f u) s = .next { s with phase := .idle, micro := 0, pc := s.pc + 1 }) ∧
  (∀ (f u n : Nat), n ∈ dumpAddresses true f u ↔ f ≤ n ∧ n ≤ u) ∧
  (∀ (f u n : Nat), n ∈ dumpAddresses false f u ↔ f ≤ n ∧ n < u) ∧
  (∀ (inclusive : Bool) (f u : Nat), (dumpAddresses inclusive f u).Pairwise (· < ·))

/-- R71: under the premises of R9 and with an EEPROM connected, `writeByte(a, v)` then `readByte(a)` returns `v`, for every
address and byte, without a fault. -/
def Obligations.RoundTrip : Prop :=
  ∀ (v : Byte) (a : BitVec 16) (s : State), a.toNat ≤ 2047 → s.Ready → s.params.Premises → s.params.connected = true →
    ∃ t u, exec (.writeByte v a) s = .next t ∧ exec (.readByte a) t = .next u ∧ u.fault = none ∧
      u.out = s.out ++ [.byte (a.setWidth 11) v]

/-- R64: a write leaves what a read of another cell returns as it was. -/
def Obligations.WritesDoNotReachOtherCells : Prop :=
  ∀ (v : Byte) (a b : BitVec 16) (s : State), a.toNat ≤ 2047 → b.toNat ≤ 2047 → a ≠ b → s.Ready → s.params.Premises →
    s.params.connected = true →
    ∃ t u, exec (.writeByte v a) s = .next t ∧ exec (.readByte b) t = .next u ∧ u.fault = none ∧
      u.out = s.out ++ [.byte (b.setWidth 11) (unpack s.params.pinForBit (s.cell (b.setWidth 11)))]

/-- R144: from a state that INIT or a transaction left, every transaction with arguments in range completes without a fault under the
premises of R9 and leaves such a state again. -/
def Obligations.TransactionsKeepReady : Prop :=
  ∀ (i : Instr) (s : State), i.transaction = true → s.Ready → s.params.Premises →
    ∃ t, exec i s = .next t ∧ t.Ready ∧ t.fault = none ∧ t.params = s.params ∧ t.program = s.program

/-- R180 and R144: INIT, from every legal state in which it has not run, leaves a state transactions run from. -/
def Obligations.InitMakesReady : Prop :=
  ∀ s : State, s.Legal → s.fault = none → s.phase = .uninit → ∃ t, exec .init s = .next t ∧ t.Ready

/-! ### Frames -/

/-- R97 and the "State written" entries of R98 to R143: whatever an operation does, also when it faults, it writes only the parts of
the state its rule names, time, the operation index and the fault; an open write cycle stays or ends. -/
def Obligations.OperationsWriteOnlyTheirParts : Prop :=
  ∀ (i : Instr) (s t : State), exec i s = .next t →
    (.ser ∉ i.writes → t.ser = s.ser) ∧ (.srclk ∉ i.writes → t.srclk = s.srclk) ∧
    (.shift ∉ i.writes → t.shift = s.shift) ∧ (.rclk ∉ i.writes → t.rclk = s.rclk) ∧
    (.selection ∉ i.writes → t.store = s.store ∧ t.tSel = s.tSel) ∧
    (.we ∉ i.writes → t.weN = s.weN ∧ t.weFall = s.weFall ∧ t.lastWeRise = s.lastWeRise ∧
      (t.busy = s.busy ∨ t.busy = none)) ∧
    (.dataDir ∉ i.writes → t.dataDir = s.dataDir) ∧ (.dataOut ∉ i.writes → t.dataOut = s.dataOut) ∧
    (.phase ∉ i.writes → t.phase = s.phase) ∧ (.results ∉ i.writes → t.out = s.out ∧ t.sampled = s.sampled) ∧
    t.params = s.params ∧ t.program = s.program

/-- R51, R60, R97 and R124: no operation changes a cell but the one whose write cycle was open before it and, for WRITE_BYTE, the
one its pulse addresses: cell `a` when it is entered with RCLK low, else, since nothing is latched, the cell A addressed before. -/
def Obligations.CellsChangeOnlyByWriteCycles : Prop :=
  ∀ (i : Instr) (s t : State) (b : Addr), exec i s = .next t → (∀ c, s.busy = some c → c.addr ≠ b) →
    (∀ v a, i = .writeByte v a → (s.rclk = .lo → a.setWidth 11 ≠ b) ∧ (s.rclk ≠ .lo → s.addr ≠ some b)) →
    t.cell b = s.cell b

/-! ### The fault table -/

/-- R152: the code of each fault, whatever its info, and no fault has another code. -/
def Obligations.FaultCodesAreTheTable : Prop :=
  (∀ cw, (Raised.illegalCommand cw).code = 1) ∧ (∀ i, (Raised.notInitialised i).code = 2) ∧
  (∀ n, (Raised.rangeError n).code = 3) ∧ (∀ n, (Raised.writeDelayViolation n).code = 4) ∧
  (∀ p, (Raised.wrongPinRole p).code = 5) ∧ (∀ k, (Raised.readWhileDriving k).code = 6) ∧
  (∀ c, (Raised.writeCycleViolation c).code = 7) ∧ (∀ l, (Raised.writeSignalsUnstable l).code = 8) ∧
  (∀ a o, (Raised.writeSelectInvalid a o).code = 9) ∧ (∀ n, (Raised.wePulseTooShort n).code = 10) ∧
  (∀ a o, (Raised.busContention a o).code = 11) ∧ ∀ f : Raised, 1 ≤ f.code ∧ f.code ≤ 11
end

