-- ==== Sys2Proof/Laws/State.lean ====
section
/-! SUPPORT. One lemma per field per named update of the state, so that no later proof unfolds a record update. The values an
update gives are stated beside the fields it leaves alone. -/

namespace Sys2Proof.Machine

/-! ### raise -/

@[simp] theorem raise_ser (f : Raised) (s : State) : (raise f s).ser = s.ser := rfl
@[simp] theorem raise_srclk (f : Raised) (s : State) : (raise f s).srclk = s.srclk := rfl
@[simp] theorem raise_rclk (f : Raised) (s : State) : (raise f s).rclk = s.rclk := rfl
@[simp] theorem raise_weN (f : Raised) (s : State) : (raise f s).weN = s.weN := rfl
@[simp] theorem raise_dataDir (f : Raised) (s : State) : (raise f s).dataDir = s.dataDir := rfl
@[simp] theorem raise_dataOut (f : Raised) (s : State) : (raise f s).dataOut = s.dataOut := rfl
@[simp] theorem raise_phase (f : Raised) (s : State) : (raise f s).phase = s.phase := rfl
@[simp] theorem raise_pc (f : Raised) (s : State) : (raise f s).pc = s.pc := rfl
@[simp] theorem raise_micro (f : Raised) (s : State) : (raise f s).micro = s.micro := rfl
@[simp] theorem raise_fault (f : Raised) (s : State) : (raise f s).fault = s.fault.or (some f) := rfl
@[simp] theorem raise_lastWeRise (f : Raised) (s : State) : (raise f s).lastWeRise = s.lastWeRise := rfl
@[simp] theorem raise_out (f : Raised) (s : State) : (raise f s).out = s.out := rfl
@[simp] theorem raise_shift (f : Raised) (s : State) : (raise f s).shift = s.shift := rfl
@[simp] theorem raise_store (f : Raised) (s : State) : (raise f s).store = s.store := rfl
@[simp] theorem raise_cells (f : Raised) (s : State) : (raise f s).cells = s.cells := rfl
@[simp] theorem raise_busy (f : Raised) (s : State) : (raise f s).busy = s.busy := rfl
@[simp] theorem raise_weFall (f : Raised) (s : State) : (raise f s).weFall = s.weFall := rfl
@[simp] theorem raise_tSel (f : Raised) (s : State) : (raise f s).tSel = s.tSel := rfl
@[simp] theorem raise_now (f : Raised) (s : State) : (raise f s).now = s.now := rfl
@[simp] theorem raise_program (f : Raised) (s : State) : (raise f s).program = s.program := rfl
@[simp] theorem raise_params (f : Raised) (s : State) : (raise f s).params = s.params := rfl
@[simp] theorem raise_draws (f : Raised) (s : State) : (raise f s).draws = s.draws := rfl
@[simp] theorem raise_sampled (f : Raised) (s : State) : (raise f s).sampled = s.sampled := rfl

/-! ### drew -/

@[simp] theorem drew_ser (s : State) : (drew s).ser = s.ser := rfl
@[simp] theorem drew_srclk (s : State) : (drew s).srclk = s.srclk := rfl
@[simp] theorem drew_rclk (s : State) : (drew s).rclk = s.rclk := rfl
@[simp] theorem drew_weN (s : State) : (drew s).weN = s.weN := rfl
@[simp] theorem drew_dataDir (s : State) : (drew s).dataDir = s.dataDir := rfl
@[simp] theorem drew_dataOut (s : State) : (drew s).dataOut = s.dataOut := rfl
@[simp] theorem drew_phase (s : State) : (drew s).phase = s.phase := rfl
@[simp] theorem drew_pc (s : State) : (drew s).pc = s.pc := rfl
@[simp] theorem drew_micro (s : State) : (drew s).micro = s.micro := rfl
@[simp] theorem drew_fault (s : State) : (drew s).fault = s.fault := rfl
@[simp] theorem drew_lastWeRise (s : State) : (drew s).lastWeRise = s.lastWeRise := rfl
@[simp] theorem drew_out (s : State) : (drew s).out = s.out := rfl
@[simp] theorem drew_shift (s : State) : (drew s).shift = s.shift := rfl
@[simp] theorem drew_store (s : State) : (drew s).store = s.store := rfl
@[simp] theorem drew_cells (s : State) : (drew s).cells = s.cells := rfl
@[simp] theorem drew_busy (s : State) : (drew s).busy = s.busy := rfl
@[simp] theorem drew_weFall (s : State) : (drew s).weFall = s.weFall := rfl
@[simp] theorem drew_tSel (s : State) : (drew s).tSel = s.tSel := rfl
@[simp] theorem drew_now (s : State) : (drew s).now = s.now := rfl
@[simp] theorem drew_program (s : State) : (drew s).program = s.program := rfl
@[simp] theorem drew_params (s : State) : (drew s).params = s.params := rfl
@[simp] theorem drew_draws (s : State) : (drew s).draws = s.draws + 1 := rfl
@[simp] theorem drew_sampled (s : State) : (drew s).sampled = s.sampled := rfl

/-! ### shiftEdge -/

@[simp] theorem shiftEdge_ser (s : State) : (shiftEdge s).ser = s.ser := rfl
@[simp] theorem shiftEdge_srclk (s : State) : (shiftEdge s).srclk = s.srclk := rfl
@[simp] theorem shiftEdge_rclk (s : State) : (shiftEdge s).rclk = s.rclk := rfl
@[simp] theorem shiftEdge_weN (s : State) : (shiftEdge s).weN = s.weN := rfl
@[simp] theorem shiftEdge_dataDir (s : State) : (shiftEdge s).dataDir = s.dataDir := rfl
@[simp] theorem shiftEdge_dataOut (s : State) : (shiftEdge s).dataOut = s.dataOut := rfl
@[simp] theorem shiftEdge_phase (s : State) : (shiftEdge s).phase = s.phase := rfl
@[simp] theorem shiftEdge_pc (s : State) : (shiftEdge s).pc = s.pc := rfl
@[simp] theorem shiftEdge_micro (s : State) : (shiftEdge s).micro = s.micro := rfl
@[simp] theorem shiftEdge_fault (s : State) : (shiftEdge s).fault = s.fault := rfl
@[simp] theorem shiftEdge_lastWeRise (s : State) : (shiftEdge s).lastWeRise = s.lastWeRise := rfl
@[simp] theorem shiftEdge_out (s : State) : (shiftEdge s).out = s.out := rfl
@[simp] theorem shiftEdge_shift (s : State) : (shiftEdge s).shift = shiftIn s.ser.bit? s.shift := rfl
@[simp] theorem shiftEdge_store (s : State) : (shiftEdge s).store = s.store := rfl
@[simp] theorem shiftEdge_cells (s : State) : (shiftEdge s).cells = s.cells := rfl
@[simp] theorem shiftEdge_busy (s : State) : (shiftEdge s).busy = s.busy := rfl
@[simp] theorem shiftEdge_weFall (s : State) : (shiftEdge s).weFall = s.weFall := rfl
@[simp] theorem shiftEdge_tSel (s : State) : (shiftEdge s).tSel = s.tSel := rfl
@[simp] theorem shiftEdge_now (s : State) : (shiftEdge s).now = s.now := rfl
@[simp] theorem shiftEdge_program (s : State) : (shiftEdge s).program = s.program := rfl
@[simp] theorem shiftEdge_params (s : State) : (shiftEdge s).params = s.params := rfl
@[simp] theorem shiftEdge_draws (s : State) : (shiftEdge s).draws = s.draws := rfl
@[simp] theorem shiftEdge_sampled (s : State) : (shiftEdge s).sampled = s.sampled := rfl

/-! ### latchEdge -/

@[simp] theorem latchEdge_ser (s : State) : (latchEdge s).ser = s.ser := rfl
@[simp] theorem latchEdge_srclk (s : State) : (latchEdge s).srclk = s.srclk := rfl
@[simp] theorem latchEdge_rclk (s : State) : (latchEdge s).rclk = s.rclk := rfl
@[simp] theorem latchEdge_weN (s : State) : (latchEdge s).weN = s.weN := rfl
@[simp] theorem latchEdge_dataDir (s : State) : (latchEdge s).dataDir = s.dataDir := rfl
@[simp] theorem latchEdge_dataOut (s : State) : (latchEdge s).dataOut = s.dataOut := rfl
@[simp] theorem latchEdge_phase (s : State) : (latchEdge s).phase = s.phase := rfl
@[simp] theorem latchEdge_pc (s : State) : (latchEdge s).pc = s.pc := rfl
@[simp] theorem latchEdge_micro (s : State) : (latchEdge s).micro = s.micro := rfl
@[simp] theorem latchEdge_fault (s : State) : (latchEdge s).fault = s.fault := rfl
@[simp] theorem latchEdge_lastWeRise (s : State) : (latchEdge s).lastWeRise = s.lastWeRise := rfl
@[simp] theorem latchEdge_out (s : State) : (latchEdge s).out = s.out := rfl
@[simp] theorem latchEdge_shift (s : State) : (latchEdge s).shift = s.shift := rfl
@[simp] theorem latchEdge_store (s : State) : (latchEdge s).store = s.shift := rfl
@[simp] theorem latchEdge_cells (s : State) : (latchEdge s).cells = s.cells := rfl
@[simp] theorem latchEdge_busy (s : State) : (latchEdge s).busy = s.busy := rfl
@[simp] theorem latchEdge_weFall (s : State) : (latchEdge s).weFall = s.weFall := rfl
@[simp] theorem latchEdge_tSel (s : State) : (latchEdge s).tSel = s.tSel := rfl
@[simp] theorem latchEdge_now (s : State) : (latchEdge s).now = s.now := rfl
@[simp] theorem latchEdge_program (s : State) : (latchEdge s).program = s.program := rfl
@[simp] theorem latchEdge_params (s : State) : (latchEdge s).params = s.params := rfl
@[simp] theorem latchEdge_draws (s : State) : (latchEdge s).draws = s.draws := rfl
@[simp] theorem latchEdge_sampled (s : State) : (latchEdge s).sampled = s.sampled := rfl

/-! ### openCycle -/

@[simp] theorem openCycle_ser (a : Addr) (v : Byte) (s : State) : (openCycle a v s).ser = s.ser := rfl
@[simp] theorem openCycle_srclk (a : Addr) (v : Byte) (s : State) : (openCycle a v s).srclk = s.srclk := rfl
@[simp] theorem openCycle_rclk (a : Addr) (v : Byte) (s : State) : (openCycle a v s).rclk = s.rclk := rfl
@[simp] theorem openCycle_weN (a : Addr) (v : Byte) (s : State) : (openCycle a v s).weN = s.weN := rfl
@[simp] theorem openCycle_dataDir (a : Addr) (v : Byte) (s : State) : (openCycle a v s).dataDir = s.dataDir := rfl
@[simp] theorem openCycle_dataOut (a : Addr) (v : Byte) (s : State) : (openCycle a v s).dataOut = s.dataOut := rfl
@[simp] theorem openCycle_phase (a : Addr) (v : Byte) (s : State) : (openCycle a v s).phase = s.phase := rfl
@[simp] theorem openCycle_pc (a : Addr) (v : Byte) (s : State) : (openCycle a v s).pc = s.pc := rfl
@[simp] theorem openCycle_micro (a : Addr) (v : Byte) (s : State) : (openCycle a v s).micro = s.micro := rfl
@[simp] theorem openCycle_fault (a : Addr) (v : Byte) (s : State) : (openCycle a v s).fault = s.fault := rfl
@[simp] theorem openCycle_lastWeRise (a : Addr) (v : Byte) (s : State) : (openCycle a v s).lastWeRise = s.lastWeRise := rfl
@[simp] theorem openCycle_out (a : Addr) (v : Byte) (s : State) : (openCycle a v s).out = s.out := rfl
@[simp] theorem openCycle_shift (a : Addr) (v : Byte) (s : State) : (openCycle a v s).shift = s.shift := rfl
@[simp] theorem openCycle_store (a : Addr) (v : Byte) (s : State) : (openCycle a v s).store = s.store := rfl
@[simp] theorem openCycle_cells (a : Addr) (v : Byte) (s : State) : (openCycle a v s).cells = s.cells := rfl
@[simp] theorem openCycle_busy (a : Addr) (v : Byte) (s : State) : (openCycle a v s).busy = some ⟨a, v, s.now + s.params.tWc⟩ := rfl
@[simp] theorem openCycle_weFall (a : Addr) (v : Byte) (s : State) : (openCycle a v s).weFall = none := rfl
@[simp] theorem openCycle_tSel (a : Addr) (v : Byte) (s : State) : (openCycle a v s).tSel = s.tSel := rfl
@[simp] theorem openCycle_now (a : Addr) (v : Byte) (s : State) : (openCycle a v s).now = s.now := rfl
@[simp] theorem openCycle_program (a : Addr) (v : Byte) (s : State) : (openCycle a v s).program = s.program := rfl
@[simp] theorem openCycle_params (a : Addr) (v : Byte) (s : State) : (openCycle a v s).params = s.params := rfl
@[simp] theorem openCycle_draws (a : Addr) (v : Byte) (s : State) : (openCycle a v s).draws = s.draws := rfl
@[simp] theorem openCycle_sampled (a : Addr) (v : Byte) (s : State) : (openCycle a v s).sampled = s.sampled := rfl

/-! ### driveSer -/

@[simp] theorem driveSer_ser (l : Bool) (s : State) : (driveSer l s).ser = Level.ofBool l := rfl
@[simp] theorem driveSer_srclk (l : Bool) (s : State) : (driveSer l s).srclk = s.srclk := rfl
@[simp] theorem driveSer_rclk (l : Bool) (s : State) : (driveSer l s).rclk = s.rclk := rfl
@[simp] theorem driveSer_weN (l : Bool) (s : State) : (driveSer l s).weN = s.weN := rfl
@[simp] theorem driveSer_dataDir (l : Bool) (s : State) : (driveSer l s).dataDir = s.dataDir := rfl
@[simp] theorem driveSer_dataOut (l : Bool) (s : State) : (driveSer l s).dataOut = s.dataOut := rfl
@[simp] theorem driveSer_phase (l : Bool) (s : State) : (driveSer l s).phase = s.phase := rfl
@[simp] theorem driveSer_pc (l : Bool) (s : State) : (driveSer l s).pc = s.pc := rfl
@[simp] theorem driveSer_micro (l : Bool) (s : State) : (driveSer l s).micro = s.micro := rfl
@[simp] theorem driveSer_fault (l : Bool) (s : State) : (driveSer l s).fault = s.fault := rfl
@[simp] theorem driveSer_lastWeRise (l : Bool) (s : State) : (driveSer l s).lastWeRise = s.lastWeRise := rfl
@[simp] theorem driveSer_out (l : Bool) (s : State) : (driveSer l s).out = s.out := rfl
@[simp] theorem driveSer_shift (l : Bool) (s : State) : (driveSer l s).shift = s.shift := rfl
@[simp] theorem driveSer_store (l : Bool) (s : State) : (driveSer l s).store = s.store := rfl
@[simp] theorem driveSer_cells (l : Bool) (s : State) : (driveSer l s).cells = s.cells := rfl
@[simp] theorem driveSer_busy (l : Bool) (s : State) : (driveSer l s).busy = s.busy := rfl
@[simp] theorem driveSer_weFall (l : Bool) (s : State) : (driveSer l s).weFall = s.weFall := rfl
@[simp] theorem driveSer_tSel (l : Bool) (s : State) : (driveSer l s).tSel = s.tSel := rfl
@[simp] theorem driveSer_now (l : Bool) (s : State) : (driveSer l s).now = s.now := rfl
@[simp] theorem driveSer_program (l : Bool) (s : State) : (driveSer l s).program = s.program := rfl
@[simp] theorem driveSer_params (l : Bool) (s : State) : (driveSer l s).params = s.params := rfl
@[simp] theorem driveSer_draws (l : Bool) (s : State) : (driveSer l s).draws = s.draws := rfl
@[simp] theorem driveSer_sampled (l : Bool) (s : State) : (driveSer l s).sampled = s.sampled := rfl

/-! ### driveDir -/

@[simp] theorem driveDir_ser (d : Dir) (s : State) : (driveDir d s).ser = s.ser := rfl
@[simp] theorem driveDir_srclk (d : Dir) (s : State) : (driveDir d s).srclk = s.srclk := rfl
@[simp] theorem driveDir_rclk (d : Dir) (s : State) : (driveDir d s).rclk = s.rclk := rfl
@[simp] theorem driveDir_weN (d : Dir) (s : State) : (driveDir d s).weN = s.weN := rfl
@[simp] theorem driveDir_dataDir (d : Dir) (s : State) : (driveDir d s).dataDir = d := rfl
@[simp] theorem driveDir_dataOut (d : Dir) (s : State) : (driveDir d s).dataOut = s.dataOut := rfl
@[simp] theorem driveDir_phase (d : Dir) (s : State) : (driveDir d s).phase = s.phase := rfl
@[simp] theorem driveDir_pc (d : Dir) (s : State) : (driveDir d s).pc = s.pc := rfl
@[simp] theorem driveDir_micro (d : Dir) (s : State) : (driveDir d s).micro = s.micro := rfl
@[simp] theorem driveDir_fault (d : Dir) (s : State) : (driveDir d s).fault = s.fault := rfl
@[simp] theorem driveDir_lastWeRise (d : Dir) (s : State) : (driveDir d s).lastWeRise = s.lastWeRise := rfl
@[simp] theorem driveDir_out (d : Dir) (s : State) : (driveDir d s).out = s.out := rfl
@[simp] theorem driveDir_shift (d : Dir) (s : State) : (driveDir d s).shift = s.shift := rfl
@[simp] theorem driveDir_store (d : Dir) (s : State) : (driveDir d s).store = s.store := rfl
@[simp] theorem driveDir_cells (d : Dir) (s : State) : (driveDir d s).cells = s.cells := rfl
@[simp] theorem driveDir_busy (d : Dir) (s : State) : (driveDir d s).busy = s.busy := rfl
@[simp] theorem driveDir_weFall (d : Dir) (s : State) : (driveDir d s).weFall = s.weFall := rfl
@[simp] theorem driveDir_tSel (d : Dir) (s : State) : (driveDir d s).tSel = s.tSel := rfl
@[simp] theorem driveDir_now (d : Dir) (s : State) : (driveDir d s).now = s.now := rfl
@[simp] theorem driveDir_program (d : Dir) (s : State) : (driveDir d s).program = s.program := rfl
@[simp] theorem driveDir_params (d : Dir) (s : State) : (driveDir d s).params = s.params := rfl
@[simp] theorem driveDir_draws (d : Dir) (s : State) : (driveDir d s).draws = s.draws := rfl
@[simp] theorem driveDir_sampled (d : Dir) (s : State) : (driveDir d s).sampled = s.sampled := rfl

/-! ### driveDataPin -/

@[simp] theorem driveDataPin_ser (k : Fin 8) (l : Bool) (s : State) : (driveDataPin k l s).ser = s.ser := rfl
@[simp] theorem driveDataPin_srclk (k : Fin 8) (l : Bool) (s : State) : (driveDataPin k l s).srclk = s.srclk := rfl
@[simp] theorem driveDataPin_rclk (k : Fin 8) (l : Bool) (s : State) : (driveDataPin k l s).rclk = s.rclk := rfl
@[simp] theorem driveDataPin_weN (k : Fin 8) (l : Bool) (s : State) : (driveDataPin k l s).weN = s.weN := rfl
@[simp] theorem driveDataPin_dataDir (k : Fin 8) (l : Bool) (s : State) : (driveDataPin k l s).dataDir = s.dataDir := rfl
@[simp] theorem driveDataPin_dataOut (k : Fin 8) (l : Bool) (s : State) : (driveDataPin k l s).dataOut = s.dataOut.map fun v => setBit v k l := rfl
@[simp] theorem driveDataPin_phase (k : Fin 8) (l : Bool) (s : State) : (driveDataPin k l s).phase = s.phase := rfl
@[simp] theorem driveDataPin_pc (k : Fin 8) (l : Bool) (s : State) : (driveDataPin k l s).pc = s.pc := rfl
@[simp] theorem driveDataPin_micro (k : Fin 8) (l : Bool) (s : State) : (driveDataPin k l s).micro = s.micro := rfl
@[simp] theorem driveDataPin_fault (k : Fin 8) (l : Bool) (s : State) : (driveDataPin k l s).fault = s.fault := rfl
@[simp] theorem driveDataPin_lastWeRise (k : Fin 8) (l : Bool) (s : State) : (driveDataPin k l s).lastWeRise = s.lastWeRise := rfl
@[simp] theorem driveDataPin_out (k : Fin 8) (l : Bool) (s : State) : (driveDataPin k l s).out = s.out := rfl
@[simp] theorem driveDataPin_shift (k : Fin 8) (l : Bool) (s : State) : (driveDataPin k l s).shift = s.shift := rfl
@[simp] theorem driveDataPin_store (k : Fin 8) (l : Bool) (s : State) : (driveDataPin k l s).store = s.store := rfl
@[simp] theorem driveDataPin_cells (k : Fin 8) (l : Bool) (s : State) : (driveDataPin k l s).cells = s.cells := rfl
@[simp] theorem driveDataPin_busy (k : Fin 8) (l : Bool) (s : State) : (driveDataPin k l s).busy = s.busy := rfl
@[simp] theorem driveDataPin_weFall (k : Fin 8) (l : Bool) (s : State) : (driveDataPin k l s).weFall = s.weFall := rfl
@[simp] theorem driveDataPin_tSel (k : Fin 8) (l : Bool) (s : State) : (driveDataPin k l s).tSel = s.tSel := rfl
@[simp] theorem driveDataPin_now (k : Fin 8) (l : Bool) (s : State) : (driveDataPin k l s).now = s.now := rfl
@[simp] theorem driveDataPin_program (k : Fin 8) (l : Bool) (s : State) : (driveDataPin k l s).program = s.program := rfl
@[simp] theorem driveDataPin_params (k : Fin 8) (l : Bool) (s : State) : (driveDataPin k l s).params = s.params := rfl
@[simp] theorem driveDataPin_draws (k : Fin 8) (l : Bool) (s : State) : (driveDataPin k l s).draws = s.draws := rfl
@[simp] theorem driveDataPin_sampled (k : Fin 8) (l : Bool) (s : State) : (driveDataPin k l s).sampled = s.sampled := rfl

/-! ### emitByte -/

@[simp] theorem emitByte_ser (a : Addr) (s : State) : (emitByte a s).ser = s.ser := rfl
@[simp] theorem emitByte_srclk (a : Addr) (s : State) : (emitByte a s).srclk = s.srclk := rfl
@[simp] theorem emitByte_rclk (a : Addr) (s : State) : (emitByte a s).rclk = s.rclk := rfl
@[simp] theorem emitByte_weN (a : Addr) (s : State) : (emitByte a s).weN = s.weN := rfl
@[simp] theorem emitByte_dataDir (a : Addr) (s : State) : (emitByte a s).dataDir = s.dataDir := rfl
@[simp] theorem emitByte_dataOut (a : Addr) (s : State) : (emitByte a s).dataOut = s.dataOut := rfl
@[simp] theorem emitByte_phase (a : Addr) (s : State) : (emitByte a s).phase = s.phase := rfl
@[simp] theorem emitByte_pc (a : Addr) (s : State) : (emitByte a s).pc = s.pc := rfl
@[simp] theorem emitByte_micro (a : Addr) (s : State) : (emitByte a s).micro = s.micro := rfl
@[simp] theorem emitByte_fault (a : Addr) (s : State) : (emitByte a s).fault = s.fault := rfl
@[simp] theorem emitByte_lastWeRise (a : Addr) (s : State) : (emitByte a s).lastWeRise = s.lastWeRise := rfl
@[simp] theorem emitByte_out (a : Addr) (s : State) : (emitByte a s).out = s.out ++ [.byte a (unpack s.params.pinForBit s.sampled)] := rfl
@[simp] theorem emitByte_shift (a : Addr) (s : State) : (emitByte a s).shift = s.shift := rfl
@[simp] theorem emitByte_store (a : Addr) (s : State) : (emitByte a s).store = s.store := rfl
@[simp] theorem emitByte_cells (a : Addr) (s : State) : (emitByte a s).cells = s.cells := rfl
@[simp] theorem emitByte_busy (a : Addr) (s : State) : (emitByte a s).busy = s.busy := rfl
@[simp] theorem emitByte_weFall (a : Addr) (s : State) : (emitByte a s).weFall = s.weFall := rfl
@[simp] theorem emitByte_tSel (a : Addr) (s : State) : (emitByte a s).tSel = s.tSel := rfl
@[simp] theorem emitByte_now (a : Addr) (s : State) : (emitByte a s).now = s.now := rfl
@[simp] theorem emitByte_program (a : Addr) (s : State) : (emitByte a s).program = s.program := rfl
@[simp] theorem emitByte_params (a : Addr) (s : State) : (emitByte a s).params = s.params := rfl
@[simp] theorem emitByte_draws (a : Addr) (s : State) : (emitByte a s).draws = s.draws := rfl
@[simp] theorem emitByte_sampled (a : Addr) (s : State) : (emitByte a s).sampled = 0 := rfl

/-! ### configurePins -/

@[simp] theorem configurePins_ser (s : State) : (configurePins s).ser = .lo := rfl
@[simp] theorem configurePins_srclk (s : State) : (configurePins s).srclk = .lo := rfl
@[simp] theorem configurePins_rclk (s : State) : (configurePins s).rclk = .lo := rfl
@[simp] theorem configurePins_weN (s : State) : (configurePins s).weN = .hi := rfl
@[simp] theorem configurePins_dataDir (s : State) : (configurePins s).dataDir = .input := rfl
@[simp] theorem configurePins_dataOut (s : State) : (configurePins s).dataOut = some 0x00#8 := rfl
@[simp] theorem configurePins_phase (s : State) : (configurePins s).phase = .idle := rfl
@[simp] theorem configurePins_pc (s : State) : (configurePins s).pc = s.pc := rfl
@[simp] theorem configurePins_micro (s : State) : (configurePins s).micro = s.micro := rfl
@[simp] theorem configurePins_fault (s : State) : (configurePins s).fault = s.fault := rfl
@[simp] theorem configurePins_lastWeRise (s : State) : (configurePins s).lastWeRise = s.lastWeRise := rfl
@[simp] theorem configurePins_out (s : State) : (configurePins s).out = s.out := rfl
@[simp] theorem configurePins_shift (s : State) : (configurePins s).shift = s.shift := rfl
@[simp] theorem configurePins_store (s : State) : (configurePins s).store = s.store := rfl
@[simp] theorem configurePins_cells (s : State) : (configurePins s).cells = s.cells := rfl
@[simp] theorem configurePins_busy (s : State) : (configurePins s).busy = s.busy := rfl
@[simp] theorem configurePins_weFall (s : State) : (configurePins s).weFall = s.weFall := rfl
@[simp] theorem configurePins_tSel (s : State) : (configurePins s).tSel = s.tSel := rfl
@[simp] theorem configurePins_now (s : State) : (configurePins s).now = s.now := rfl
@[simp] theorem configurePins_program (s : State) : (configurePins s).program = s.program := rfl
@[simp] theorem configurePins_params (s : State) : (configurePins s).params = s.params := rfl
@[simp] theorem configurePins_draws (s : State) : (configurePins s).draws = s.draws := rfl
@[simp] theorem configurePins_sampled (s : State) : (configurePins s).sampled = s.sampled := rfl

/-! ### advance -/

@[simp] theorem advance_ser (d : Nat) (s : State) : (advance d s).ser = s.ser := by unfold advance; (repeat' split) <;> rfl
@[simp] theorem advance_srclk (d : Nat) (s : State) : (advance d s).srclk = s.srclk := by unfold advance; (repeat' split) <;> rfl
@[simp] theorem advance_rclk (d : Nat) (s : State) : (advance d s).rclk = s.rclk := by unfold advance; (repeat' split) <;> rfl
@[simp] theorem advance_weN (d : Nat) (s : State) : (advance d s).weN = s.weN := by unfold advance; (repeat' split) <;> rfl
@[simp] theorem advance_dataDir (d : Nat) (s : State) : (advance d s).dataDir = s.dataDir := by unfold advance; (repeat' split) <;> rfl
@[simp] theorem advance_dataOut (d : Nat) (s : State) : (advance d s).dataOut = s.dataOut := by unfold advance; (repeat' split) <;> rfl
@[simp] theorem advance_phase (d : Nat) (s : State) : (advance d s).phase = s.phase := by unfold advance; (repeat' split) <;> rfl
@[simp] theorem advance_pc (d : Nat) (s : State) : (advance d s).pc = s.pc := by unfold advance; (repeat' split) <;> rfl
@[simp] theorem advance_micro (d : Nat) (s : State) : (advance d s).micro = s.micro := by unfold advance; (repeat' split) <;> rfl
@[simp] theorem advance_fault (d : Nat) (s : State) : (advance d s).fault = s.fault := by unfold advance; (repeat' split) <;> rfl
@[simp] theorem advance_lastWeRise (d : Nat) (s : State) : (advance d s).lastWeRise = s.lastWeRise := by unfold advance; (repeat' split) <;> rfl
@[simp] theorem advance_out (d : Nat) (s : State) : (advance d s).out = s.out := by unfold advance; (repeat' split) <;> rfl
@[simp] theorem advance_shift (d : Nat) (s : State) : (advance d s).shift = s.shift := by unfold advance; (repeat' split) <;> rfl
@[simp] theorem advance_store (d : Nat) (s : State) : (advance d s).store = s.store := by unfold advance; (repeat' split) <;> rfl
@[simp] theorem advance_weFall (d : Nat) (s : State) : (advance d s).weFall = s.weFall := by unfold advance; (repeat' split) <;> rfl
@[simp] theorem advance_tSel (d : Nat) (s : State) : (advance d s).tSel = s.tSel := by unfold advance; (repeat' split) <;> rfl
@[simp] theorem advance_now (d : Nat) (s : State) : (advance d s).now = s.now + d := by unfold advance; (repeat' split) <;> rfl
@[simp] theorem advance_program (d : Nat) (s : State) : (advance d s).program = s.program := by unfold advance; (repeat' split) <;> rfl
@[simp] theorem advance_params (d : Nat) (s : State) : (advance d s).params = s.params := by unfold advance; (repeat' split) <;> rfl
@[simp] theorem advance_draws (d : Nat) (s : State) : (advance d s).draws = s.draws := by unfold advance; (repeat' split) <;> rfl
@[simp] theorem advance_sampled (d : Nat) (s : State) : (advance d s).sampled = s.sampled := by unfold advance; (repeat' split) <;> rfl

/-! ### elapse -/

@[simp] theorem elapse_ser (D : Draws) (s : State) : (elapse D s).ser = s.ser := advance_ser _ _
@[simp] theorem elapse_srclk (D : Draws) (s : State) : (elapse D s).srclk = s.srclk := advance_srclk _ _
@[simp] theorem elapse_rclk (D : Draws) (s : State) : (elapse D s).rclk = s.rclk := advance_rclk _ _
@[simp] theorem elapse_weN (D : Draws) (s : State) : (elapse D s).weN = s.weN := advance_weN _ _
@[simp] theorem elapse_dataDir (D : Draws) (s : State) : (elapse D s).dataDir = s.dataDir := advance_dataDir _ _
@[simp] theorem elapse_dataOut (D : Draws) (s : State) : (elapse D s).dataOut = s.dataOut := advance_dataOut _ _
@[simp] theorem elapse_phase (D : Draws) (s : State) : (elapse D s).phase = s.phase := advance_phase _ _
@[simp] theorem elapse_pc (D : Draws) (s : State) : (elapse D s).pc = s.pc := advance_pc _ _
@[simp] theorem elapse_micro (D : Draws) (s : State) : (elapse D s).micro = s.micro := advance_micro _ _
@[simp] theorem elapse_fault (D : Draws) (s : State) : (elapse D s).fault = s.fault := advance_fault _ _
@[simp] theorem elapse_lastWeRise (D : Draws) (s : State) : (elapse D s).lastWeRise = s.lastWeRise := advance_lastWeRise _ _
@[simp] theorem elapse_out (D : Draws) (s : State) : (elapse D s).out = s.out := advance_out _ _
@[simp] theorem elapse_shift (D : Draws) (s : State) : (elapse D s).shift = s.shift := advance_shift _ _
@[simp] theorem elapse_store (D : Draws) (s : State) : (elapse D s).store = s.store := advance_store _ _
@[simp] theorem elapse_weFall (D : Draws) (s : State) : (elapse D s).weFall = s.weFall := advance_weFall _ _
@[simp] theorem elapse_tSel (D : Draws) (s : State) : (elapse D s).tSel = s.tSel := advance_tSel _ _
@[simp] theorem elapse_now (D : Draws) (s : State) : (elapse D s).now = s.now + D.latency s.draws := advance_now _ _
@[simp] theorem elapse_program (D : Draws) (s : State) : (elapse D s).program = s.program := advance_program _ _
@[simp] theorem elapse_params (D : Draws) (s : State) : (elapse D s).params = s.params := advance_params _ _
@[simp] theorem elapse_draws (D : Draws) (s : State) : (elapse D s).draws = s.draws + 1 := advance_draws _ _
@[simp] theorem elapse_sampled (D : Draws) (s : State) : (elapse D s).sampled = s.sampled := advance_sampled _ _

/-! ### advancePc -/

@[simp] theorem advancePc_ser (s : State) : (advancePc s).ser = s.ser := by unfold advancePc; (repeat' split) <;> rfl
@[simp] theorem advancePc_srclk (s : State) : (advancePc s).srclk = s.srclk := by unfold advancePc; (repeat' split) <;> rfl
@[simp] theorem advancePc_rclk (s : State) : (advancePc s).rclk = s.rclk := by unfold advancePc; (repeat' split) <;> rfl
@[simp] theorem advancePc_weN (s : State) : (advancePc s).weN = s.weN := by unfold advancePc; (repeat' split) <;> rfl
@[simp] theorem advancePc_dataDir (s : State) : (advancePc s).dataDir = s.dataDir := by unfold advancePc; (repeat' split) <;> rfl
@[simp] theorem advancePc_dataOut (s : State) : (advancePc s).dataOut = s.dataOut := by unfold advancePc; (repeat' split) <;> rfl
@[simp] theorem advancePc_phase (s : State) : (advancePc s).phase = s.phase := by unfold advancePc; (repeat' split) <;> rfl
@[simp] theorem advancePc_micro (s : State) : (advancePc s).micro = s.micro := by unfold advancePc; (repeat' split) <;> rfl
@[simp] theorem advancePc_fault (s : State) : (advancePc s).fault = s.fault := by unfold advancePc; (repeat' split) <;> rfl
@[simp] theorem advancePc_lastWeRise (s : State) : (advancePc s).lastWeRise = s.lastWeRise := by unfold advancePc; (repeat' split) <;> rfl
@[simp] theorem advancePc_out (s : State) : (advancePc s).out = s.out := by unfold advancePc; (repeat' split) <;> rfl
@[simp] theorem advancePc_shift (s : State) : (advancePc s).shift = s.shift := by unfold advancePc; (repeat' split) <;> rfl
@[simp] theorem advancePc_store (s : State) : (advancePc s).store = s.store := by unfold advancePc; (repeat' split) <;> rfl
@[simp] theorem advancePc_cells (s : State) : (advancePc s).cells = s.cells := by unfold advancePc; (repeat' split) <;> rfl
@[simp] theorem advancePc_busy (s : State) : (advancePc s).busy = s.busy := by unfold advancePc; (repeat' split) <;> rfl
@[simp] theorem advancePc_weFall (s : State) : (advancePc s).weFall = s.weFall := by unfold advancePc; (repeat' split) <;> rfl
@[simp] theorem advancePc_tSel (s : State) : (advancePc s).tSel = s.tSel := by unfold advancePc; (repeat' split) <;> rfl
@[simp] theorem advancePc_now (s : State) : (advancePc s).now = s.now := by unfold advancePc; (repeat' split) <;> rfl
@[simp] theorem advancePc_program (s : State) : (advancePc s).program = s.program := by unfold advancePc; (repeat' split) <;> rfl
@[simp] theorem advancePc_params (s : State) : (advancePc s).params = s.params := by unfold advancePc; (repeat' split) <;> rfl
@[simp] theorem advancePc_draws (s : State) : (advancePc s).draws = s.draws := by unfold advancePc; (repeat' split) <;> rfl
@[simp] theorem advancePc_sampled (s : State) : (advancePc s).sampled = s.sampled := by unfold advancePc; (repeat' split) <;> rfl

/-! ### advanceMicro -/

@[simp] theorem advanceMicro_ser (s : State) : (advanceMicro s).ser = s.ser := by unfold advanceMicro; (repeat' split) <;> rfl
@[simp] theorem advanceMicro_srclk (s : State) : (advanceMicro s).srclk = s.srclk := by unfold advanceMicro; (repeat' split) <;> rfl
@[simp] theorem advanceMicro_rclk (s : State) : (advanceMicro s).rclk = s.rclk := by unfold advanceMicro; (repeat' split) <;> rfl
@[simp] theorem advanceMicro_weN (s : State) : (advanceMicro s).weN = s.weN := by unfold advanceMicro; (repeat' split) <;> rfl
@[simp] theorem advanceMicro_dataDir (s : State) : (advanceMicro s).dataDir = s.dataDir := by unfold advanceMicro; (repeat' split) <;> rfl
@[simp] theorem advanceMicro_dataOut (s : State) : (advanceMicro s).dataOut = s.dataOut := by unfold advanceMicro; (repeat' split) <;> rfl
@[simp] theorem advanceMicro_phase (s : State) : (advanceMicro s).phase = s.phase := by unfold advanceMicro; (repeat' split) <;> rfl
@[simp] theorem advanceMicro_pc (s : State) : (advanceMicro s).pc = s.pc := by unfold advanceMicro; (repeat' split) <;> rfl
@[simp] theorem advanceMicro_fault (s : State) : (advanceMicro s).fault = s.fault := by unfold advanceMicro; (repeat' split) <;> rfl
@[simp] theorem advanceMicro_lastWeRise (s : State) : (advanceMicro s).lastWeRise = s.lastWeRise := by unfold advanceMicro; (repeat' split) <;> rfl
@[simp] theorem advanceMicro_out (s : State) : (advanceMicro s).out = s.out := by unfold advanceMicro; (repeat' split) <;> rfl
@[simp] theorem advanceMicro_shift (s : State) : (advanceMicro s).shift = s.shift := by unfold advanceMicro; (repeat' split) <;> rfl
@[simp] theorem advanceMicro_store (s : State) : (advanceMicro s).store = s.store := by unfold advanceMicro; (repeat' split) <;> rfl
@[simp] theorem advanceMicro_cells (s : State) : (advanceMicro s).cells = s.cells := by unfold advanceMicro; (repeat' split) <;> rfl
@[simp] theorem advanceMicro_busy (s : State) : (advanceMicro s).busy = s.busy := by unfold advanceMicro; (repeat' split) <;> rfl
@[simp] theorem advanceMicro_weFall (s : State) : (advanceMicro s).weFall = s.weFall := by unfold advanceMicro; (repeat' split) <;> rfl
@[simp] theorem advanceMicro_tSel (s : State) : (advanceMicro s).tSel = s.tSel := by unfold advanceMicro; (repeat' split) <;> rfl
@[simp] theorem advanceMicro_now (s : State) : (advanceMicro s).now = s.now := by unfold advanceMicro; (repeat' split) <;> rfl
@[simp] theorem advanceMicro_program (s : State) : (advanceMicro s).program = s.program := by unfold advanceMicro; (repeat' split) <;> rfl
@[simp] theorem advanceMicro_params (s : State) : (advanceMicro s).params = s.params := by unfold advanceMicro; (repeat' split) <;> rfl
@[simp] theorem advanceMicro_draws (s : State) : (advanceMicro s).draws = s.draws := by unfold advanceMicro; (repeat' split) <;> rfl
@[simp] theorem advanceMicro_sampled (s : State) : (advanceMicro s).sampled = s.sampled := by unfold advanceMicro; (repeat' split) <;> rfl

/-! ### completeMacro -/

@[simp] theorem completeMacro_ser (ph : Phase) (s : State) : (completeMacro ph s).ser = s.ser := by unfold completeMacro; (repeat' split) <;> rfl
@[simp] theorem completeMacro_srclk (ph : Phase) (s : State) : (completeMacro ph s).srclk = s.srclk := by unfold completeMacro; (repeat' split) <;> rfl
@[simp] theorem completeMacro_rclk (ph : Phase) (s : State) : (completeMacro ph s).rclk = s.rclk := by unfold completeMacro; (repeat' split) <;> rfl
@[simp] theorem completeMacro_weN (ph : Phase) (s : State) : (completeMacro ph s).weN = s.weN := by unfold completeMacro; (repeat' split) <;> rfl
@[simp] theorem completeMacro_dataDir (ph : Phase) (s : State) : (completeMacro ph s).dataDir = s.dataDir := by unfold completeMacro; (repeat' split) <;> rfl
@[simp] theorem completeMacro_dataOut (ph : Phase) (s : State) : (completeMacro ph s).dataOut = s.dataOut := by unfold completeMacro; (repeat' split) <;> rfl
@[simp] theorem completeMacro_fault (ph : Phase) (s : State) : (completeMacro ph s).fault = s.fault := by unfold completeMacro; (repeat' split) <;> rfl
@[simp] theorem completeMacro_lastWeRise (ph : Phase) (s : State) : (completeMacro ph s).lastWeRise = s.lastWeRise := by unfold completeMacro; (repeat' split) <;> rfl
@[simp] theorem completeMacro_out (ph : Phase) (s : State) : (completeMacro ph s).out = s.out := by unfold completeMacro; (repeat' split) <;> rfl
@[simp] theorem completeMacro_shift (ph : Phase) (s : State) : (completeMacro ph s).shift = s.shift := by unfold completeMacro; (repeat' split) <;> rfl
@[simp] theorem completeMacro_store (ph : Phase) (s : State) : (completeMacro ph s).store = s.store := by unfold completeMacro; (repeat' split) <;> rfl
@[simp] theorem completeMacro_cells (ph : Phase) (s : State) : (completeMacro ph s).cells = s.cells := by unfold completeMacro; (repeat' split) <;> rfl
@[simp] theorem completeMacro_busy (ph : Phase) (s : State) : (completeMacro ph s).busy = s.busy := by unfold completeMacro; (repeat' split) <;> rfl
@[simp] theorem completeMacro_weFall (ph : Phase) (s : State) : (completeMacro ph s).weFall = s.weFall := by unfold completeMacro; (repeat' split) <;> rfl
@[simp] theorem completeMacro_tSel (ph : Phase) (s : State) : (completeMacro ph s).tSel = s.tSel := by unfold completeMacro; (repeat' split) <;> rfl
@[simp] theorem completeMacro_now (ph : Phase) (s : State) : (completeMacro ph s).now = s.now := by unfold completeMacro; (repeat' split) <;> rfl
@[simp] theorem completeMacro_program (ph : Phase) (s : State) : (completeMacro ph s).program = s.program := by unfold completeMacro; (repeat' split) <;> rfl
@[simp] theorem completeMacro_params (ph : Phase) (s : State) : (completeMacro ph s).params = s.params := by unfold completeMacro; (repeat' split) <;> rfl
@[simp] theorem completeMacro_draws (ph : Phase) (s : State) : (completeMacro ph s).draws = s.draws := by unfold completeMacro; (repeat' split) <;> rfl
@[simp] theorem completeMacro_sampled (ph : Phase) (s : State) : (completeMacro ph s).sampled = s.sampled := by unfold completeMacro; (repeat' split) <;> rfl

/-! ### driveSrclk -/

@[simp] theorem driveSrclk_ser (l : Bool) (s : State) : (driveSrclk l s).ser = s.ser := by unfold driveSrclk; dsimp only; split <;> rfl
@[simp] theorem driveSrclk_srclk (l : Bool) (s : State) : (driveSrclk l s).srclk = Level.ofBool l := by unfold driveSrclk; dsimp only; split <;> simp_all
@[simp] theorem driveSrclk_rclk (l : Bool) (s : State) : (driveSrclk l s).rclk = s.rclk := by unfold driveSrclk; dsimp only; split <;> rfl
@[simp] theorem driveSrclk_weN (l : Bool) (s : State) : (driveSrclk l s).weN = s.weN := by unfold driveSrclk; dsimp only; split <;> rfl
@[simp] theorem driveSrclk_dataDir (l : Bool) (s : State) : (driveSrclk l s).dataDir = s.dataDir := by unfold driveSrclk; dsimp only; split <;> rfl
@[simp] theorem driveSrclk_dataOut (l : Bool) (s : State) : (driveSrclk l s).dataOut = s.dataOut := by unfold driveSrclk; dsimp only; split <;> rfl
@[simp] theorem driveSrclk_phase (l : Bool) (s : State) : (driveSrclk l s).phase = s.phase := by unfold driveSrclk; dsimp only; split <;> rfl
@[simp] theorem driveSrclk_pc (l : Bool) (s : State) : (driveSrclk l s).pc = s.pc := by unfold driveSrclk; dsimp only; split <;> rfl
@[simp] theorem driveSrclk_micro (l : Bool) (s : State) : (driveSrclk l s).micro = s.micro := by unfold driveSrclk; dsimp only; split <;> rfl
@[simp] theorem driveSrclk_fault (l : Bool) (s : State) : (driveSrclk l s).fault = s.fault := by unfold driveSrclk; dsimp only; split <;> rfl
@[simp] theorem driveSrclk_lastWeRise (l : Bool) (s : State) : (driveSrclk l s).lastWeRise = s.lastWeRise := by unfold driveSrclk; dsimp only; split <;> rfl
@[simp] theorem driveSrclk_out (l : Bool) (s : State) : (driveSrclk l s).out = s.out := by unfold driveSrclk; dsimp only; split <;> rfl
@[simp] theorem driveSrclk_shift (l : Bool) (s : State) : (driveSrclk l s).shift = if s.srclk = .lo ∧ l = true then shiftIn s.ser.bit? s.shift else s.shift := by unfold driveSrclk; dsimp only; split <;> simp_all
@[simp] theorem driveSrclk_store (l : Bool) (s : State) : (driveSrclk l s).store = s.store := by unfold driveSrclk; dsimp only; split <;> rfl
@[simp] theorem driveSrclk_cells (l : Bool) (s : State) : (driveSrclk l s).cells = s.cells := by unfold driveSrclk; dsimp only; split <;> rfl
@[simp] theorem driveSrclk_busy (l : Bool) (s : State) : (driveSrclk l s).busy = s.busy := by unfold driveSrclk; dsimp only; split <;> rfl
@[simp] theorem driveSrclk_weFall (l : Bool) (s : State) : (driveSrclk l s).weFall = s.weFall := by unfold driveSrclk; dsimp only; split <;> rfl
@[simp] theorem driveSrclk_tSel (l : Bool) (s : State) : (driveSrclk l s).tSel = s.tSel := by unfold driveSrclk; dsimp only; split <;> rfl
@[simp] theorem driveSrclk_now (l : Bool) (s : State) : (driveSrclk l s).now = s.now := by unfold driveSrclk; dsimp only; split <;> rfl
@[simp] theorem driveSrclk_program (l : Bool) (s : State) : (driveSrclk l s).program = s.program := by unfold driveSrclk; dsimp only; split <;> rfl
@[simp] theorem driveSrclk_params (l : Bool) (s : State) : (driveSrclk l s).params = s.params := by unfold driveSrclk; dsimp only; split <;> rfl
@[simp] theorem driveSrclk_draws (l : Bool) (s : State) : (driveSrclk l s).draws = s.draws := by unfold driveSrclk; dsimp only; split <;> rfl
@[simp] theorem driveSrclk_sampled (l : Bool) (s : State) : (driveSrclk l s).sampled = s.sampled := by unfold driveSrclk; dsimp only; split <;> rfl

/-! ### driveRclk -/

@[simp] theorem driveRclk_ser (l : Bool) (s : State) : (driveRclk l s).ser = s.ser := by unfold driveRclk; dsimp only; split <;> rfl
@[simp] theorem driveRclk_srclk (l : Bool) (s : State) : (driveRclk l s).srclk = s.srclk := by unfold driveRclk; dsimp only; split <;> rfl
@[simp] theorem driveRclk_rclk (l : Bool) (s : State) : (driveRclk l s).rclk = Level.ofBool l := by unfold driveRclk; dsimp only; split <;> simp_all
@[simp] theorem driveRclk_weN (l : Bool) (s : State) : (driveRclk l s).weN = s.weN := by unfold driveRclk; dsimp only; split <;> rfl
@[simp] theorem driveRclk_dataDir (l : Bool) (s : State) : (driveRclk l s).dataDir = s.dataDir := by unfold driveRclk; dsimp only; split <;> rfl
@[simp] theorem driveRclk_dataOut (l : Bool) (s : State) : (driveRclk l s).dataOut = s.dataOut := by unfold driveRclk; dsimp only; split <;> rfl
@[simp] theorem driveRclk_phase (l : Bool) (s : State) : (driveRclk l s).phase = s.phase := by unfold driveRclk; dsimp only; split <;> rfl
@[simp] theorem driveRclk_pc (l : Bool) (s : State) : (driveRclk l s).pc = s.pc := by unfold driveRclk; dsimp only; split <;> rfl
@[simp] theorem driveRclk_micro (l : Bool) (s : State) : (driveRclk l s).micro = s.micro := by unfold driveRclk; dsimp only; split <;> rfl
@[simp] theorem driveRclk_fault (l : Bool) (s : State) : (driveRclk l s).fault = s.fault := by unfold driveRclk; dsimp only; split <;> rfl
@[simp] theorem driveRclk_lastWeRise (l : Bool) (s : State) : (driveRclk l s).lastWeRise = s.lastWeRise := by unfold driveRclk; dsimp only; split <;> rfl
@[simp] theorem driveRclk_out (l : Bool) (s : State) : (driveRclk l s).out = s.out := by unfold driveRclk; dsimp only; split <;> rfl
@[simp] theorem driveRclk_shift (l : Bool) (s : State) : (driveRclk l s).shift = s.shift := by unfold driveRclk; dsimp only; split <;> rfl
@[simp] theorem driveRclk_store (l : Bool) (s : State) : (driveRclk l s).store = if s.rclk = .lo ∧ l = true then s.shift else s.store := by unfold driveRclk; dsimp only; split <;> simp_all
@[simp] theorem driveRclk_cells (l : Bool) (s : State) : (driveRclk l s).cells = s.cells := by unfold driveRclk; dsimp only; split <;> rfl
@[simp] theorem driveRclk_busy (l : Bool) (s : State) : (driveRclk l s).busy = s.busy := by unfold driveRclk; dsimp only; split <;> rfl
@[simp] theorem driveRclk_weFall (l : Bool) (s : State) : (driveRclk l s).weFall = s.weFall := by unfold driveRclk; dsimp only; split <;> rfl
@[simp] theorem driveRclk_tSel (l : Bool) (s : State) : (driveRclk l s).tSel = s.tSel := by unfold driveRclk; dsimp only; split <;> rfl
@[simp] theorem driveRclk_now (l : Bool) (s : State) : (driveRclk l s).now = s.now := by unfold driveRclk; dsimp only; split <;> rfl
@[simp] theorem driveRclk_program (l : Bool) (s : State) : (driveRclk l s).program = s.program := by unfold driveRclk; dsimp only; split <;> rfl
@[simp] theorem driveRclk_params (l : Bool) (s : State) : (driveRclk l s).params = s.params := by unfold driveRclk; dsimp only; split <;> rfl
@[simp] theorem driveRclk_draws (l : Bool) (s : State) : (driveRclk l s).draws = s.draws := by unfold driveRclk; dsimp only; split <;> rfl
@[simp] theorem driveRclk_sampled (l : Bool) (s : State) : (driveRclk l s).sampled = s.sampled := by unfold driveRclk; dsimp only; split <;> rfl

/-! ### driveWe -/

@[simp] theorem driveWe_ser (l : Bool) (s : State) : (driveWe l s).ser = s.ser := by unfold driveWe; dsimp only; split <;> rfl
@[simp] theorem driveWe_srclk (l : Bool) (s : State) : (driveWe l s).srclk = s.srclk := by unfold driveWe; dsimp only; split <;> rfl
@[simp] theorem driveWe_rclk (l : Bool) (s : State) : (driveWe l s).rclk = s.rclk := by unfold driveWe; dsimp only; split <;> rfl
@[simp] theorem driveWe_weN (l : Bool) (s : State) : (driveWe l s).weN = Level.ofBool l := by unfold driveWe; dsimp only; split <;> simp_all
@[simp] theorem driveWe_dataDir (l : Bool) (s : State) : (driveWe l s).dataDir = s.dataDir := by unfold driveWe; dsimp only; split <;> rfl
@[simp] theorem driveWe_dataOut (l : Bool) (s : State) : (driveWe l s).dataOut = s.dataOut := by unfold driveWe; dsimp only; split <;> rfl
@[simp] theorem driveWe_phase (l : Bool) (s : State) : (driveWe l s).phase = s.phase := by unfold driveWe; dsimp only; split <;> rfl
@[simp] theorem driveWe_pc (l : Bool) (s : State) : (driveWe l s).pc = s.pc := by unfold driveWe; dsimp only; split <;> rfl
@[simp] theorem driveWe_micro (l : Bool) (s : State) : (driveWe l s).micro = s.micro := by unfold driveWe; dsimp only; split <;> rfl
@[simp] theorem driveWe_fault (l : Bool) (s : State) : (driveWe l s).fault = s.fault := by unfold driveWe; dsimp only; split <;> rfl
@[simp] theorem driveWe_lastWeRise (l : Bool) (s : State) : (driveWe l s).lastWeRise = if s.weN = .lo ∧ l = true then some s.now else s.lastWeRise := by unfold driveWe; dsimp only; split <;> simp_all
@[simp] theorem driveWe_out (l : Bool) (s : State) : (driveWe l s).out = s.out := by unfold driveWe; dsimp only; split <;> rfl
@[simp] theorem driveWe_shift (l : Bool) (s : State) : (driveWe l s).shift = s.shift := by unfold driveWe; dsimp only; split <;> rfl
@[simp] theorem driveWe_store (l : Bool) (s : State) : (driveWe l s).store = s.store := by unfold driveWe; dsimp only; split <;> rfl
@[simp] theorem driveWe_cells (l : Bool) (s : State) : (driveWe l s).cells = s.cells := by unfold driveWe; dsimp only; split <;> rfl
@[simp] theorem driveWe_busy (l : Bool) (s : State) : (driveWe l s).busy = s.busy := by unfold driveWe; dsimp only; split <;> rfl
@[simp] theorem driveWe_weFall (l : Bool) (s : State) : (driveWe l s).weFall = s.weFall := by unfold driveWe; dsimp only; split <;> rfl
@[simp] theorem driveWe_tSel (l : Bool) (s : State) : (driveWe l s).tSel = s.tSel := by unfold driveWe; dsimp only; split <;> rfl
@[simp] theorem driveWe_now (l : Bool) (s : State) : (driveWe l s).now = s.now := by unfold driveWe; dsimp only; split <;> rfl
@[simp] theorem driveWe_program (l : Bool) (s : State) : (driveWe l s).program = s.program := by unfold driveWe; dsimp only; split <;> rfl
@[simp] theorem driveWe_params (l : Bool) (s : State) : (driveWe l s).params = s.params := by unfold driveWe; dsimp only; split <;> rfl
@[simp] theorem driveWe_draws (l : Bool) (s : State) : (driveWe l s).draws = s.draws := by unfold driveWe; dsimp only; split <;> rfl
@[simp] theorem driveWe_sampled (l : Bool) (s : State) : (driveWe l s).sampled = s.sampled := by unfold driveWe; dsimp only; split <;> rfl

/-! ### noteSelection -/

@[simp] theorem noteSelection_ser (x : Bool) (old new : EeInputs) (s : State) : (noteSelection x old new s).ser = s.ser := by unfold noteSelection; split <;> rfl
@[simp] theorem noteSelection_srclk (x : Bool) (old new : EeInputs) (s : State) : (noteSelection x old new s).srclk = s.srclk := by unfold noteSelection; split <;> rfl
@[simp] theorem noteSelection_rclk (x : Bool) (old new : EeInputs) (s : State) : (noteSelection x old new s).rclk = s.rclk := by unfold noteSelection; split <;> rfl
@[simp] theorem noteSelection_weN (x : Bool) (old new : EeInputs) (s : State) : (noteSelection x old new s).weN = s.weN := by unfold noteSelection; split <;> rfl
@[simp] theorem noteSelection_dataDir (x : Bool) (old new : EeInputs) (s : State) : (noteSelection x old new s).dataDir = s.dataDir := by unfold noteSelection; split <;> rfl
@[simp] theorem noteSelection_dataOut (x : Bool) (old new : EeInputs) (s : State) : (noteSelection x old new s).dataOut = s.dataOut := by unfold noteSelection; split <;> rfl
@[simp] theorem noteSelection_phase (x : Bool) (old new : EeInputs) (s : State) : (noteSelection x old new s).phase = s.phase := by unfold noteSelection; split <;> rfl
@[simp] theorem noteSelection_pc (x : Bool) (old new : EeInputs) (s : State) : (noteSelection x old new s).pc = s.pc := by unfold noteSelection; split <;> rfl
@[simp] theorem noteSelection_micro (x : Bool) (old new : EeInputs) (s : State) : (noteSelection x old new s).micro = s.micro := by unfold noteSelection; split <;> rfl
@[simp] theorem noteSelection_fault (x : Bool) (old new : EeInputs) (s : State) : (noteSelection x old new s).fault = s.fault := by unfold noteSelection; split <;> rfl
@[simp] theorem noteSelection_lastWeRise (x : Bool) (old new : EeInputs) (s : State) : (noteSelection x old new s).lastWeRise = s.lastWeRise := by unfold noteSelection; split <;> rfl
@[simp] theorem noteSelection_out (x : Bool) (old new : EeInputs) (s : State) : (noteSelection x old new s).out = s.out := by unfold noteSelection; split <;> rfl
@[simp] theorem noteSelection_shift (x : Bool) (old new : EeInputs) (s : State) : (noteSelection x old new s).shift = s.shift := by unfold noteSelection; split <;> rfl
@[simp] theorem noteSelection_store (x : Bool) (old new : EeInputs) (s : State) : (noteSelection x old new s).store = s.store := by unfold noteSelection; split <;> rfl
@[simp] theorem noteSelection_cells (x : Bool) (old new : EeInputs) (s : State) : (noteSelection x old new s).cells = s.cells := by unfold noteSelection; split <;> rfl
@[simp] theorem noteSelection_busy (x : Bool) (old new : EeInputs) (s : State) : (noteSelection x old new s).busy = s.busy := by unfold noteSelection; split <;> rfl
@[simp] theorem noteSelection_weFall (x : Bool) (old new : EeInputs) (s : State) : (noteSelection x old new s).weFall = s.weFall := by unfold noteSelection; split <;> rfl
@[simp] theorem noteSelection_tSel (x : Bool) (old new : EeInputs) (s : State) : (noteSelection x old new s).tSel = if aChanged x old new || oeChanged x old new then s.now else s.tSel := by unfold noteSelection; split <;> simp_all
@[simp] theorem noteSelection_now (x : Bool) (old new : EeInputs) (s : State) : (noteSelection x old new s).now = s.now := by unfold noteSelection; split <;> rfl
@[simp] theorem noteSelection_program (x : Bool) (old new : EeInputs) (s : State) : (noteSelection x old new s).program = s.program := by unfold noteSelection; split <;> rfl
@[simp] theorem noteSelection_params (x : Bool) (old new : EeInputs) (s : State) : (noteSelection x old new s).params = s.params := by unfold noteSelection; split <;> rfl
@[simp] theorem noteSelection_draws (x : Bool) (old new : EeInputs) (s : State) : (noteSelection x old new s).draws = s.draws := by unfold noteSelection; split <;> rfl
@[simp] theorem noteSelection_sampled (x : Bool) (old new : EeInputs) (s : State) : (noteSelection x old new s).sampled = s.sampled := by unfold noteSelection; split <;> rfl

/-! ### contentionCheck -/

@[simp] theorem contentionCheck_ser (s : State) : (contentionCheck s).ser = s.ser := by unfold contentionCheck; split <;> rfl
@[simp] theorem contentionCheck_srclk (s : State) : (contentionCheck s).srclk = s.srclk := by unfold contentionCheck; split <;> rfl
@[simp] theorem contentionCheck_rclk (s : State) : (contentionCheck s).rclk = s.rclk := by unfold contentionCheck; split <;> rfl
@[simp] theorem contentionCheck_weN (s : State) : (contentionCheck s).weN = s.weN := by unfold contentionCheck; split <;> rfl
@[simp] theorem contentionCheck_dataDir (s : State) : (contentionCheck s).dataDir = s.dataDir := by unfold contentionCheck; split <;> rfl
@[simp] theorem contentionCheck_dataOut (s : State) : (contentionCheck s).dataOut = s.dataOut := by unfold contentionCheck; split <;> rfl
@[simp] theorem contentionCheck_phase (s : State) : (contentionCheck s).phase = s.phase := by unfold contentionCheck; split <;> rfl
@[simp] theorem contentionCheck_pc (s : State) : (contentionCheck s).pc = s.pc := by unfold contentionCheck; split <;> rfl
@[simp] theorem contentionCheck_micro (s : State) : (contentionCheck s).micro = s.micro := by unfold contentionCheck; split <;> rfl
@[simp] theorem contentionCheck_fault (s : State) : (contentionCheck s).fault = if s.contention then s.fault.or (some (.busContention s.addr s.oeN)) else s.fault := by unfold contentionCheck; split <;> simp_all
@[simp] theorem contentionCheck_lastWeRise (s : State) : (contentionCheck s).lastWeRise = s.lastWeRise := by unfold contentionCheck; split <;> rfl
@[simp] theorem contentionCheck_out (s : State) : (contentionCheck s).out = s.out := by unfold contentionCheck; split <;> rfl
@[simp] theorem contentionCheck_shift (s : State) : (contentionCheck s).shift = s.shift := by unfold contentionCheck; split <;> rfl
@[simp] theorem contentionCheck_store (s : State) : (contentionCheck s).store = s.store := by unfold contentionCheck; split <;> rfl
@[simp] theorem contentionCheck_cells (s : State) : (contentionCheck s).cells = s.cells := by unfold contentionCheck; split <;> rfl
@[simp] theorem contentionCheck_busy (s : State) : (contentionCheck s).busy = s.busy := by unfold contentionCheck; split <;> rfl
@[simp] theorem contentionCheck_weFall (s : State) : (contentionCheck s).weFall = s.weFall := by unfold contentionCheck; split <;> rfl
@[simp] theorem contentionCheck_tSel (s : State) : (contentionCheck s).tSel = s.tSel := by unfold contentionCheck; split <;> rfl
@[simp] theorem contentionCheck_now (s : State) : (contentionCheck s).now = s.now := by unfold contentionCheck; split <;> rfl
@[simp] theorem contentionCheck_program (s : State) : (contentionCheck s).program = s.program := by unfold contentionCheck; split <;> rfl
@[simp] theorem contentionCheck_params (s : State) : (contentionCheck s).params = s.params := by unfold contentionCheck; split <;> rfl
@[simp] theorem contentionCheck_draws (s : State) : (contentionCheck s).draws = s.draws := by unfold contentionCheck; split <;> rfl
@[simp] theorem contentionCheck_sampled (s : State) : (contentionCheck s).sampled = s.sampled := by unfold contentionCheck; split <;> rfl

end Sys2Proof.Machine
end

