-- ==== Sys2Proof/Laws/Chain.lean ====
section
/-! SUPPORT. The laws of the shift-register stages: what a shift does position by position, what sixteen shifts leave, and the
address and OE_n a stage presents. -/

namespace Sys2Proof.Machine

theorem shiftIn_zero (b : Option Bool) (v : Stage) : (shiftIn b v)[0] = b := rfl

theorem shiftIn_succ (b : Option Bool) (v : Stage) {i : Nat} (h : i < 15) : (shiftIn b v)[i + 1] = v[i] := by
  simp [shiftIn, Vector.getElem_mk]

theorem wordStage_get (w : SrWord) {i : Nat} (h : i < 16) : (wordStage w)[i] = some (w.getLsbD i) := by
  simp [wordStage]

theorem toList_shiftIn (b : Option Bool) (v : Stage) : (shiftIn b v).toList = b :: v.toList.take 15 := rfl

theorem stage_ext {u v : Stage} (h : u.toList = v.toList) : u = v := by
  apply Vector.toArray_inj.1
  exact Array.toList_inj.1 h

/-- Sixteen shifts of a word's bits in serial order leave the word, whatever the stage held (spec/40_pin_primitives.md R104). -/
theorem foldl_shiftIn_serialBits (w : SrWord) (v : Stage) :
    (serialBits w).foldl (fun u b => shiftIn (some b) u) v = wordStage w := by
  apply stage_ext
  have h16 : v.toList.length = 16 := by simp
  obtain ⟨x, l, hl⟩ : ∃ x l, v.toList = x :: l := List.exists_cons_of_ne_nil (by
    intro e; rw [e] at h16; simp at h16)
  simp only [serialBits, List.map, List.foldl, toList_shiftIn, hl]
  simp only [List.take_succ_cons, List.take_zero]
  rfl

theorem readBits_cons_some (b : Bool) (r : List (Option Bool)) :
    readBits (some b :: r) = (readBits r).map fun n => b.toNat + 2 * n := rfl

theorem readBits_bits (n k : Nat) (w : SrWord) :
    readBits ((List.range' k n).map fun i => some (w.getLsbD i)) = some (w.toNat / 2 ^ k % 2 ^ n) := by
  induction n generalizing k with
  | zero => simp [readBits, Nat.mod_one]
  | succ n ih =>
    rw [List.range'_succ, List.map_cons, readBits_cons_some, ih, Option.map_some]
    congr 1
    have hb : (w.getLsbD k).toNat = w.toNat / 2 ^ k % 2 := by
      rw [BitVec.getLsbD, Nat.testBit_eq_decide_div_mod_eq]
      rcases Nat.mod_two_eq_zero_or_one (w.toNat / 2 ^ k) with h | h <;> simp [h]
    rw [hb, Nat.pow_succ 2 k, ← Nat.div_div_eq_div_mul, Nat.pow_succ 2 n, Nat.mul_comm (2 ^ n) 2, Nat.mod_mul]

/-- A latched word presents its low eleven bits as the address. -/
theorem stageAddr_wordStage (w : SrWord) : stageAddr (wordStage w) = some (w.setWidth 11) := by
  have h : (wordStage w).toList.take 11 = (List.range' 0 11).map fun i => some (w.getLsbD i) := rfl
  rw [stageAddr, h, readBits_bits, Option.map_some]
  congr 1
  apply BitVec.eq_of_toNat_eq
  simp

/-- A latched word presents its bit 11 as OE_n. -/
theorem stageOeN_wordStage (w : SrWord) : stageOeN (wordStage w) = some (w.getLsbD 11) := wordStage_get w (by decide)

/-- The address half of an assembled word. -/
theorem packWord_addr (a : BitVec 16) (o : Bool) : (packWord a o).setWidth 11 = a.setWidth 11 := by
  cases o <;> ext i hi <;> simp [packWord]

/-- The output-enable bit of an assembled word, for an address in range. -/
theorem packWord_oe {a : BitVec 16} (o : Bool) (h : a.toNat ≤ 2047) : (packWord a o).getLsbD 11 = !o := by
  have ha : a.getLsbD 11 = false := by
    rw [BitVec.getLsbD]
    exact Nat.testBit_lt_two_pow (by omega)
  rw [BitVec.getLsbD_eq_getElem (by decide)] at ha ⊢
  cases o <;> simp [packWord, ha]

end Sys2Proof.Machine
end

