-- ==== Sys2Proof/Laws/Time.lean ====
section
/-! SUPPORT. Everything the passing of time can do: `now` moves on, and an open write cycle whose end has come reaches its cell. -/

namespace Sys2Proof.Machine

theorem advance_idle {d : Nat} {s : State} (h : s.busy = none) : advance d s = { s with now := s.now + d } := by
  simp [advance, h]

theorem advance_done {d : Nat} {s : State} {c : WriteCycle} (h : s.busy = some c) (hd : c.tEnd ≤ s.now + d) :
    advance d s =
      { s with now := s.now + d, cells := Memory.write s.cells c.addr.toNat c.data, busy := none } := by
  simp [advance, h, hd]

theorem advance_open {d : Nat} {s : State} {c : WriteCycle} (h : s.busy = some c) (hd : s.now + d < c.tEnd) :
    advance d s = { s with now := s.now + d } := by
  simp [advance, h, Nat.not_le.2 hd]

/-- The three cases of `advance`, for any amount of time. -/
theorem advance_cases (d : Nat) (s : State) :
    (s.busy = none ∧ (advance d s).busy = none ∧ (advance d s).cells = s.cells) ∨
    (∃ c, s.busy = some c ∧ c.tEnd ≤ s.now + d ∧ (advance d s).busy = none ∧
      (advance d s).cells = Memory.write s.cells c.addr.toNat c.data) ∨
    (∃ c, s.busy = some c ∧ s.now + d < c.tEnd ∧ (advance d s).busy = some c ∧ (advance d s).cells = s.cells) := by
  cases h : s.busy with
  | none => exact .inl ⟨rfl, by simp [advance_idle h, h], by simp [advance_idle h]⟩
  | some c =>
    by_cases hd : c.tEnd ≤ s.now + d
    · exact .inr (.inl ⟨c, rfl, hd, by simp [advance_done h hd], by simp [advance_done h hd]⟩)
    · have ho : s.now + d < c.tEnd := Nat.lt_of_not_le hd
      exact .inr (.inr ⟨c, rfl, ho, by simp [advance_open h ho, h], by simp [advance_open h ho]⟩)

theorem elapse_idle {D : Draws} {s : State} (h : s.busy = none) :
    elapse D s = { s with now := s.now + D.latency s.draws, draws := s.draws + 1 } := by
  rw [elapse, advance_idle (s := drew s) h]
  rfl

/-- The three cases of a latency. -/
theorem elapse_cases (D : Draws) (s : State) :
    (s.busy = none ∧ (elapse D s).busy = none ∧ (elapse D s).cells = s.cells) ∨
    (∃ c, s.busy = some c ∧ c.tEnd ≤ s.now + D.latency s.draws ∧ (elapse D s).busy = none ∧
      (elapse D s).cells = Memory.write s.cells c.addr.toNat c.data) ∨
    (∃ c, s.busy = some c ∧ s.now + D.latency s.draws < c.tEnd ∧ (elapse D s).busy = some c ∧
      (elapse D s).cells = s.cells) :=
  advance_cases (D.latency s.draws) (drew s)

/-- What time does to the write cycle and the cells: nothing, or the cycle reaches its cell. -/
def Passed (b : Option WriteCycle) (m : Memory) (b' : Option WriteCycle) (m' : Memory) : Prop :=
  (b' = b ∧ m' = m) ∨ ∃ c, b = some c ∧ b' = none ∧ m' = m.write c.addr.toNat c.data

theorem Passed.refl (b : Option WriteCycle) (m : Memory) : Passed b m b m := .inl ⟨rfl, rfl⟩

theorem Passed.trans {b b' b'' : Option WriteCycle} {m m' m'' : Memory} (h : Passed b m b' m') (h' : Passed b' m' b'' m'') :
    Passed b m b'' m'' := by
  rcases h with ⟨rfl, rfl⟩ | ⟨c, hc, rfl, rfl⟩
  · exact h'
  · rcases h' with ⟨rfl, rfl⟩ | ⟨c', hc', -⟩
    · exact .inr ⟨c, hc, rfl, rfl⟩
    · cases hc'

theorem Passed.of_none {m m' : Memory} {b' : Option WriteCycle} (h : Passed none m b' m') : b' = none ∧ m' = m := by
  rcases h with h | ⟨c, hc, -⟩
  · exact h
  · cases hc

/-- Time changes no cell but the one whose write cycle runs. -/
theorem Passed.cellRead {b b' : Option WriteCycle} {m m' : Memory} (h : Passed b m b' m') (D : Draws) {a : Addr}
    (ha : ∀ c, b = some c → c.addr ≠ a) : cellRead D m' a = cellRead D m a := by
  rcases h with ⟨-, rfl⟩ | ⟨c, hc, -, rfl⟩
  · rfl
  · exact cellRead_write_other D _ _ (Ne.symm (ha c hc))

/-- Everything time can do, cell by cell: nothing, or the cycle ends with its byte in its cell. -/
theorem Passed.cell {b b' : Option WriteCycle} {m m' : Memory} (h : Passed b m b' m') (D : Draws) :
    (b' = b ∧ m' = m) ∨ ∃ c, b = some c ∧ b' = none ∧ Machine.cellRead D m' c.addr = c.data := by
  rcases h with h | ⟨c, hc, hb, rfl⟩
  · exact .inl h
  · exact .inr ⟨c, hc, hb, cellRead_write_same D _ _ _⟩

/-- A latency as one record update. -/
theorem elapse_passed (D : Draws) (s : State) : ∃ b m, Passed s.busy s.cells b m ∧
    elapse D s = { s with now := s.now + D.latency s.draws, draws := s.draws + 1, busy := b, cells := m } := by
  cases h : s.busy with
  | none => exact ⟨none, s.cells, .refl _ _, by rw [elapse_idle h, ← h]⟩
  | some c =>
    by_cases hd : c.tEnd ≤ s.now + D.latency s.draws
    · exact ⟨none, _, .inr ⟨c, rfl, rfl, rfl⟩, advance_done (s := drew s) h hd⟩
    · refine ⟨some c, s.cells, .refl _ _, ?_⟩
      rw [elapse, advance_open (s := drew s) h (by simpa using hd), ← h]
      rfl

theorem elapse_busy_none {D : Draws} {s : State} (h : s.busy = none) : (elapse D s).busy = none := by
  simp [elapse_idle h, h]

/-- Time changes no cell but the one whose write cycle it completes. -/
theorem cellRead_advance (D : Draws) (d : Nat) (s : State) (a : Addr) (h : ∀ c, s.busy = some c → c.addr ≠ a) :
    cellRead D (advance d s).cells a = cellRead D s.cells a := by
  rcases advance_cases d s with ⟨-, -, e⟩ | ⟨c, hc, -, -, e⟩ | ⟨c, -, -, -, e⟩
  · rw [e]
  · rw [e, cellRead_write_other D _ _ (Ne.symm (h c hc))]
  · rw [e]

theorem wf_advance (d : Nat) {s : State} (h : s.cells.wf) : (advance d s).cells.wf := by
  rcases advance_cases d s with ⟨-, -, e⟩ | ⟨c, -, -, -, e⟩ | ⟨c, -, -, -, e⟩
  · rwa [e]
  · rw [e]; exact Memory.wf_write _ h c.addr.isLt
  · rwa [e]

theorem wf_elapse (D : Draws) {s : State} (h : s.cells.wf) : (elapse D s).cells.wf := wf_advance _ (s := drew s) h

theorem wf_powerCycle (D : Draws) {s : State} (h : s.cells.wf) : (powerCycle D s).cells.wf := by
  cases hb : s.busy with
  | none => simpa [powerCycle, hb] using h
  | some c => simpa [powerCycle, hb] using Memory.wf_write _ h c.addr.isLt

theorem wf_reset : State.reset.cells.wf := Memory.wf_nil

end Sys2Proof.Machine
end

