-- ==== Sys2Proof/Laws/Checks.lean ====
section
/-! SUPPORT. What the checks of the common step can answer: one law per check, cited instead of unfolding it. -/

namespace Sys2Proof.Machine

/-! ### Derived signals depend on few fields -/

theorem eeInputs_congr {s t : State} (h1 : t.store = s.store) (h2 : t.weN = s.weN) (h3 : t.dataDir = s.dataDir)
    (h4 : t.dataOut = s.dataOut) : eeInputs t = eeInputs s := by
  simp [eeInputs, State.addr, State.oeN, State.busC, h1, h2, h3, h4]

theorem contention_congr {s t : State} (h1 : t.store = s.store) (h2 : t.dataDir = s.dataDir) :
    t.contention = s.contention := by
  simp [State.contention, State.eeDrives, State.oeN, h1, h2]

theorem contention_input {s : State} (h : s.dataDir = .input) : s.contention = false := by
  simp [State.contention, h]

theorem contention_disabled {s : State} (h : s.oeN = some true) : s.contention = false := by
  simp [State.contention, State.eeDrives, h]

theorem contention_eq_false {s : State} : s.contention = false ↔ (s.dataDir = .output → s.oeN = some true) := by
  simp [State.contention, State.eeDrives]

@[simp] theorem advance_eeInputs (d : Nat) (s : State) : eeInputs (advance d s) = eeInputs s :=
  eeInputs_congr (by simp) (by simp) (by simp) (by simp)

@[simp] theorem elapse_eeInputs (D : Draws) (s : State) : eeInputs (elapse D s) = eeInputs s :=
  eeInputs_congr (by simp) (by simp) (by simp) (by simp)

@[simp] theorem elapse_contention (D : Draws) (s : State) : (elapse D s).contention = s.contention :=
  contention_congr (by simp) (by simp)

@[simp] theorem elapse_addr (D : Draws) (s : State) : (elapse D s).addr = s.addr := by simp [State.addr]

@[simp] theorem elapse_oeN (D : Draws) (s : State) : (elapse D s).oeN = s.oeN := by simp [State.oeN]

/-! ### The write delay and the roles -/

theorem writeDelayCheck_none {s : State} (h : s.DelayOver) : writeDelayCheck s = none := by
  unfold writeDelayCheck
  split
  · rfl
  · next tr htr => simp [Nat.not_lt.2 (h tr htr)]

theorem delayOver_later {s t : State} (h : s.DelayOver) (h1 : t.lastWeRise = s.lastWeRise) (h2 : t.params = s.params)
    (h3 : s.now ≤ t.now) : t.DelayOver := by
  intro tr htr
  have := h tr (h1 ▸ htr)
  rw [h2]; omega

theorem delayOver_elapse (D : Draws) {s : State} (h : s.DelayOver) : (elapse D s).DelayOver :=
  delayOver_later h (by simp) (by simp) (by simp)

/-- A primitive the roles allow passes the checks before its effect once the write delay is over. -/
theorem preCheck_none {p : Prim} {s : State} (h : s.DelayOver) (hr : roleCheck s p = none) : preCheck p s = none := by
  simp [preCheck, writeDelayCheck_none h, hr]

theorem preCheck_wait (t : Nat) (s : State) : preCheck (.wait t) s = none := by
  simp [preCheck, Prim.isBusOp, roleCheck]

theorem roleCheck_lines {s : State} (h : s.phase ≠ .uninit) (l : Bool) :
    roleCheck s (.setSer l) = none ∧ roleCheck s (.setSrclk l) = none ∧ roleCheck s (.setRclk l) = none ∧
      roleCheck s (.setWe l) = none := by
  simp [roleCheck, expectRole, role, h]

theorem roleCheck_drive {s : State} (h : s.dataDir = .output) (k : Fin 8) (l : Bool) :
    roleCheck s (.setDataPin k l) = none := by
  simp [roleCheck, expectRole, role, h]

theorem roleCheck_sample {s : State} (h : s.dataDir = .input) (k : Fin 8) :
    roleCheck s (.readDataPin k) = none ∧ roleCheck s (.samplePin k) = none := by
  simp [roleCheck, expectRole, role, h]

/-! ### The EEPROM's check -/

theorem changedInputs_same (x : EeInputs) : changedInputs false x x = [] := by
  simp [changedInputs, aChanged, oeChanged]

theorem changedInputs_nil {l : Bool} {old new : EeInputs} :
    changedInputs l old new = [] ↔ aChanged l old new = false ∧ oeChanged l old new = false ∧ old.busC = new.busC := by
  cases h1 : aChanged l old new <;> cases h2 : oeChanged l old new <;> by_cases h3 : old.busC = new.busC <;>
    simp [changedInputs, h1, h2, h3]

theorem noteSelection_same {l : Bool} {old new : EeInputs} {s : State} (h1 : aChanged l old new = false)
    (h2 : oeChanged l old new = false) : noteSelection l old new s = s := by
  simp [noteSelection, h1, h2]

/-- No input changes: the check answers the state it is given. -/
theorem eepromCheck_same (D : Draws) (x : EeInputs) (s : State) : eepromCheck D false x x s = .ok s := by
  have hw : weReaction D x x s = .ok s := by cases h : x.weN <;> simp [weReaction, h]
  have hn : noteSelection false x x s = s := noteSelection_same (by simp [aChanged]) (by simp [oeChanged])
  unfold eepromCheck
  simp only [changedInputs_same, hw, hn]
  split <;> simp

/-- A change while a write cycle runs (spec/20_memory.md R61). -/
theorem eepromCheck_busy {D : Draws} {l : Bool} {old new : EeInputs} {s : State} {c : WriteCycle} (h : s.busy = some c)
    (hc : changedInputs l old new ≠ [] ∨ old.weN ≠ new.weN) :
    eepromCheck D l old new s = .error (.writeCycleViolation c) := by
  unfold eepromCheck
  simp only [h]
  rw [if_neg (by tauto)]

/-- With WE_n high throughout and no write cycle, A, OE_n and the data drive may change. -/
theorem eepromCheck_steady {D : Draws} {l : Bool} {old new : EeInputs} {s : State} (hb : s.busy = none)
    (ho : old.weN = true) (hn : new.weN = true) :
    eepromCheck D l old new s = .ok (noteSelection l old new s) := by
  simp [eepromCheck, hb, ho, hn, weReaction]

/-- Only WE_n changes and no write cycle runs: the check answers what the EEPROM's reaction does. -/
theorem eepromCheck_reaction {D : Draws} {l : Bool} {old new : EeInputs} {s u : State} (hb : s.busy = none)
    (hn : changedInputs l old new = []) (hr : weReaction D old new s = .ok u) : eepromCheck D l old new s = .ok u := by
  obtain ⟨h1, h2, -⟩ := changedInputs_nil.1 hn
  simp [eepromCheck, hb, hn, hr, noteSelection_same h1 h2]

/-- Only WE_n changes, no write cycle runs, and the EEPROM's reaction is a fault: so is the check. -/
theorem eepromCheck_reaction_error {D : Draws} {l : Bool} {old new : EeInputs} {s : State} {f : Raised} (hb : s.busy = none)
    (hn : changedInputs l old new = []) (hr : weReaction D old new s = .error f) : eepromCheck D l old new s = .error f := by
  simp [eepromCheck, hb, hn, hr]

/-- WE_n stays as it is: the EEPROM does not react. -/
theorem weReaction_same {D : Draws} {old new : EeInputs} {s : State} (h : old.weN = new.weN) :
    weReaction D old new s = .ok s := by
  unfold weReaction
  rw [h]
  cases new.weN <;> rfl

/-- Everything `eepromCheck` can answer when it answers a state. -/
theorem eepromCheck_ok {D : Draws} {l : Bool} {old new : EeInputs} {s t : State} (h : eepromCheck D l old new s = .ok t) :
    (s.busy ≠ none ∧ changedInputs l old new = [] ∧ old.weN = new.weN ∧ t = s) ∨
    (s.busy = none ∧ (old.weN = false → new.weN = false → changedInputs l old new = []) ∧
      ∃ u, weReaction D old new s = .ok u ∧ t = noteSelection l old new u) := by
  unfold eepromCheck at h
  dsimp only at h
  split at h
  · next c hc =>
    split at h
    · next hq =>
      cases h
      exact .inl ⟨by simp [hc], hq.1, hq.2, rfl⟩
    · cases h
  · next hc =>
    split at h
    · cases h
    · next hq =>
      split at h
      · cases h
      · next u hu =>
        cases h
        exact .inr ⟨hc, by tauto, u, hu, rfl⟩

theorem weFalling_ok {s t : State} (h : weFalling s = .ok t) :
    s.oeN = some true ∧ s.addr ≠ none ∧ t = { s with weFall := some s.now } := by
  unfold weFalling at h
  split at h
  · next hq => cases h; exact ⟨hq.1, hq.2, rfl⟩
  · cases h

theorem weFalling_selected {s : State} (h1 : s.oeN = some true) (h2 : s.addr ≠ none) :
    weFalling s = .ok { s with weFall := some s.now } := by
  simp [weFalling, h1, h2]

theorem weFalling_refused {s : State} (h : s.oeN ≠ some true ∨ s.addr = none) :
    weFalling s = .error (.writeSelectInvalid s.addr s.oeN) := by
  unfold weFalling
  rw [if_neg (by tauto)]

theorem weRising_short {D : Draws} {s : State} {tf : Nat} (h1 : s.weFall = some tf) (h2 : s.now - tf < s.params.tWpMin) :
    weRising D s = .error (.wePulseTooShort (s.now - tf)) := by
  simp [weRising, h1, h2]

/-- A rising edge that is answered opens a cycle for a byte: the driven one, or a free one. -/
theorem weRising_ok {D : Draws} {s t : State} (h : weRising D s = .ok t) :
    ∃ tf a, s.weFall = some tf ∧ s.params.tWpMin ≤ s.now - tf ∧ s.addr = some a ∧ t = latchByte D a s := by
  unfold weRising at h
  split at h
  · cases h
  · next tf htf =>
    split at h
    · cases h
    · next hq =>
      split at h
      · cases h
      · next a ha => cases h; exact ⟨tf, a, htf, by omega, ha, rfl⟩

theorem latchByte_cases (D : Draws) (a : Addr) (s : State) :
    (∃ v, s.dataDir = .output ∧ s.dataOut = some v ∧ latchByte D a s = openCycle a v s) ∨
    latchByte D a s = openCycle a (D.busByte s.draws) (drew s) := by
  unfold latchByte State.busC
  cases s.dataDir with
  | input => exact .inr rfl
  | output =>
    cases h : s.dataOut with
    | none => exact .inr rfl
    | some v => exact .inl ⟨v, rfl, rfl, rfl⟩

theorem weRising_latches {D : Draws} {s : State} {tf : Nat} {a : Addr} (h1 : s.weFall = some tf)
    (h2 : tf + s.params.tWpMin ≤ s.now) (h3 : s.addr = some a) : weRising D s = .ok (latchByte D a s) := by
  simp [weRising, h1, h3]
  omega

theorem latchByte_driven {D : Draws} {a : Addr} {v : Byte} {s : State} (h1 : s.dataDir = .output) (h2 : s.dataOut = some v) :
    latchByte D a s = openCycle a v s := by
  simp [latchByte, State.busC, h1, h2]

theorem contentionCheck_none {s : State} (h : s.contention = false) : contentionCheck s = s := by
  simp [contentionCheck, h]

end Sys2Proof.Machine
end

