-- ==== Sys2Proof/Laws/Pins.lean ====
section
/-! SUPPORT. The laws of the data byte on the pins: bit by bit, what setting a bit, driving a byte and unpacking one give. -/

namespace Sys2Proof

theorem PinMap.pin_inj (m : PinMap) {i j : Fin 8} (h : m.pin i = m.pin j) : i = j := m.inj i j h

/-- Every pin carries some value bit. -/
theorem PinMap.pin_surj (m : PinMap) (k : Fin 8) : ∃ i, m.pin i = k :=
  Finite.injective_iff_surjective.1 (fun _ _ h => m.pin_inj h) k

end Sys2Proof

namespace Sys2Proof.Machine

theorem setBit_get (v : Byte) (k : Fin 8) (b : Bool) (j : Fin 8) :
    (setBit v k b).getLsbD j = if j = k then b else v.getLsbD j := by
  have hj := j.isLt
  cases b <;> simp only [setBit, Bool.false_eq_true, if_false, if_true]
  · simp only [BitVec.getLsbD_and, BitVec.getLsbD_not, BitVec.getLsbD_shiftLeft, BitVec.getLsbD_one]
    by_cases h : j = k
    · subst h; simp
    · have h' : j.val ≠ k.val := fun e => h (Fin.ext e)
      have h2 : ¬ (j.val < k.val) → j.val - k.val ≠ 0 := by omega
      by_cases h3 : j.val < k.val <;> simp [h, hj, h3]
      omega
  · simp only [BitVec.getLsbD_or, BitVec.getLsbD_shiftLeft, BitVec.getLsbD_one]
    by_cases h : j = k
    · subst h; simp
    · have h' : j.val ≠ k.val := fun e => h (Fin.ext e)
      by_cases h3 : j.val < k.val <;> simp [h, hj, h3]
      omega

theorem byte_ext {u v : Byte} (h : ∀ j : Fin 8, u.getLsbD j = v.getLsbD j) : u = v :=
  BitVec.eq_of_getLsbD_eq fun i hi => h ⟨i, hi⟩

theorem mem_valueBits (i : Fin 8) : i ∈ valueBits := by revert i; decide

theorem nodup_valueBits : valueBits.Nodup := by decide

/-- Setting bits one after another, at different places, leaves each place its own bit. -/
theorem foldl_setBit_get (f : Fin 8 → Fin 8) (g : Fin 8 → Bool) (hf : ∀ i j, f i = f j → i = j) (l : List (Fin 8))
    (hl : l.Nodup) (v : Byte) (i : Fin 8) :
    (l.foldl (fun p i => setBit p (f i) (g i)) v).getLsbD (f i) = if i ∈ l then g i else v.getLsbD (f i) := by
  induction l generalizing v with
  | nil => simp
  | cons x l ih =>
    rw [List.nodup_cons] at hl
    rw [List.foldl_cons, ih hl.2, setBit_get]
    by_cases hx : i = x
    · subst hx; simp [hl.1]
    · have : f i ≠ f x := fun e => hx (hf _ _ e)
      simp [hx, this]

/-- The bits `driveByte(v)` sets one after another make `pinLevels(v)`, whatever the latch held (spec/42_eeprom_transactor.md R131). -/
theorem foldl_driveByte (m : PinMap) (v u : Byte) :
    valueBits.foldl (fun p i => setBit p (m.pin i) (v.getLsbD i)) u = pinLevels m v := by
  apply byte_ext
  intro k
  obtain ⟨i, rfl⟩ := m.pin_surj k
  rw [pinLevels]
  have h := foldl_setBit_get m.pin (fun i => v.getLsbD i) (fun _ _ => m.pin_inj) valueBits nodup_valueBits
  rw [h, h]
  simp [mem_valueBits]

/-- The level of the pin that carries value bit `i` (spec/30_encoding.md R78). -/
theorem pinLevels_get (m : PinMap) (v : Byte) (i : Fin 8) : (pinLevels m v).getLsbD (m.pin i) = v.getLsbD i := by
  rw [pinLevels, foldl_setBit_get m.pin (fun i => v.getLsbD i) (fun _ _ => m.pin_inj) _ nodup_valueBits]
  simp [mem_valueBits]

/-- Value bit `i` of an unpacked byte (spec/30_encoding.md R78). -/
theorem unpack_get (m : PinMap) (p : Byte) (i : Fin 8) : (unpack m p).getLsbD i = p.getLsbD (m.pin i) := by
  rw [unpack]
  have h := foldl_setBit_get id (fun i => p.getLsbD (m.pin i)) (fun _ _ h => h) valueBits nodup_valueBits 0#8 i
  simpa [mem_valueBits] using h

/-- Sampling every pin of a byte assembles the byte, whatever was assembled before (spec/42_eeprom_transactor.md R132). -/
theorem foldl_sampleByte (m : PinMap) (p u : Byte) :
    valueBits.foldl (fun q i => setBit q (m.pin i) (p.getLsbD (m.pin i))) u = p := by
  apply byte_ext
  intro k
  obtain ⟨i, rfl⟩ := m.pin_surj k
  rw [foldl_setBit_get m.pin (fun i => p.getLsbD (m.pin i)) (fun _ _ => m.pin_inj) _ nodup_valueBits]
  simp [mem_valueBits]

end Sys2Proof.Machine
end

