-- ==== Sys2Proof/Laws/Prim.lean ====
section
/-! SUPPORT. What one primitive can do (`actNow_cases`), and what each does when its conditions hold. -/

namespace Sys2Proof.Machine

/-! ### Inversion -/

/-- Everything a primitive can do once its latency has passed: raise a fault and nothing else, or commit what the EEPROM's check
answered and look for contention (spec/40_pin_primitives.md R96). -/
theorem actNow_cases (D : Draws) (p : Prim) (s : State) :
    (∃ f, actNow D p s = raise f s) ∨
    (preCheck p s = none ∧ ∃ t, eepromCheck D (rclkRose s (effect D p s)) (eeInputs s) (eeInputs (effect D p s))
      (effect D p s) = .ok t ∧ actNow D p s = contentionCheck t) := by
  unfold actNow
  split
  · exact .inl ⟨_, rfl⟩
  · next hp =>
    split
    · exact .inl ⟨_, rfl⟩
    · next t ht => exact .inr ⟨hp, t, ht, rfl⟩

theorem actNow_preCheck {D : Draws} {p : Prim} {s : State} {f : Raised} (h : preCheck p s = some f) :
    actNow D p s = raise f s := by
  simp [actNow, h]

theorem actNow_error {D : Draws} {p : Prim} {s : State} {f : Raised} (h : preCheck p s = none)
    (he : eepromCheck D (rclkRose s (effect D p s)) (eeInputs s) (eeInputs (effect D p s)) (effect D p s) = .error f) :
    actNow D p s = raise f s := by
  simp [actNow, h, he]

theorem actNow_ok {D : Draws} {p : Prim} {s t : State} (h : preCheck p s = none)
    (he : eepromCheck D (rclkRose s (effect D p s)) (eeInputs s) (eeInputs (effect D p s)) (effect D p s) = .ok t) :
    actNow D p s = contentionCheck t := by
  simp [actNow, h, he]

/-- A primitive that changes no EEPROM input and rises no RCLK just has its effect. -/
theorem actNow_quiet {D : Draws} {p : Prim} {s : State} (hp : preCheck p s = none)
    (hi : eeInputs (effect D p s) = eeInputs s) (hr : rclkRose s (effect D p s) = false)
    (hc : (effect D p s).contention = false) : actNow D p s = effect D p s := by
  rw [actNow_ok (t := effect D p s) hp (by rw [hi, hr]; exact eepromCheck_same D _ _), contentionCheck_none hc]

theorem rclkRose_same {s t : State} (h : t.rclk = s.rclk) : rclkRose s t = false := by
  cases hs : s.rclk <;> simp [rclkRose, h, hs]

/-! ### Completion of each primitive, its latency passed -/

theorem actNow_setSer {D : Draws} {s : State} (hu : s.phase ≠ .uninit) (hd : s.DelayOver) (hc : s.contention = false)
    (l : Bool) : actNow D (.setSer l) s = driveSer l s :=
  actNow_quiet (preCheck_none hd (roleCheck_lines hu l).1)
    (eeInputs_congr (by simp [effect]) (by simp [effect]) (by simp [effect]) (by simp [effect]))
    (rclkRose_same (by simp [effect])) (by rw [← hc]; exact contention_congr (by simp [effect]) (by simp [effect]))

theorem actNow_setSrclk {D : Draws} {s : State} (hu : s.phase ≠ .uninit) (hd : s.DelayOver) (hc : s.contention = false)
    (l : Bool) : actNow D (.setSrclk l) s = driveSrclk l s :=
  actNow_quiet (preCheck_none hd (roleCheck_lines hu l).2.1)
    (eeInputs_congr (by simp [effect]) (by simp [effect]) (by simp [effect]) (by simp [effect]))
    (rclkRose_same (by simp [effect])) (by rw [← hc]; exact contention_congr (by simp [effect]) (by simp [effect]))

theorem actNow_wait {D : Draws} {s : State} (hc : s.contention = false) (t : Nat) :
    actNow D (.wait t) s = advance t s :=
  actNow_quiet (preCheck_wait t s)
    (eeInputs_congr (by simp [effect, waitFor]) (by simp [effect, waitFor]) (by simp [effect, waitFor])
      (by simp [effect, waitFor]))
    (rclkRose_same (by simp [effect, waitFor]))
    (by rw [← hc]; exact contention_congr (by simp [effect, waitFor]) (by simp [effect, waitFor]))

/-- SET_RCLK with no rising edge (spec/40_pin_primitives.md R107). -/
theorem actNow_setRclk_level {D : Draws} {s : State} (hu : s.phase ≠ .uninit) (hd : s.DelayOver)
    (hc : s.contention = false) {l : Bool} (hl : s.rclk ≠ .lo ∨ l = false) :
    actNow D (.setRclk l) s = { s with rclk := Level.ofBool l } := by
  have he : effect D (.setRclk l) s = { s with rclk := Level.ofBool l } := by
    simp only [effect, driveRclk]
    rw [if_neg (by rcases hl with h | h <;> simp [h])]
  rw [← he]
  refine actNow_quiet (preCheck_none hd (roleCheck_lines hu l).2.2.1) ?_ ?_ ?_
  · rw [he]; rfl
  · rw [he]; rcases hl with h | h <;> simp [rclkRose, h, Level.ofBool]
  · rw [he, ← hc]; rfl

/-- The latch edge (spec/40_pin_primitives.md R106) from a state whose inputs may change, or when it changes none. -/
theorem actNow_latch {D : Draws} {s : State} (hu : s.phase ≠ .uninit) (hd : s.DelayOver) (hl : s.rclk = .lo)
    (hs : (aChanged true (eeInputs s) (eeInputs (latchEdge s)) = false ∧
      oeChanged true (eeInputs s) (eeInputs (latchEdge s)) = false) ∨ (s.busy = none ∧ s.weN ≠ .lo))
    (hc : (latchEdge s).contention = false) :
    actNow D (.setRclk true) s =
      noteSelection true (eeInputs s) (eeInputs (latchEdge s)) { s with rclk := .hi, store := s.shift } := by
  have he : effect D (.setRclk true) s = { s with rclk := .hi, store := s.shift } := by
    simp [effect, driveRclk, hl, latchEdge, Level.ofBool]
  have hi : eeInputs { s with rclk := Level.hi, store := s.shift } = eeInputs (latchEdge s) := rfl
  have hr : rclkRose s { s with rclk := Level.hi, store := s.shift } = true := by simp [rclkRose, hl]
  have hw : (eeInputs (latchEdge s)).weN = (eeInputs s).weN := rfl
  have hok : eepromCheck D true (eeInputs s) (eeInputs (latchEdge s)) { s with rclk := .hi, store := s.shift } =
      .ok (noteSelection true (eeInputs s) (eeInputs (latchEdge s)) { s with rclk := .hi, store := s.shift }) := by
    rcases hs with ⟨h1, h2⟩ | ⟨hb, hw'⟩
    · have hn : changedInputs true (eeInputs s) (eeInputs (latchEdge s)) = [] :=
        changedInputs_nil.2 ⟨h1, h2, rfl⟩
      have hre : ∀ u, weReaction D (eeInputs s) (eeInputs (latchEdge s)) u = .ok u := by
        intro u; cases h : (eeInputs s).weN <;> simp [weReaction, hw, h]
      unfold eepromCheck
      simp only [hn, hre, noteSelection_same h1 h2, hw]
      split <;> simp
    · have ho : (eeInputs s).weN = true := by
        cases h : s.weN <;> simp_all [eeInputs, Level.weSeen]
      exact eepromCheck_steady hb ho (by rw [hw, ho])
  rw [actNow_ok (preCheck_none hd (roleCheck_lines hu true).2.2.1) (by rw [he, hi, hr]; exact hok)]
  apply contentionCheck_none
  rw [← hc]
  exact contention_congr (by simp) (by simp)

/-- SET_WE to the level WE_n has (spec/40_pin_primitives.md R101). -/
theorem actNow_setWe_level {D : Draws} {s : State} (hu : s.phase ≠ .uninit) (hd : s.DelayOver)
    (hc : s.contention = false) {l : Bool} (hl : s.weN = Level.ofBool l) : actNow D (.setWe l) s = s := by
  have he : effect D (.setWe l) s = s := by
    simp only [effect, driveWe]
    rw [if_neg (by cases l <;> simp [hl, Level.ofBool]), ← hl]
  rw [actNow_quiet (preCheck_none hd (roleCheck_lines hu l).2.2.2) (by rw [he]) (rclkRose_same (by rw [he])) (by rw [he, hc]),
    he]

/-- The WE_n falling edge (spec/20_memory.md R57). -/
theorem actNow_weFall {D : Draws} {s : State} (hu : s.phase ≠ .uninit) (hd : s.DelayOver) (hb : s.busy = none)
    (hw : s.weN = .hi) (ho : s.oeN = some true) (ha : s.addr ≠ none) :
    actNow D (.setWe false) s = { s with weN := .lo, weFall := some s.now } := by
  have he : effect D (.setWe false) s = { s with weN := .lo } := by simp [effect, driveWe, Level.ofBool]
  have hr : rclkRose s { s with weN := Level.lo } = false := rclkRose_same rfl
  have hre : weReaction D (eeInputs s) (eeInputs { s with weN := Level.lo }) { s with weN := .lo } =
      .ok { s with weN := .lo, weFall := some s.now } := by
    have h1 : (eeInputs s).weN = true := by simp [eeInputs, hw, Level.weSeen]
    have h2 : (eeInputs { s with weN := Level.lo }).weN = false := rfl
    rw [weReaction, h1, h2]
    exact weFalling_selected (s := { s with weN := .lo }) ho ha
  have hok : eepromCheck D false (eeInputs s) (eeInputs { s with weN := Level.lo }) { s with weN := .lo } =
      .ok { s with weN := .lo, weFall := some s.now } :=
    eepromCheck_reaction hb (changedInputs_same (eeInputs s)) hre
  rw [actNow_ok (preCheck_none hd (roleCheck_lines hu false).2.2.2) (by rw [he, hr]; exact hok)]
  exact contentionCheck_none (contention_disabled ho)

/-- The WE_n rising edge (spec/20_memory.md R58). -/
theorem actNow_weRise {D : Draws} {s : State} {tf : Nat} {a : Addr} (hu : s.phase ≠ .uninit) (hd : s.DelayOver)
    (hb : s.busy = none) (hw : s.weN = .lo) (hf : s.weFall = some tf) (ht : tf + s.params.tWpMin ≤ s.now)
    (ha : s.addr = some a) (hc : s.contention = false) :
    actNow D (.setWe true) s = latchByte D a { s with weN := .hi, lastWeRise := some s.now } := by
  have he : effect D (.setWe true) s = { s with weN := .hi, lastWeRise := some s.now } := by
    simp [effect, driveWe, Level.ofBool, hw]
  have hr : rclkRose s { s with weN := Level.hi, lastWeRise := some s.now } = false := rclkRose_same rfl
  have hre : weReaction D (eeInputs s) (eeInputs { s with weN := Level.hi, lastWeRise := some s.now })
      { s with weN := .hi, lastWeRise := some s.now } =
      .ok (latchByte D a { s with weN := .hi, lastWeRise := some s.now }) := by
    have h1 : (eeInputs s).weN = false := by simp [eeInputs, hw, Level.weSeen]
    have h2 : (eeInputs { s with weN := Level.hi, lastWeRise := some s.now }).weN = true := rfl
    rw [weReaction, h1, h2]
    exact weRising_latches (s := { s with weN := .hi, lastWeRise := some s.now }) hf ht ha
  have hok : eepromCheck D false (eeInputs s) (eeInputs { s with weN := Level.hi, lastWeRise := some s.now })
      { s with weN := .hi, lastWeRise := some s.now } =
      .ok (latchByte D a { s with weN := .hi, lastWeRise := some s.now }) :=
    eepromCheck_reaction hb (changedInputs_same (eeInputs s)) hre
  rw [actNow_ok (preCheck_none hd (roleCheck_lines hu true).2.2.2) (by rw [he, hr]; exact hok)]
  apply contentionCheck_none
  rw [← hc]
  rcases latchByte_cases D a { s with weN := Level.hi, lastWeRise := some s.now } with ⟨v, -, -, e⟩ | e <;> rw [e] <;>
    exact contention_congr (by simp) (by simp)

/-- SET_DATA_DIR (spec/40_pin_primitives.md R102): to the direction the pins have, or from a state whose inputs may change. -/
theorem actNow_setDataDir {D : Draws} {s : State} (hd : s.DelayOver) {d : Dir}
    (hs : s.dataDir = d ∨ (s.busy = none ∧ s.weN ≠ .lo)) (hc : d = .output → s.oeN = some true) :
    actNow D (.setDataDir d) s = driveDir d s := by
  have hp : preCheck (.setDataDir d) s = none := preCheck_none hd rfl
  have hcon : (driveDir d s).contention = false := contention_eq_false.2 (by simpa [State.oeN] using hc)
  rcases hs with h | ⟨hb, hw⟩
  · have he : driveDir d s = s := by simp [driveDir, ← h]
    exact actNow_quiet hp (by simp [effect, he]) (rclkRose_same (by simp [effect, he])) (by simpa [effect] using hcon)
  · have ho : (eeInputs s).weN = true := by cases h : s.weN <;> simp_all [eeInputs, Level.weSeen]
    have hr : rclkRose s (driveDir d s) = false := rclkRose_same (by simp)
    have hns : noteSelection false (eeInputs s) (eeInputs (driveDir d s)) (driveDir d s) = driveDir d s :=
      noteSelection_same (by simp [aChanged, eeInputs, State.addr]) (by simp [oeChanged, eeInputs, State.oeN])
    rw [actNow_ok (t := driveDir d s) hp, contentionCheck_none hcon]
    show eepromCheck D (rclkRose s (driveDir d s)) (eeInputs s) (eeInputs (driveDir d s)) (driveDir d s) = _
    rw [hr, eepromCheck_steady (by simpa using hb) ho (by simpa [eeInputs] using ho), hns]

/-- SET_DATA_PIN (spec/40_pin_primitives.md R103): the level the latch has, or from a state whose inputs may change. -/
theorem actNow_setDataPin {D : Draws} {s : State} (hd : s.DelayOver) (ho : s.dataDir = .output) {k : Fin 8} {l : Bool}
    (hs : (∀ v, s.dataOut = some v → setBit v k l = v) ∨ (s.busy = none ∧ s.weN ≠ .lo)) (hc : s.contention = false) :
    actNow D (.setDataPin k l) s = driveDataPin k l s := by
  have hp : preCheck (.setDataPin k l) s = none := preCheck_none hd (roleCheck_drive ho k l)
  have hcon : (driveDataPin k l s).contention = false := by rw [← hc]; exact contention_congr (by simp) (by simp)
  rcases hs with h | ⟨hb, hw⟩
  · have he : driveDataPin k l s = s := by
      cases hv : s.dataOut with
      | none => simp [driveDataPin, hv]; cases s; simp_all
      | some v => simp [driveDataPin, hv, h v hv]; cases s; simp_all
    exact actNow_quiet hp (by simp [effect, he]) (rclkRose_same (by simp [effect, he])) (by simpa [effect] using hcon)
  · have hw' : (eeInputs s).weN = true := by cases h : s.weN <;> simp_all [eeInputs, Level.weSeen]
    have hr : rclkRose s (driveDataPin k l s) = false := rclkRose_same (by simp)
    have hns : noteSelection false (eeInputs s) (eeInputs (driveDataPin k l s)) (driveDataPin k l s) =
        driveDataPin k l s :=
      noteSelection_same (by simp [aChanged, eeInputs, State.addr]) (by simp [oeChanged, eeInputs, State.oeN])
    rw [actNow_ok (t := driveDataPin k l s) hp, contentionCheck_none hcon]
    show eepromCheck D (rclkRose s (driveDataPin k l s)) (eeInputs s) (eeInputs (driveDataPin k l s))
      (driveDataPin k l s) = _
    rw [hr, eepromCheck_steady (by simpa using hb) hw' (by simpa [eeInputs] using hw'), hns]

theorem readableCell_eq {s : State} {a : Addr} (h1 : s.params.connected = true) (h2 : s.oeN = some false)
    (h3 : s.busy = none) (h4 : s.tSel + s.params.tAcc ≤ s.now) (h5 : s.addr = some a) : readableCell s = some a := by
  unfold readableCell
  rw [if_pos ⟨h1, h2, h3, by omega⟩, h5]

/-- The level of a line and the state after sampling it: a cell's bit, or a draw. -/
theorem ioLevel_cases (D : Draws) (k : Fin 8) (s : State) :
    (∃ a, readableCell s = some a ∧ ioLevel D k s = ((cellRead D s.cells a).getLsbD k, s)) ∨
    (readableCell s = none ∧ ioLevel D k s = (D.busBit s.draws, drew s)) := by
  unfold ioLevel
  cases h : readableCell s with
  | some a => exact .inl ⟨a, rfl, rfl⟩
  | none => exact .inr ⟨rfl, rfl⟩

theorem ioLevel_readable {D : Draws} {k : Fin 8} {s : State} {a : Addr} (h : readableCell s = some a) :
    ioLevel D k s = ((cellRead D s.cells a).getLsbD k, s) := by
  simp [ioLevel, h]

/-- Sampling leaves all but the draw counter alone. -/
theorem ioLevel_state (D : Draws) (k : Fin 8) (s : State) : (ioLevel D k s).2 = s ∨ (ioLevel D k s).2 = drew s := by
  rcases ioLevel_cases D k s with ⟨a, -, e⟩ | ⟨-, e⟩ <;> simp [e]

theorem actNow_readDataPin {D : Draws} {s : State} (hd : s.DelayOver) (hi : s.dataDir = .input) (k : Fin 8) :
    actNow D (.readDataPin k) s = samplePinOut D k s := by
  have hx := ioLevel_state D k s
  refine actNow_quiet (preCheck_none hd (roleCheck_sample hi k).1) ?_ (rclkRose_same ?_) (contention_input ?_) <;>
    simp only [effect, samplePinOut]
  · rcases hx with e | e <;> (rw [e]; rfl)
  · rcases hx with e | e <;> simp [e]
  · rcases hx with e | e <;> (rw [e]; exact hi)

theorem actNow_samplePin {D : Draws} {s : State} (hd : s.DelayOver) (hi : s.dataDir = .input) (k : Fin 8) :
    actNow D (.samplePin k) s = samplePinByte D k s := by
  have hx := ioLevel_state D k s
  refine actNow_quiet (preCheck_none hd (roleCheck_sample hi k).2) ?_ (rclkRose_same ?_) (contention_input ?_) <;>
    simp only [effect, samplePinByte]
  · rcases hx with e | e <;> (rw [e]; rfl)
  · rcases hx with e | e <;> simp [e]
  · rcases hx with e | e <;> (rw [e]; exact hi)

end Sys2Proof.Machine
end

