-- ==== Sys2Proof/Laws/Macro.lean ====
section
/-! SUPPORT. How operations run: what the common entry answers, how expansions compose, how a property is carried through one, and
what the expansion of `send` does. -/

namespace Sys2Proof.Machine

/-! ### The common entry -/

theorem gate_live {i : Instr} {s : State} (h : s.Live) (c : State) : gate i s c = .next c := by
  simp [gate, h.1, h.2]

/-- Everything the common entry can do when it answers a state. -/
theorem gate_next {i : Instr} {s c t : State} (h : gate i s c = .next t) :
    s.fault = none ∧ ((s.phase = .uninit ∧ t = raise (.notInitialised i) s) ∨ (s.phase ≠ .uninit ∧ t = c)) := by
  unfold gate at h
  split at h
  · cases h
  · next hf =>
    injection h with h
    by_cases hu : s.phase = .uninit
    · exact ⟨hf, .inl ⟨hu, by rw [← h, if_pos hu]⟩⟩
    · exact ⟨hf, .inr ⟨hu, by rw [← h, if_neg hu]⟩⟩

theorem runDirect_live {D : Draws} {i : Instr} {p : Prim} {s : State} (h : s.Live) :
    runDirect D i p s = .next (advancePc (primStep D p s)) := gate_live h _

theorem runMacro_live {D : Draws} {i : Instr} {ms : List Micro} {ph : Phase} {s : State} (h : s.Live) :
    runMacro D i none ms ph s = .next (completeMacro ph (runMicros D ms { s with micro := 0 })) := gate_live h _

theorem runMacro_refused {D : Draws} {i : Instr} {f : Raised} {ms : List Micro} {ph : Phase} {s : State} (h : s.Live) :
    runMacro D i (some f) ms ph s = .next (raise f s) := gate_live h _

theorem advancePc_safe {s : State} (h : s.fault = none) : advancePc s = { s with pc := s.pc + 1 } := by
  simp [advancePc, h]

theorem advanceMicro_safe {s : State} (h : s.fault = none) : advanceMicro s = { s with micro := s.micro + 1 } := by
  simp [advanceMicro, h]

theorem completeMacro_safe {s : State} (ph : Phase) (h : s.fault = none) :
    completeMacro ph s = { s with phase := ph, micro := 0, pc := s.pc + 1 } := by
  simp [completeMacro, h]

/-- A macro operation whose checks pass and whose expansion ends without a fault completes. -/
theorem runMacro_done {D : Draws} {i : Instr} {ms : List Micro} {ph : Phase} {s u : State} (h : s.Live)
    (he : runMicros D ms { s with micro := 0 } = u) (hu : u.fault = none) :
    runMacro D i none ms ph s = .next { u with phase := ph, micro := 0, pc := u.pc + 1 } := by
  rw [runMacro_live h, he, completeMacro_safe ph hu]

theorem rangeCheck_ok {n : Nat} (h : n ≤ 2047) : rangeCheck n = none := by
  simp [rangeCheck]
  omega

/-! ### Expansions -/

theorem runMicros_cons {D : Draws} {m : Micro} {ms : List Micro} {s : State} (h : (microStep D m s).fault = none) :
    runMicros D (m :: ms) s = runMicros D ms (microStep D m s) := by
  simp [runMicros, h]

theorem runMicros_cons_fault {D : Draws} {m : Micro} {ms : List Micro} {s : State} {f : Raised}
    (h : (microStep D m s).fault = some f) : runMicros D (m :: ms) s = microStep D m s := by
  simp [runMicros, h]

/-- A first part that ends without a fault is followed by the second. -/
theorem runMicros_append {D : Draws} {ms ns : List Micro} {s : State} (h : (runMicros D ms s).fault = none) :
    runMicros D (ms ++ ns) s = runMicros D ns (runMicros D ms s) := by
  induction ms generalizing s with
  | nil => rfl
  | cons m ms ih =>
    cases hm : (microStep D m s).fault with
    | some f => rw [runMicros_cons_fault hm, hm] at h; cases h
    | none =>
      rw [runMicros_cons hm] at h ⊢
      rw [List.cons_append, runMicros_cons hm]
      exact ih h

/-- A fault in a first part ends the expansion there (spec/60_exceptions.md R151). -/
theorem runMicros_append_fault {D : Draws} {ms ns : List Micro} {s : State} {f : Raised}
    (h : (runMicros D ms s).fault = some f) (hs : s.fault = none) : runMicros D (ms ++ ns) s = runMicros D ms s := by
  induction ms generalizing s with
  | nil => simp [runMicros, hs] at h
  | cons m ms ih =>
    rw [List.cons_append]
    cases hm : (microStep D m s).fault with
    | some f => rw [runMicros_cons_fault hm, runMicros_cons_fault hm]
    | none =>
      rw [runMicros_cons hm] at h ⊢
      rw [runMicros_cons hm]
      exact ih h hm

/-- A property every entry of an expansion keeps holds after the expansion. -/
theorem runMicros_keeps {D : Draws} {P : State → Prop} {ms : List Micro} {s : State}
    (hk : ∀ m ∈ ms, ∀ u, P u → P (microStep D m u)) (h : P s) : P (runMicros D ms s) := by
  induction ms generalizing s with
  | nil => exact h
  | cons m ms ih =>
    have h1 := hk m (by simp) s h
    cases hm : (microStep D m s).fault with
    | some f => rwa [runMicros_cons_fault hm]
    | none =>
      rw [runMicros_cons hm]
      exact ih (fun n hn => hk n (by simp [hn])) h1

/-! ### `send` -/

/-- What a primitive needs whatever it does: no fault, INIT has run, the write delay over, no contention. -/
structure Calm (s : State) : Prop where
  safe : s.fault = none
  inited : s.phase ≠ .uninit
  delay : s.DelayOver
  free : s.contention = false

theorem Calm.elapse {s : State} (D : Draws) (h : Calm s) : Calm (elapse D s) :=
  ⟨by simp [h.safe], by simp [h.inited], delayOver_elapse D h.delay, by simp [h.free]⟩

theorem microStep_prim {D : Draws} {p : Prim} {s t : State} (h : actNow D p (elapse D s) = t) (ht : t.fault = none) :
    microStep D (.prim p) s = { t with micro := t.micro + 1 } := by
  simp [microStep, primStep, h, advanceMicro_safe ht]

/-- One bit of the stream: SER carries it and the stage shifts it in (spec/41_shift_register_driver.md R121). -/
theorem runMicros_sendBit {D : Draws} {s : State} (h : Calm s) (hl : s.srclk = .lo) (b : Bool) :
    ∃ n y m, Passed s.busy s.cells y m ∧ runMicros D (sendBit b) s =
      { s with
        ser := Level.ofBool b, srclk := .lo, shift := shiftIn (some b) s.shift, now := s.now + n, draws := s.draws + 3,
        micro := s.micro + 3, busy := y, cells := m } := by
  let e := fun k => D.latency (s.draws + k)
  obtain ⟨y1, m1, p1, e1⟩ := elapse_passed D s
  let s1 : State := { s with
    ser := Level.ofBool b, now := s.now + e 0, draws := s.draws + 1, micro := s.micro + 1, busy := y1, cells := m1 }
  have h1 : microStep D (.prim (.setSer b)) s = s1 := by
    have hc := h.elapse D
    rw [microStep_prim (actNow_setSer hc.inited hc.delay hc.free b) (by simp [h.safe]), e1]
    rfl
  have c1 : Calm s1 := ⟨h.safe, h.inited, delayOver_later h.delay rfl rfl (by simp [s1]), h.free⟩
  obtain ⟨y2, m2, p2, e2⟩ := elapse_passed D s1
  let s2 : State := { s with
    ser := Level.ofBool b, srclk := .hi, shift := shiftIn (some b) s.shift, now := s.now + e 0 + e 1,
    draws := s.draws + 2, micro := s.micro + 2, busy := y2, cells := m2 }
  have h2 : microStep D (.prim (.setSrclk true)) s1 = s2 := by
    have hc := c1.elapse D
    rw [microStep_prim (actNow_setSrclk hc.inited hc.delay hc.free true) (by simp [s1, h.safe]), e2]
    cases b <;> simp [driveSrclk, hl, shiftEdge, Level.ofBool, Level.bit?, e, s1, s2]
  have c2 : Calm s2 := ⟨h.safe, h.inited, delayOver_later h.delay rfl rfl (by simp [s2]; omega), h.free⟩
  obtain ⟨y3, m3, p3, e3⟩ := elapse_passed D s2
  have h3 : microStep D (.prim (.setSrclk false)) s2 =
      { s with
        ser := Level.ofBool b, srclk := .lo, shift := shiftIn (some b) s.shift, now := s.now + (e 0 + e 1 + e 2),
        draws := s.draws + 3, micro := s.micro + 3, busy := y3, cells := m3 } := by
    have hc := c2.elapse D
    rw [microStep_prim (actNow_setSrclk hc.inited hc.delay hc.free false) (by simp [s2, h.safe]), e3]
    simp [driveSrclk, Level.ofBool, e, s2]
    omega
  refine ⟨e 0 + e 1 + e 2, y3, m3, (p1.trans p2).trans p3, ?_⟩
  rw [sendBit, runMicros_cons (by rw [h1]; exact h.safe), h1, runMicros_cons (by rw [h2]; exact h.safe), h2,
    runMicros_cons (by rw [h3]; exact h.safe), h3]
  rfl

/-- A whole stream of bits. -/
theorem runMicros_sendBits {D : Draws} (bits : List Bool) {s : State} (h : Calm s) (hl : s.srclk = .lo) :
    ∃ n y m, Passed s.busy s.cells y m ∧ runMicros D (bits.flatMap sendBit) s =
      { s with
        ser := bits.foldl (fun _ b => Level.ofBool b) s.ser
        shift := bits.foldl (fun u b => shiftIn (some b) u) s.shift
        now := s.now + n
        draws := s.draws + 3 * bits.length
        micro := s.micro + 3 * bits.length
        busy := y
        cells := m } := by
  induction bits generalizing s with
  | nil => exact ⟨0, s.busy, s.cells, .refl _ _, rfl⟩
  | cons b bits ih =>
    obtain ⟨n, y1, m1, p1, hn⟩ := runMicros_sendBit (D := D) h hl b
    have hc : Calm (runMicros D (sendBit b) s) := by
      rw [hn]; exact ⟨h.safe, h.inited, delayOver_later h.delay rfl rfl (by simp), h.free⟩
    obtain ⟨k, y2, m2, p2, hm⟩ := ih hc (by rw [hn])
    rw [hn] at p2
    refine ⟨n + k, y2, m2, p1.trans p2, ?_⟩
    rw [List.flatMap_cons, runMicros_append hc.safe, hm, hn]
    simp [hl, List.length_cons]
    omega

/-- The latch pulse (spec/41_shift_register_driver.md R121), where it changes no EEPROM input or the inputs may change. -/
theorem runMicros_latchPulse {D : Draws} {s : State} (h : Calm s) (hl : s.rclk = .lo)
    (hs : selects s s.shift = true → s.Steady) (hc : s.dataDir = .output → stageOeN s.shift = some true) :
    ∃ n k y m, k ≤ n ∧ Passed s.busy s.cells y m ∧ runMicros D latchPulse s =
      { s with
        rclk := .lo, store := s.shift, tSel := if selects s s.shift then s.now + k else s.tSel, now := s.now + n,
        draws := s.draws + 2, micro := s.micro + 2, busy := y, cells := m } := by
  let e := fun k => D.latency (s.draws + k)
  have hfree : (latchEdge s).contention = false := contention_eq_false.2 hc
  obtain ⟨y1, m1, p1, e1⟩ := elapse_passed D s
  let s1 : State := { s with
    rclk := .hi, store := s.shift, tSel := if selects s s.shift then s.now + e 0 else s.tSel, now := s.now + e 0,
    draws := s.draws + 1, micro := s.micro + 1, busy := y1, cells := m1 }
  have h1 : microStep D (.prim (.setRclk true)) s = s1 := by
    have hc' := h.elapse D
    have hfree' : (latchEdge (elapse D s)).contention = false := contention_eq_false.2 (by simpa [State.oeN] using hc)
    have hi : eeInputs (latchEdge (elapse D s)) = eeInputs { s with store := s.shift } := by
      simp [eeInputs, State.addr, State.oeN, State.busC]
    have hq : (aChanged true (eeInputs (elapse D s)) (eeInputs (latchEdge (elapse D s))) = false ∧
        oeChanged true (eeInputs (elapse D s)) (eeInputs (latchEdge (elapse D s))) = false) ∨
        ((elapse D s).busy = none ∧ (elapse D s).weN ≠ .lo) := by
      rw [elapse_eeInputs, hi]
      by_cases hx : selects s s.shift = true
      · exact .inr ⟨elapse_busy_none (hs hx).1, by simpa using (hs hx).2⟩
      · rw [selects, Bool.or_eq_true, not_or] at hx
        exact .inl ⟨by simpa using hx.1, by simpa using hx.2⟩
    rw [microStep_prim (actNow_latch (D := D) hc'.inited hc'.delay (by simpa using hl) hq hfree') (by simp [h.safe]),
      elapse_eeInputs, hi, e1, noteSelection]
    by_cases hx : selects s s.shift
    · have hx' := hx
      rw [selects] at hx'
      rw [if_pos hx']
      simp [s1, hx, e]
    · have hx' := hx
      rw [selects] at hx'
      rw [if_neg hx']
      simp [s1, hx, e]
  have c1 : Calm s1 := ⟨h.safe, h.inited, delayOver_later h.delay rfl rfl (by simp [s1]), hfree⟩
  obtain ⟨y2, m2, p2, e2⟩ := elapse_passed D s1
  have h2 : microStep D (.prim (.setRclk false)) s1 =
      { s with
        rclk := .lo, store := s.shift, tSel := if selects s s.shift then s.now + e 0 else s.tSel,
        now := s.now + (e 0 + e 1), draws := s.draws + 2, micro := s.micro + 2, busy := y2, cells := m2 } := by
    have hc' := c1.elapse D
    rw [microStep_prim (actNow_setRclk_level hc'.inited hc'.delay hc'.free (.inr rfl)) (by simp [s1, h.safe]), e2]
    simp [Level.ofBool, e, s1]
    omega
  refine ⟨e 0 + e 1, e 0, y2, m2, by omega, p1.trans p2, ?_⟩
  rw [latchPulse, runMicros_cons (by rw [h1]; exact h.safe), h1, runMicros_cons (by rw [h2]; exact h.safe), h2]
  rfl

/-- The whole expansion of `send(w)` (spec/41_shift_register_driver.md R121): both stages end with the word, and A and OE_n
changed at one instant, if at all. -/
theorem runMicros_send {D : Draws} {s : State} (h : Calm s) (hsr : s.srclk = .lo) (hr : s.rclk = .lo) (w : SrWord)
    (hs : selects s (wordStage w) = true → s.Steady) (hc : s.dataDir = .output → w.getLsbD 11 = true) :
    ∃ n k y m, k ≤ n ∧ Passed s.busy s.cells y m ∧ runMicros D (sendExpansion w) s =
      { s with
        ser := Level.ofBool (w.getLsbD 0), shift := wordStage w, store := wordStage w,
        tSel := if selects s (wordStage w) then s.now + k else s.tSel, now := s.now + n, draws := s.draws + 50,
        micro := s.micro + 50, busy := y, cells := m } := by
  obtain ⟨n, y1, m1, p1, hn⟩ := runMicros_sendBits (D := D) (serialBits w) h hsr
  have hser : (serialBits w).foldl (fun _ b => Level.ofBool b) s.ser = Level.ofBool (w.getLsbD 0) := rfl
  have hlen : (serialBits w).length = 16 := rfl
  rw [foldl_shiftIn_serialBits, hser, hlen] at hn
  have c1 : Calm (runMicros D ((serialBits w).flatMap sendBit) s) := by
    rw [hn]; exact ⟨h.safe, h.inited, delayOver_later h.delay rfl rfl (by simp), h.free⟩
  have hsel : selects (runMicros D ((serialBits w).flatMap sendBit) s) (wordStage w) = selects s (wordStage w) := by
    rw [hn]; rfl
  have hsh : (runMicros D ((serialBits w).flatMap sendBit) s).shift = wordStage w := by rw [hn]
  obtain ⟨k, j, y2, m2, hj, p2, hk⟩ := runMicros_latchPulse (D := D) c1 (by rw [hn]; exact hr)
    (by
      rw [hsh, hsel]
      intro hx
      rw [hn]
      have hb := (hs hx).1
      rw [hb] at p1
      exact ⟨p1.of_none.1, (hs hx).2⟩)
    (by rw [hsh, stageOeN_wordStage, hn]; intro ho; rw [hc ho])
  rw [hn] at p2
  refine ⟨n + k, n + j, y2, m2, by omega, p1.trans p2, ?_⟩
  rw [sendExpansion, runMicros_append c1.safe, hk, hsh, hsel, hn]
  simp [hr]
  by_cases hx : selects s (wordStage w) <;> simp [hx] <;> omega

end Sys2Proof.Machine
end

