-- ==== Sys2Proof/Laws/Bytes.lean ====
section
/-! SUPPORT. What driving and sampling a byte do (spec/42_eeprom_transactor.md R131, R132), from a state whose EEPROM inputs may change
and from one whose data pins are inputs. -/

namespace Sys2Proof.Machine

/-- Driving some value bits one after another. -/
theorem runMicros_drive {D : Draws} (m : PinMap) (v : Byte) (l : List (Fin 8)) {s : State} {u : Byte} (h : Calm s)
    (ho : s.dataDir = .output) (hs : s.Steady) (hu : s.dataOut = some u) :
    ∃ n, runMicros D (l.map fun i => .prim (.setDataPin (m.pin i) (v.getLsbD i))) s =
      { s with
        dataOut := some (l.foldl (fun p i => setBit p (m.pin i) (v.getLsbD i)) u)
        now := s.now + n, draws := s.draws + l.length, micro := s.micro + l.length } := by
  induction l generalizing s u with
  | nil => exact ⟨0, by simp [runMicros, ← hu]⟩
  | cons i l ih =>
    have hc := h.elapse D
    have h1 : microStep D (.prim (.setDataPin (m.pin i) (v.getLsbD i))) s = { s with
        dataOut := some (setBit u (m.pin i) (v.getLsbD i)), now := s.now + D.latency s.draws, draws := s.draws + 1,
        micro := s.micro + 1 } := by
      rw [microStep_prim (actNow_setDataPin hc.delay (by simpa using ho)
        (.inr ⟨elapse_busy_none hs.1, by simpa using hs.2⟩) hc.free) (by simp [h.safe]), elapse_idle hs.1]
      simp [driveDataPin, hu]
    obtain ⟨n, hn⟩ := ih (s := microStep D (.prim (.setDataPin (m.pin i) (v.getLsbD i))) s)
      (by rw [h1]; exact ⟨h.safe, h.inited, delayOver_later h.delay rfl rfl (by simp), h.free⟩)
      (by rw [h1]; exact ho) (by rw [h1]; exact hs) (by rw [h1])
    refine ⟨D.latency s.draws + n, ?_⟩
    rw [List.map_cons, runMicros_cons (by rw [h1]; exact h.safe), hn, h1]
    simp
    omega

/-- `driveByte(v)` leaves `pinLevels(v)` on the pins, whatever the latch held. -/
theorem runMicros_driveByte {D : Draws} (m : PinMap) (v : Byte) {s : State} (h : Calm s) (ho : s.dataDir = .output)
    (hs : s.Steady) (hu : s.dataOut ≠ none) :
    ∃ n, runMicros D (driveByte m v) s =
      { s with dataOut := some (pinLevels m v), now := s.now + n, draws := s.draws + 8, micro := s.micro + 8 } := by
  obtain ⟨u, hu⟩ := Option.ne_none_iff_exists'.1 hu
  obtain ⟨n, hn⟩ := runMicros_drive (D := D) m v valueBits h ho hs hu
  exact ⟨n, by rw [driveByte, hn, foldl_driveByte]; rfl⟩

/-- The data lines carry the byte of cell `a` (spec/20_memory.md R55). -/
structure Readable (s : State) (a : Addr) : Prop where
  connected : s.params.connected = true
  enabled : s.oeN = some false
  addressed : s.addr = some a
  idle : s.busy = none
  settled : s.tSel + s.params.tAcc ≤ s.now

/-- Sampling some value bits one after another. -/
theorem runMicros_sample {D : Draws} (m : PinMap) (l : List (Fin 8)) {s : State} (h : Calm s) (hi : s.dataDir = .input)
    (hb : s.busy = none) :
    ∃ n d q, s.draws ≤ d ∧ runMicros D (l.map fun i => .prim (.samplePin (m.pin i))) s =
        { s with sampled := q, now := s.now + n, draws := d, micro := s.micro + l.length } ∧
      ∀ a, Readable s a →
        q = l.foldl (fun q i => setBit q (m.pin i) ((cellRead D s.cells a).getLsbD (m.pin i))) s.sampled := by
  induction l generalizing s with
  | nil => exact ⟨0, s.draws, s.sampled, le_refl _, rfl, fun _ _ => rfl⟩
  | cons i l ih =>
    have hc := h.elapse D
    obtain ⟨d, b, hd, h1, hr⟩ : ∃ d b, s.draws ≤ d ∧ microStep D (.prim (.samplePin (m.pin i))) s =
        { s with
          sampled := setBit s.sampled (m.pin i) b, now := s.now + D.latency s.draws, draws := d, micro := s.micro + 1 } ∧
        ∀ a, Readable s a → b = (cellRead D s.cells a).getLsbD (m.pin i) := by
      rw [microStep_prim (actNow_samplePin hc.delay (by simpa using hi) _)
        (by rcases ioLevel_state D (m.pin i) (elapse D s) with e | e <;> simp [samplePinByte, e, h.safe])]
      have he := elapse_idle (D := D) hb
      rcases ioLevel_cases D (m.pin i) (elapse D s) with ⟨a, ha, e⟩ | ⟨ha, e⟩
      · refine ⟨s.draws + 1, (cellRead D s.cells a).getLsbD (m.pin i), by omega, ?_, fun a' ha' => ?_⟩
        · rw [samplePinByte, e]
          simp [he]
        · have : readableCell (elapse D s) = some a' := readableCell_eq (by simpa using ha'.connected)
            (by simpa using ha'.enabled) (elapse_busy_none hb) (by have := ha'.settled; simp; omega)
            (by simpa using ha'.addressed)
          rw [ha] at this
          cases this
          rfl
      · refine ⟨s.draws + 2, D.busBit (s.draws + 1), by omega, ?_, fun a' ha' => ?_⟩
        · rw [samplePinByte, e]
          simp [he, drew]
        · have : readableCell (elapse D s) = some a' := readableCell_eq (by simpa using ha'.connected)
            (by simpa using ha'.enabled) (elapse_busy_none hb) (by have := ha'.settled; simp; omega)
            (by simpa using ha'.addressed)
          rw [ha] at this
          cases this
    obtain ⟨n, d', q, hd', hn, hq⟩ := ih (s := microStep D (.prim (.samplePin (m.pin i))) s)
      (by rw [h1]; exact ⟨h.safe, h.inited, delayOver_later h.delay rfl rfl (by simp), h.free⟩)
      (by rw [h1]; exact hi) (by rw [h1]; exact hb)
    refine ⟨D.latency s.draws + n, d', q, ?_, ?_, fun a ha => ?_⟩
    · rw [h1] at hd'
      exact le_trans hd hd'
    · rw [List.map_cons, runMicros_cons (by rw [h1]; exact h.safe), hn, h1]
      simp
      omega
    · have := hq a (by
        rw [h1]
        exact ⟨ha.connected, ha.enabled, ha.addressed, ha.idle, Nat.le_trans ha.settled (Nat.le_add_right _ _)⟩)
      rw [this, h1, hr a ha]
      rfl

/-- `sampleByte()` assembles the addressed cell's byte, or some byte where the lines carry none. -/
theorem runMicros_sampleByte {D : Draws} (m : PinMap) {s : State} (h : Calm s) (hi : s.dataDir = .input)
    (hb : s.busy = none) :
    ∃ n d q, s.draws ≤ d ∧ runMicros D (sampleByte m) s =
        { s with sampled := q, now := s.now + n, draws := d, micro := s.micro + 8 } ∧
      ∀ a, Readable s a → q = cellRead D s.cells a := by
  obtain ⟨n, d, q, hd, hn, hq⟩ := runMicros_sample (D := D) m valueBits h hi hb
  exact ⟨n, d, q, hd, hn, fun a ha => by rw [hq a ha, foldl_sampleByte]⟩

end Sys2Proof.Machine
end

