-- ==== Sys2Proof/Laws/Frame.lean ====
section
/-! SUPPORT. What a primitive leaves alone, said once for every field: a field is unchanged if the effect leaves it, whatever the
checks answer. -/

namespace Sys2Proof.Machine

/-- What a reading of the state cannot see: a recorded fault, and what the EEPROM's reactions write. -/
structure Bystander {α : Type} (g : State → α) : Prop where
  raise : ∀ f s, g (raise f s) = g s
  tSel : ∀ s n, g { s with tSel := n } = g s
  weFall : ∀ s n, g { s with weFall := n } = g s
  cycle : ∀ a v s, g (openCycle a v s) = g s
  drew : ∀ s, g (drew s) = g s

theorem Bystander.noteSelection {α : Type} {g : State → α} (h : Bystander g) (l : Bool) (old new : EeInputs) (s : State) :
    g (noteSelection l old new s) = g s := by
  unfold Machine.noteSelection
  split
  · exact h.tSel _ _
  · rfl

theorem Bystander.weReaction {α : Type} {g : State → α} (h : Bystander g) {D : Draws} {old new : EeInputs} {s t : State}
    (he : weReaction D old new s = .ok t) : g t = g s := by
  unfold Machine.weReaction at he
  split at he
  · obtain ⟨-, -, rfl⟩ := weFalling_ok he
    exact h.weFall _ _
  · split at he
    · obtain ⟨tf, a, -, -, -, rfl⟩ := weRising_ok he
      rcases latchByte_cases D a s with ⟨v, -, -, e⟩ | e <;> rw [e, h.cycle]
      exact h.drew _
    · cases he; rfl

theorem Bystander.eepromCheck {α : Type} {g : State → α} (h : Bystander g) {D : Draws} {l : Bool} {old new : EeInputs}
    {s t : State} (he : eepromCheck D l old new s = .ok t) : g t = g s := by
  rcases eepromCheck_ok he with ⟨-, -, -, rfl⟩ | ⟨-, -, u, hu, rfl⟩
  · rfl
  · rw [h.noteSelection, h.weReaction hu]

theorem Bystander.contentionCheck {α : Type} {g : State → α} (h : Bystander g) (s : State) : g (contentionCheck s) = g s := by
  unfold Machine.contentionCheck
  split
  · exact h.raise _ _
  · rfl

/-- A reading the effect leaves alone is left alone by the primitive. -/
theorem Bystander.actNow {α : Type} {g : State → α} (h : Bystander g) {D : Draws} {p : Prim} {s : State}
    (he : g (effect D p s) = g s) : g (actNow D p s) = g s := by
  rcases actNow_cases D p s with ⟨f, e⟩ | ⟨-, t, ht, e⟩
  · rw [e, h.raise]
  · rw [e, h.contentionCheck, h.eepromCheck ht, he]

/-- A primitive that ends without a fault has had its effect: a reading sees the effect and nothing else. -/
theorem Bystander.committed {α : Type} {g : State → α} (h : Bystander g) {D : Draws} {p : Prim} {s : State}
    (hs : s.fault = none) (hf : (primStep D p s).fault = none) : g (primStep D p s) = g (effect D p (elapse D s)) := by
  rw [primStep] at hf ⊢
  rcases actNow_cases D p (elapse D s) with ⟨f, e⟩ | ⟨-, t, ht, e⟩
  · rw [e] at hf; simp [Machine.raise, hs] at hf
  · rw [e, h.contentionCheck, h.eepromCheck ht]

theorem bystander_ser : Bystander State.ser := ⟨fun _ _ => rfl, fun _ _ => rfl, fun _ _ => rfl, fun _ _ _ => rfl, fun _ => rfl⟩
theorem bystander_srclk : Bystander State.srclk :=
  ⟨fun _ _ => rfl, fun _ _ => rfl, fun _ _ => rfl, fun _ _ _ => rfl, fun _ => rfl⟩
theorem bystander_rclk : Bystander State.rclk :=
  ⟨fun _ _ => rfl, fun _ _ => rfl, fun _ _ => rfl, fun _ _ _ => rfl, fun _ => rfl⟩
theorem bystander_weN : Bystander State.weN := ⟨fun _ _ => rfl, fun _ _ => rfl, fun _ _ => rfl, fun _ _ _ => rfl, fun _ => rfl⟩
theorem bystander_dataDir : Bystander State.dataDir :=
  ⟨fun _ _ => rfl, fun _ _ => rfl, fun _ _ => rfl, fun _ _ _ => rfl, fun _ => rfl⟩
theorem bystander_dataOut : Bystander State.dataOut :=
  ⟨fun _ _ => rfl, fun _ _ => rfl, fun _ _ => rfl, fun _ _ _ => rfl, fun _ => rfl⟩
theorem bystander_phase : Bystander State.phase :=
  ⟨fun _ _ => rfl, fun _ _ => rfl, fun _ _ => rfl, fun _ _ _ => rfl, fun _ => rfl⟩
theorem bystander_pc : Bystander State.pc := ⟨fun _ _ => rfl, fun _ _ => rfl, fun _ _ => rfl, fun _ _ _ => rfl, fun _ => rfl⟩
theorem bystander_micro : Bystander State.micro :=
  ⟨fun _ _ => rfl, fun _ _ => rfl, fun _ _ => rfl, fun _ _ _ => rfl, fun _ => rfl⟩
theorem bystander_lastWeRise : Bystander State.lastWeRise :=
  ⟨fun _ _ => rfl, fun _ _ => rfl, fun _ _ => rfl, fun _ _ _ => rfl, fun _ => rfl⟩
theorem bystander_out : Bystander State.out := ⟨fun _ _ => rfl, fun _ _ => rfl, fun _ _ => rfl, fun _ _ _ => rfl, fun _ => rfl⟩
theorem bystander_shift : Bystander State.shift :=
  ⟨fun _ _ => rfl, fun _ _ => rfl, fun _ _ => rfl, fun _ _ _ => rfl, fun _ => rfl⟩
theorem bystander_store : Bystander State.store :=
  ⟨fun _ _ => rfl, fun _ _ => rfl, fun _ _ => rfl, fun _ _ _ => rfl, fun _ => rfl⟩
theorem bystander_cells : Bystander State.cells :=
  ⟨fun _ _ => rfl, fun _ _ => rfl, fun _ _ => rfl, fun _ _ _ => rfl, fun _ => rfl⟩
theorem bystander_now : Bystander State.now := ⟨fun _ _ => rfl, fun _ _ => rfl, fun _ _ => rfl, fun _ _ _ => rfl, fun _ => rfl⟩
theorem bystander_program : Bystander State.program :=
  ⟨fun _ _ => rfl, fun _ _ => rfl, fun _ _ => rfl, fun _ _ _ => rfl, fun _ => rfl⟩
theorem bystander_params : Bystander State.params :=
  ⟨fun _ _ => rfl, fun _ _ => rfl, fun _ _ => rfl, fun _ _ _ => rfl, fun _ => rfl⟩
theorem bystander_sampled : Bystander State.sampled :=
  ⟨fun _ _ => rfl, fun _ _ => rfl, fun _ _ => rfl, fun _ _ _ => rfl, fun _ => rfl⟩

/-- Sampling shows nothing of the state that the draw counter does not. -/
theorem Bystander.ioLevel {α : Type} {g : State → α} (h : Bystander g) (D : Draws) (k : Fin 8) (s : State) :
    g (ioLevel D k s).2 = g s := by
  rcases ioLevel_state D k s with e | e <;> rw [e]
  exact h.drew _

/-! ### A primitive writes only what its rule names (spec/40_pin_primitives.md R97) -/

theorem effect_ser {D : Draws} {p : Prim} {s : State} (h : ∀ l, p ≠ .setSer l) : (effect D p s).ser = s.ser := by
  have hx := fun k => bystander_ser.ioLevel D k s
  cases p <;> simp [effect, samplePinOut, samplePinByte, waitFor, hx]
  simp at h

theorem primStep_ser {D : Draws} {p : Prim} {s : State} (h : ∀ l, p ≠ .setSer l) : (primStep D p s).ser = s.ser := by
  rw [primStep, bystander_ser.actNow (effect_ser h), elapse_ser]

theorem effect_srclk {D : Draws} {p : Prim} {s : State} (h : ∀ l, p ≠ .setSrclk l) : (effect D p s).srclk = s.srclk := by
  have hx := fun k => bystander_srclk.ioLevel D k s
  cases p <;> simp [effect, samplePinOut, samplePinByte, waitFor, hx]
  simp at h

theorem primStep_srclk {D : Draws} {p : Prim} {s : State} (h : ∀ l, p ≠ .setSrclk l) : (primStep D p s).srclk = s.srclk := by
  rw [primStep, bystander_srclk.actNow (effect_srclk h), elapse_srclk]

theorem effect_rclk {D : Draws} {p : Prim} {s : State} (h : ∀ l, p ≠ .setRclk l) : (effect D p s).rclk = s.rclk := by
  have hx := fun k => bystander_rclk.ioLevel D k s
  cases p <;> simp [effect, samplePinOut, samplePinByte, waitFor, hx]
  simp at h

theorem primStep_rclk {D : Draws} {p : Prim} {s : State} (h : ∀ l, p ≠ .setRclk l) : (primStep D p s).rclk = s.rclk := by
  rw [primStep, bystander_rclk.actNow (effect_rclk h), elapse_rclk]

theorem effect_weN {D : Draws} {p : Prim} {s : State} (h : ∀ l, p ≠ .setWe l) : (effect D p s).weN = s.weN := by
  have hx := fun k => bystander_weN.ioLevel D k s
  cases p <;> simp [effect, samplePinOut, samplePinByte, waitFor, hx]
  simp at h

theorem primStep_weN {D : Draws} {p : Prim} {s : State} (h : ∀ l, p ≠ .setWe l) : (primStep D p s).weN = s.weN := by
  rw [primStep, bystander_weN.actNow (effect_weN h), elapse_weN]

theorem effect_dataDir {D : Draws} {p : Prim} {s : State} (h : ∀ d, p ≠ .setDataDir d) : (effect D p s).dataDir = s.dataDir := by
  have hx := fun k => bystander_dataDir.ioLevel D k s
  cases p <;> simp [effect, samplePinOut, samplePinByte, waitFor, hx]
  simp at h

theorem primStep_dataDir {D : Draws} {p : Prim} {s : State} (h : ∀ d, p ≠ .setDataDir d) : (primStep D p s).dataDir = s.dataDir := by
  rw [primStep, bystander_dataDir.actNow (effect_dataDir h), elapse_dataDir]

theorem effect_dataOut {D : Draws} {p : Prim} {s : State} (h : ∀ k l, p ≠ .setDataPin k l) : (effect D p s).dataOut = s.dataOut := by
  have hx := fun k => bystander_dataOut.ioLevel D k s
  cases p <;> simp [effect, samplePinOut, samplePinByte, waitFor, hx]
  simp at h

theorem primStep_dataOut {D : Draws} {p : Prim} {s : State} (h : ∀ k l, p ≠ .setDataPin k l) : (primStep D p s).dataOut = s.dataOut := by
  rw [primStep, bystander_dataOut.actNow (effect_dataOut h), elapse_dataOut]

theorem effect_lastWeRise {D : Draws} {p : Prim} {s : State} (h : ∀ l, p ≠ .setWe l) : (effect D p s).lastWeRise = s.lastWeRise := by
  have hx := fun k => bystander_lastWeRise.ioLevel D k s
  cases p <;> simp [effect, samplePinOut, samplePinByte, waitFor, hx]
  simp at h

theorem primStep_lastWeRise {D : Draws} {p : Prim} {s : State} (h : ∀ l, p ≠ .setWe l) : (primStep D p s).lastWeRise = s.lastWeRise := by
  rw [primStep, bystander_lastWeRise.actNow (effect_lastWeRise h), elapse_lastWeRise]

theorem effect_out {D : Draws} {p : Prim} {s : State} (h : ∀ k, p ≠ .readDataPin k) : (effect D p s).out = s.out := by
  have hx := fun k => bystander_out.ioLevel D k s
  cases p <;> simp [effect, samplePinOut, samplePinByte, waitFor, hx]
  simp at h

theorem primStep_out {D : Draws} {p : Prim} {s : State} (h : ∀ k, p ≠ .readDataPin k) : (primStep D p s).out = s.out := by
  rw [primStep, bystander_out.actNow (effect_out h), elapse_out]

theorem effect_shift {D : Draws} {p : Prim} {s : State} (h : ∀ l, p ≠ .setSrclk l) : (effect D p s).shift = s.shift := by
  have hx := fun k => bystander_shift.ioLevel D k s
  cases p <;> simp [effect, samplePinOut, samplePinByte, waitFor, hx]
  simp at h

theorem primStep_shift {D : Draws} {p : Prim} {s : State} (h : ∀ l, p ≠ .setSrclk l) : (primStep D p s).shift = s.shift := by
  rw [primStep, bystander_shift.actNow (effect_shift h), elapse_shift]

theorem effect_store {D : Draws} {p : Prim} {s : State} (h : ∀ l, p ≠ .setRclk l) : (effect D p s).store = s.store := by
  have hx := fun k => bystander_store.ioLevel D k s
  cases p <;> simp [effect, samplePinOut, samplePinByte, waitFor, hx]
  simp at h

theorem primStep_store {D : Draws} {p : Prim} {s : State} (h : ∀ l, p ≠ .setRclk l) : (primStep D p s).store = s.store := by
  rw [primStep, bystander_store.actNow (effect_store h), elapse_store]

theorem effect_sampled {D : Draws} {p : Prim} {s : State} (h : ∀ k, p ≠ .samplePin k) : (effect D p s).sampled = s.sampled := by
  have hx := fun k => bystander_sampled.ioLevel D k s
  cases p <;> simp [effect, samplePinOut, samplePinByte, waitFor, hx]
  simp at h

theorem primStep_sampled {D : Draws} {p : Prim} {s : State} (h : ∀ k, p ≠ .samplePin k) : (primStep D p s).sampled = s.sampled := by
  rw [primStep, bystander_sampled.actNow (effect_sampled h), elapse_sampled]

theorem effect_phase (D : Draws) (p : Prim) (s : State) : (effect D p s).phase = s.phase := by
  have hx := fun k => bystander_phase.ioLevel D k s
  cases p <;> simp [effect, samplePinOut, samplePinByte, waitFor, hx]

@[simp] theorem primStep_phase (D : Draws) (p : Prim) (s : State) : (primStep D p s).phase = s.phase := by
  rw [primStep, bystander_phase.actNow (effect_phase D p _), elapse_phase]

theorem effect_pc (D : Draws) (p : Prim) (s : State) : (effect D p s).pc = s.pc := by
  have hx := fun k => bystander_pc.ioLevel D k s
  cases p <;> simp [effect, samplePinOut, samplePinByte, waitFor, hx]

@[simp] theorem primStep_pc (D : Draws) (p : Prim) (s : State) : (primStep D p s).pc = s.pc := by
  rw [primStep, bystander_pc.actNow (effect_pc D p _), elapse_pc]

theorem effect_micro (D : Draws) (p : Prim) (s : State) : (effect D p s).micro = s.micro := by
  have hx := fun k => bystander_micro.ioLevel D k s
  cases p <;> simp [effect, samplePinOut, samplePinByte, waitFor, hx]

@[simp] theorem primStep_micro (D : Draws) (p : Prim) (s : State) : (primStep D p s).micro = s.micro := by
  rw [primStep, bystander_micro.actNow (effect_micro D p _), elapse_micro]

theorem effect_program (D : Draws) (p : Prim) (s : State) : (effect D p s).program = s.program := by
  have hx := fun k => bystander_program.ioLevel D k s
  cases p <;> simp [effect, samplePinOut, samplePinByte, waitFor, hx]

@[simp] theorem primStep_program (D : Draws) (p : Prim) (s : State) : (primStep D p s).program = s.program := by
  rw [primStep, bystander_program.actNow (effect_program D p _), elapse_program]

theorem effect_params (D : Draws) (p : Prim) (s : State) : (effect D p s).params = s.params := by
  have hx := fun k => bystander_params.ioLevel D k s
  cases p <;> simp [effect, samplePinOut, samplePinByte, waitFor, hx]

@[simp] theorem primStep_params (D : Draws) (p : Prim) (s : State) : (primStep D p s).params = s.params := by
  rw [primStep, bystander_params.actNow (effect_params D p _), elapse_params]

end Sys2Proof.Machine
end

