-- ==== Sys2Proof/Laws/PerInstr.lean ====
section
/-! SUPPORT. For every operation: the word `encode` gives it is spelled by its row of spec/30_encoding.md R82, and the row reads the
operation back from it with every field. -/

namespace Sys2Proof.Laws.EncodeSpellsRow

/-- The word of `i` is spelled by a row that reads `i` from it. -/
def Statement (i : Instr) : Prop := ∃ r ∈ rows, r.spells (encode i) = true ∧ r.read (encode i) = i

theorem init : Statement .init := by
  refine ⟨_, List.mem_of_getElem? (i := 0) rfl, ?_⟩
  decide

theorem setSer (l : Bool) : Statement (.setSer l) := by
  refine ⟨_, List.mem_of_getElem? (i := 1) rfl, ?_⟩
  revert l
  decide

theorem setSrclk (l : Bool) : Statement (.setSrclk l) := by
  refine ⟨_, List.mem_of_getElem? (i := 2) rfl, ?_⟩
  revert l
  decide

theorem setRclk (l : Bool) : Statement (.setRclk l) := by
  refine ⟨_, List.mem_of_getElem? (i := 3) rfl, ?_⟩
  revert l
  decide

theorem setWe (l : Bool) : Statement (.setWe l) := by
  refine ⟨_, List.mem_of_getElem? (i := 4) rfl, ?_⟩
  revert l
  decide

theorem setDataDir (d : Dir) : Statement (.setDataDir d) := by
  refine ⟨_, List.mem_of_getElem? (i := 5) rfl, ?_⟩
  cases d <;> decide

theorem setDataPin (k : Fin 8) (l : Bool) : Statement (.setDataPin k l) := by
  refine ⟨_, List.mem_of_getElem? (i := 6) rfl, ?_⟩
  revert k l
  decide

theorem readDataPin (k : Fin 8) : Statement (.readDataPin k) := by
  refine ⟨_, List.mem_of_getElem? (i := 7) rfl, ?_⟩
  revert k
  decide

theorem wait (t : BitVec 28) : Statement (.wait t) := by
  refine ⟨_, List.mem_of_getElem? (i := 8) rfl, ?_, ?_⟩
  · simp only [Row.spells, encode, beq_iff_eq]
    refine BitVec.eq_of_getLsbD_eq fun i hi => ?_
    interval_cases i <;> simp
  · simp only [encode]
    congr 1
    refine BitVec.eq_of_getLsbD_eq fun i hi => ?_
    interval_cases i <;> simp

theorem send (w : SrWord) : Statement (.send w) := by
  refine ⟨_, List.mem_of_getElem? (i := 9) rfl, ?_, ?_⟩
  · simp only [Row.spells, encode, beq_iff_eq]
    refine BitVec.eq_of_getLsbD_eq fun i hi => ?_
    interval_cases i <;> simp
  · simp only [encode]
    congr 1
    refine BitVec.eq_of_getLsbD_eq fun i hi => ?_
    interval_cases i <;> simp

theorem select (o : Bool) (a : BitVec 16) : Statement (.select o a) := by
  refine ⟨_, List.mem_of_getElem? (i := 10) rfl, ?_, ?_⟩
  · simp only [Row.spells, encode, beq_iff_eq]
    cases o <;> refine BitVec.eq_of_getLsbD_eq fun i hi => ?_
    all_goals interval_cases i <;> simp [levelBits]
  · simp only [encode]
    congr 1
    · cases o <;> simp [levelField, levelBits]
    · refine BitVec.eq_of_getLsbD_eq fun i hi => ?_
      interval_cases i <;> simp [levelBits]

theorem writeByte (v : Byte) (a : BitVec 16) : Statement (.writeByte v a) := by
  refine ⟨_, List.mem_of_getElem? (i := 11) rfl, ?_, ?_⟩
  · simp only [Row.spells, encode, beq_iff_eq]
    refine BitVec.eq_of_getLsbD_eq fun i hi => ?_
    interval_cases i <;> simp
  · simp only [encode]
    congr 1
    · refine BitVec.eq_of_getLsbD_eq fun i hi => ?_
      interval_cases i <;> simp
    · refine BitVec.eq_of_getLsbD_eq fun i hi => ?_
      interval_cases i <;> simp

theorem readByte (a : BitVec 16) : Statement (.readByte a) := by
  refine ⟨_, List.mem_of_getElem? (i := 12) rfl, ?_, ?_⟩
  · simp only [Row.spells, encode, beq_iff_eq]
    refine BitVec.eq_of_getLsbD_eq fun i hi => ?_
    interval_cases i <;> simp
  · simp only [encode]
    congr 1
    refine BitVec.eq_of_getLsbD_eq fun i hi => ?_
    interval_cases i <;> simp

theorem dumpRange (f : BitVec 12) (u : BitVec 12) : Statement (.dumpRange f u) := by
  refine ⟨_, List.mem_of_getElem? (i := 13) rfl, ?_, ?_⟩
  · simp only [Row.spells, encode, beq_iff_eq]
    refine BitVec.eq_of_getLsbD_eq fun i hi => ?_
    interval_cases i <;> simp
  · simp only [encode]
    congr 1
    · refine BitVec.eq_of_getLsbD_eq fun i hi => ?_
      interval_cases i <;> simp
    · refine BitVec.eq_of_getLsbD_eq fun i hi => ?_
      interval_cases i <;> simp

end Sys2Proof.Laws.EncodeSpellsRow
end

