-- ==== Sys2Proof/Tests/Slice0.lean ====
section
/-! SUPPORT. Tests: the checks of the calls, the words of spec/95_test_vectors.md V3, its vectors for each operation (one step each,
with the latency draws 0 that part 2 of that file takes), and for every statement with hypotheses a state and operands that meet
them. -/

namespace Sys2Proof.Tests

open Sys2Proof.Machine

/-! ### WellFormed: one ill-formed call per check (spec/30_encoding.md R83, spec/42_eeprom_transactor.md R135) -/

theorem test_illFormed_level : (Call.setSer 2).wellFormed = false ∧ (Call.setSrclk 2).wellFormed = false ∧
    (Call.setRclk 2).wellFormed = false ∧ (Call.setWe 2).wellFormed = false ∧ (Call.setDataPin 0 2).wellFormed = false := by
  decide
theorem test_illFormed_pin : (Call.setDataPin 8 1).wellFormed = false ∧ (Call.readDataPin 8).wellFormed = false := by decide
theorem test_illFormed_time : (Call.wait 268435456).wellFormed = false := by decide
theorem test_illFormed_word : (Call.send 65536).wellFormed = false := by decide
theorem test_illFormed_address : (Call.selectAddress 65536 true).wellFormed = false ∧
    (Call.writeByte 65536 0).wellFormed = false ∧ (Call.readByte 65536).wellFormed = false := by decide
theorem test_illFormed_byte : (Call.writeByte 0 256).wellFormed = false := by decide
theorem test_illFormed_range : (Call.dumpRange 4096 0).wellFormed = false ∧ (Call.dumpRange 0 4096).wellFormed = false := by
  decide
theorem test_wellFormed_top : (Call.wait 268435455).wellFormed = true ∧ (Call.send 65535).wellFormed = true ∧
    (Call.setDataPin 7 1).wellFormed = true ∧ (Call.writeByte 65535 255).wellFormed = true ∧
    (Call.dumpRange 4095 4095).wellFormed = true := by decide
/-- Out-of-range addresses are spelled and refused by the operation (R83). -/
theorem test_argsOutOfRange : (Instr.writeByte 0 2048).argsInRange = false ∧ (Instr.select false 4000).argsInRange = false ∧
    (Instr.readByte 2047).argsInRange = true ∧ (Instr.dumpRange 0 2048).argsInRange = false ∧
    (Instr.dumpRange 2048 0).argsInRange = false := by decide

/-! ### The caller's texts (spec/30_encoding.md R86, R87; E7 and V3 of spec/95_test_vectors.md) -/

theorem test_text_writes : transcribeProgram "writeByte(0,0x7E); writeByte(1,0x12); writeByte(2,0xBC)".toList =
    some [.writeByte 0x7E 0, .writeByte 0x12 1, .writeByte 0xBC 2] := by decide
theorem test_text_times : transcribe "wait(1us)".toList = some (.wait 1000) ∧
    transcribe "wait(10ms)".toList = some (.wait 10000000) := by decide
theorem test_text_select : transcribe "selectAddress(0x555, false)".toList = some (.select false 0x555) := by decide
theorem test_text_dir : transcribe "setDataDir(Out)".toList = some (.setDataDir .output) := by decide
theorem test_text_wide : transcribe "writeByte(0, 256)".toList = none := by decide

/-! ### Decoding: words of V3, written out from R82's patterns -/

theorem test_decode_init : decode 0b00000000000000000000000000000000#32 = .ok .init := by decide
theorem test_decode_setSer : decode 0b00010000000000000000000000000001#32 = .ok (.setSer true) := by decide
theorem test_decode_setSrclk : decode 0b00100000000000000000000000000001#32 = .ok (.setSrclk true) := by decide
theorem test_decode_setRclk : decode 0b00110000000000000000000000000000#32 = .ok (.setRclk false) := by decide
theorem test_decode_setWe : decode 0b01000000000000000000000000000000#32 = .ok (.setWe false) := by decide
theorem test_decode_setDataDir : decode 0b01010000000000000000000000000001#32 = .ok (.setDataDir .output) := by decide
theorem test_decode_setDataPin : decode 0b01100000000000000000011000000001#32 = .ok (.setDataPin 6 true) := by decide
theorem test_decode_readDataPin : decode 0b01110000000000000000001100000000#32 = .ok (.readDataPin 3) := by decide
theorem test_decode_wait : decode 0b10000000100110001001011010000000#32 = .ok (.wait 10000000) := by decide
theorem test_decode_send : decode 0b10010000000000001010101111001101#32 = .ok (.send 0xABCD) := by decide
theorem test_decode_select : decode 0b10100000000000010000000000000101#32 = .ok (.select true 5) := by decide
theorem test_decode_writeByte : decode 0b10110000000100100000000000000001#32 = .ok (.writeByte 0x12 1) := by decide
theorem test_decode_readByte : decode 0b11000000000000000000011111111111#32 = .ok (.readByte 2047) := by decide
theorem test_decode_dumpRange : decode 0b11010000000000000000000000000010#32 = .ok (.dumpRange 0 2) := by decide

/-- The reserved words of V3. -/
theorem test_decode_reserved : decode 0xE0000000#32 = .error .reservedOp ∧ decode 0xF1234567#32 = .error .reservedOp := by decide
/-- The must-be-zero words of V3. -/
theorem test_decode_mustBeZero : decode 0x00000001#32 = .error .mustBeZero ∧ decode 0x10000002#32 = .error .mustBeZero ∧
    decode 0x60000180#32 = .error .mustBeZero ∧ decode 0x70000001#32 = .error .mustBeZero ∧
    decode 0xA0020000#32 = .error .mustBeZero ∧ decode 0xB1000000#32 = .error .mustBeZero ∧
    decode 0xD0001000#32 = .error .mustBeZero := by decide

/-! ### Pure functions: V1, V2, E4 -/

theorem test_packWord : packWord 0x555 true = 0x0555 ∧ packWord 0x555 false = 0x0D55 ∧ packWord 2047 false = 0x0FFF ∧
    packWord 0 false = 0x0800 := by decide
theorem test_pinLevels : pinLevels defaultPinMap 0x12 = 0x48 ∧ pinLevels defaultPinMap 0xBC = 0x3D ∧
    pinLevels defaultPinMap 0x0F = 0xF0 ∧ unpack defaultPinMap 0x48 = 0x12 := by decide
/-- The rotation map of V2. -/
theorem test_pinLevels_rotation : (PinMap.check [4, 5, 6, 7, 0, 1, 2, 3]).map (fun m => pinLevels m 0xBC) = some 0xCB := by decide
theorem test_pinMap_refused : PinMap.check [0, 0, 0, 0, 0, 0, 0, 0] = none := by decide
theorem test_serialBits : serialBits 0xABCD =
    [true, false, true, false, true, false, true, true, true, true, false, false, true, true, false, true] := by decide

/-! ### Helpers: small states and the draws of part 2 of spec/95_test_vectors.md -/

/-- Latency 0 throughout; the other draws are any values. -/
def D0 : Draws := ⟨fun _ => 0, fun _ => true, fun _ => 0xAA#8, fun _ => 0x55#8, fun _ => 0x81#8⟩

/-- "After INIT" of spec/95_test_vectors.md. -/
def ready : State :=
  { State.reset with
    ser := .lo, srclk := .lo, rclk := .lo, weN := .hi, dataOut := some 0x00, phase := .idle
    params := paramsWith 100 5000000 200 }

/-- The reset state with the vectors' parameters. -/
def fresh : State := { State.reset with params := paramsWith 100 5000000 200 }

/-- After INIT with a word latched. -/
def latched (w : SrWord) : State := { ready with shift := wordStage w, store := wordStage w }

/-- A write pulse on cell 1, its byte driven, WE_n low since 5000 (P-12). -/
def pulsing : State :=
  { latched 0x0801 with dataDir := .output, dataOut := some 0x48, weN := .lo, weFall := some 5000, now := 5000 }

/-- A write cycle of 12 ms on cell 0 after the controller's delay (P-7, P-8). -/
def writing : State :=
  { latched 0x0800 with
    params := paramsWith 100 12000000 200, busy := some ⟨0, 0x80, 12001000⟩, lastWeRise := some 1000, now := 10001000 }

/-- A state read off an outcome. -/
def after {α : Type} (o : Outcome) (g : State → α) : Option α :=
  match o with
  | .next t => some (g t)
  | _ => none

/-! ### INIT: T-1, T-2 -/

theorem test_init : runInit D0 fresh = { ready with pc := 1, draws := 1 } := by decide
theorem test_init_again : after (execInit ready) State.fault = some (some (.illegalCommand 0)) := by decide

/-! ### Primitives: V4 -/

/-- P-1. -/
theorem test_setSer : after (runDirect D0 (.setSer true) (.setSer true) ready) (fun t => (t.ser, t.shift, t.fault)) =
    some (.hi, Vector.replicate 16 none, none) := by decide
/-- P-28. -/
theorem test_setSer_uninit : after (execSetSer true fresh) State.fault = some (some (.notInitialised (.setSer true))) := by decide
/-- P-3: bit 15 leaves the chain. -/
theorem test_setSrclk : after (runDirect D0 (.setSrclk true) (.setSrclk true) (latched 0x8001)) State.shift =
    some (wordStage 0x0002) := by decide
/-- P-4: no edge. -/
theorem test_setSrclk_high : after (runDirect D0 (.setSrclk true) (.setSrclk true) { latched 0x0001 with srclk := .hi })
    State.shift = some (wordStage 0x0001) := by decide
/-- P-6: the storage stage was unknown. -/
theorem test_setRclk : after (runDirect D0 (.setRclk true) (.setRclk true) { ready with shift := wordStage 0x0D55, now := 7 })
    (fun t => (t.addr, t.oeN, t.tSel, t.fault)) = some (some 0x555, some true, 7, none) := by decide
/-- P-8. -/
theorem test_setRclk_busy : after (runDirect D0 (.setRclk true) (.setRclk true) { writing with shift := wordStage 0x0801 })
    (fun t => (t.fault, t.store)) = some (some (.writeCycleViolation ⟨0, 0x80, 12001000⟩), wordStage 0x0800) := by
  decide
/-- P-12. -/
theorem test_setWe_rise : after (runDirect D0 (.setWe true) (.setWe true) { pulsing with now := 6000 })
    (fun t => (t.busy, t.lastWeRise, t.weFall)) = some (some ⟨1, 0x48, 5006000⟩, some 6000, none) := by decide
/-- P-9. -/
theorem test_setWe_unselected : after (runDirect D0 (.setWe false) (.setWe false) ready) (fun t => (t.fault, t.weN)) =
    some (some (.writeSelectInvalid none none), .hi) := by decide
/-- P-15. -/
theorem test_setDataDir : after (runDirect D0 (.setDataDir .output) (.setDataDir .output)
    { latched 0x0800 with dataOut := some 0x48 }) (fun t => (t.busC, t.fault)) = some (.driven (some 0x48), none) := by
  decide
/-- P-14: OE_n unknown. -/
theorem test_setDataDir_contention : after (runDirect D0 (.setDataDir .output) (.setDataDir .output) ready)
    (fun t => (t.fault, t.dataDir)) = some (some (.busContention none none), .output) := by decide
/-- P-18. -/
theorem test_setDataPin : after (runDirect D0 (.setDataPin 6 true) (.setDataPin 6 true)
    { latched 0x0800 with dataDir := .output }) State.dataOut = some (some 0x40) := by decide
/-- P-19. -/
theorem test_setDataPin_unstable : after (runDirect D0 (.setDataPin 3 true) (.setDataPin 3 true)
    { pulsing with dataOut := some 0 }) (fun t => (t.fault, t.dataOut)) =
    some (some (.writeSignalsUnstable [.dataBus]), some 0) := by decide
/-- P-22. -/
theorem test_readDataPin : after (runDirect D0 (.readDataPin 3) (.readDataPin 3)
    { latched 0x0001 with cells := [(1, 0x48)], now := 200 }) State.out = some [.bit 3 true] := by decide
/-- P-21. -/
theorem test_readDataPin_driving : after (runDirect D0 (.readDataPin 0) (.readDataPin 0)
    { latched 0x0800 with dataDir := .output }) (fun t => (t.fault, t.out)) = some (some (.readWhileDriving 0), []) := by
  decide
/-- P-25. -/
theorem test_wait : after (runDirect D0 (.wait 10000000) (.wait 10000000)
    { ready with busy := some ⟨2, 0x3D, 10000500⟩, now := 1000 }) (fun t => (t.now, t.cells, t.busy)) =
    some (10001000, [(2, 0x3D)], none) := by decide
/-- P-27. -/
theorem test_wait_delay : after (runDirect D0 (.wait 500) (.wait 500) { ready with lastWeRise := some 1000, now := 1000 })
    (fun t => (t.now, t.fault)) = some (1500, none) := by decide

/-! ### Macro operations: V5, V6, P4, P5 -/

/-- V5: entry with SRCLK high. -/
theorem test_send_high : after (runMacro D0 (.send 0x0D55) none (sendExpansion 0x0D55) .idle
    { latched 0x0001 with srclk := .hi }) (fun t => (t.shift, t.store, t.addr, t.oeN)) =
    some (wordStage 0x8D55, wordStage 0x8D55, some 0x555, some true) := by decide
/-- P5 at index 6: inside the write delay. -/
theorem test_send_delay : after (runMacro D0 (.send 0x0801) none (sendExpansion 0x0801) .idle
    { latched 0x0800 with lastWeRise := some 1000, now := 1000 }) (fun t => (t.fault, t.micro, t.now, t.store)) =
    some (some (.writeDelayViolation 0), 0, 1000, wordStage 0x0800) := by decide
/-- T-4. -/
theorem test_select : after (runMacro D0 (.select false 0x555) (rangeCheck 0x555) (selectExpansion 0x555 false) .idle ready)
    (fun t => (t.store, t.phase, t.now, t.fault)) = some (wordStage 0x0D55, .idle, 0, none) := by decide
/-- P4 at index 2: contention at the latch edge. -/
theorem test_select_contention : after (runMacro D0 (.select true 0) (rangeCheck 0) (selectExpansion 0 true) .idle
    { latched 0x0800 with dataDir := .output }) (fun t => (t.fault, t.micro, t.store, t.rclk)) =
    some (some (.busContention (some 0) (some false)), 48, wordStage 0, .hi) := by decide
/-- T-6. -/
theorem test_writeByte : after (runMacro D0 (.writeByte 0x12 1) (rangeCheck 1) (writeByteExpansion ready.params 1 0x12) .idle
    ready) (fun t => (t.now, t.cells, t.lastWeRise)) = some (10001000, [(1, 0x48)], some 1000) := by set_option maxRecDepth 4000 in decide
/-- T-11: the pulse is shorter than the part's minimum. -/
theorem test_writeByte_short : after (runMacro D0 (.writeByte 1 0) (rangeCheck 0)
    (writeByteExpansion (paramsWith 2000 5000000 200) 0 1) .idle { ready with params := paramsWith 2000 5000000 200 })
    (fun t => (t.fault, t.micro)) = some (some (.wePulseTooShort 1000), 61) := by set_option maxRecDepth 4000 in decide
/-- T-9. -/
theorem test_readByte : after (runMacro D0 (.readByte 7) (rangeCheck 7) (readByteExpansion ready.params 7) .idle ready)
    (fun t => (t.out, t.now, t.dataDir, t.oeN)) = some ([.byte 7 0x81], 1000, .input, some false) := by set_option maxRecDepth 4000 in decide
/-- T-3: NotInitialised comes before RangeError. -/
theorem test_readByte_uninit : after (execReadByte 3000 fresh) State.fault = some (some (.notInitialised (.readByte 3000))) := by
  decide
/-- T-14, its last two cells. -/
theorem test_dumpRange : after (runMacro D0 (.dumpRange 1 2) (dumpCheck 1 2) (dumpRangeExpansion ready.params 1 2) .idle
    { ready with cells := [(0, 0x7E), (1, 0x48), (2, 0x3D)] }) State.out = some [.byte 1 0x12, .byte 2 0xBC] := by
  set_option maxRecDepth 4000 in decide
/-- T-18. -/
theorem test_dumpRange_high : after (execDumpRange 0 2048 ready) (fun t => (t.fault, t.now)) = some (some (.rangeError 2048), 0) := by
  decide

/-! ### Witnesses: for every statement with hypotheses, what meets them together -/

theorem ready_live : ready.Live := by decide

/-- No WE_n rising edge yet: no delay runs. -/
theorem no_delay {s : State} (h : s.lastWeRise = none) : s.DelayOver := fun _ q => by
  rw [h] at q
  cases q

theorem ready_delayOver : ready.DelayOver := no_delay rfl

/-- A state at the very end of its write delay. -/
def due : State := { ready with lastWeRise := some 1000, now := 10001000 }

theorem due_delayOver : due.DelayOver := fun tr h => by
  cases h
  decide

theorem writing_delayOver : writing.DelayOver := fun tr h => by
  cases h
  decide

theorem ready_ready : ready.Ready :=
  ⟨rfl, rfl, rfl, rfl, rfl, rfl, by decide, rfl, rfl, ready_delayOver, by decide, by decide⟩

theorem ready_legal : ready.Legal :=
  ⟨⟨by decide, fun h => (by cases h), fun _ => by decide, by decide, by decide, fun _ h => (by cases h), fun _ h => (by cases h),
    by decide, fun _ h => (by cases h), fun _ h => (by cases h), by decide, fun _ => by decide⟩,
    fun _ => by decide, fun _ => by decide, fun _ => by decide⟩

theorem fresh_legal : fresh.Legal :=
  ⟨⟨by decide, fun _ => by decide, fun h => absurd rfl h, by decide, by decide, fun _ h => (by cases h),
    fun _ h => (by cases h), by decide, fun _ h => (by cases h), fun _ h => (by cases h), by decide, fun _ => by decide⟩,
    fun _ => by decide, fun _ => by decide, fun _ => by decide⟩

/-- An operation after INIT answers a state, whatever the latency. -/
theorem ready_setSer : ∃ t, exec (.setSer true) ready = .next t ∧ t.fault = none := by
  refine ⟨_, runDirect_live ready_live, ?_⟩
  rw [primStep, actNow_setSer (by decide) (delayOver_elapse _ ready_delayOver) (by rw [elapse_contention]; decide)]
  simp [ready, State.reset]

/-- An operation refused before INIT answers a state too. -/
theorem fresh_setSer : exec (.setSer true) fresh = .next (raise (.notInitialised (.setSer true)) fresh) := rfl

theorem witness_DecodeOfEncode : (Instr.writeByte 0xFF 0xFFFF).wellFormed = true := rfl
theorem witness_EncodeOfDecode : decode 0xB0120001#32 = .ok (.writeByte 0x12 1) := by decide
theorem witness_DecodingIsUniqueAndTotal : (∃ r ∈ rows, 0xD0000800#32 &&& r.mask = r.pattern) ∧
    (∀ r ∈ rows, 0xE0000000#32 &&& r.mask ≠ r.pattern) := by decide
theorem witness_IllegalWordsRaise : 14 ≤ (opField 0xE0000000#32).toNat ∧
    (∃ r ∈ rows, opField 0xB1000000#32 = opField r.pattern ∧ 0xB1000000#32 &&& r.mask ≠ r.pattern) ∧
    (State.load [] fresh).fault = none ∧ fetch { fresh with program := [0xE0000000#32] } = some 0xE0000000#32 := by decide
theorem witness_TranscriberRefusesWideBytes : readCall "writeByte(0, 256)".toList = some (.writeByte 0 256) ∧
    65535 < 65536 ∧ 255 ≤ 255 := by decide
theorem witness_LoadedOperationsAreRun : fresh.fault = none ∧ [Instr.init, .readByte 0][fresh.pc]? = some .init := by decide
theorem witness_StepRunsDecodedOperation : (State.load [.init] fresh).fault = none ∧
    fetch (State.load [.init] fresh) = some 0x00000000#32 ∧ decode 0x00000000#32 = .ok .init := by decide
theorem witness_PlacedOperationIsRun : fresh.fault = none ∧ decodeTableWord 32 0xC00007FF = some (.readByte 2047) := by decide
theorem witness_FaultsAreKept : (raise (.rangeError 2048) ready).fault = some (.rangeError 2048) ∧ ready.fault = none := by decide
theorem witness_NothingRunsBeforeInit : Instr.readByte 3000 ≠ .init ∧ fresh.fault = none ∧ fresh.phase = .uninit := by decide
theorem witness_EepromCompletesOnItsOwn : writing.fault = none ∧ fetch writing = none ∧
    writing.busy = some ⟨0, 0x80, 12001000⟩ := by decide
theorem witness_FinalStatesHaveNoStep : { ready with program := [0x00000000#32], pc := 1 }.Final := by decide
theorem witness_OperationIndexAdvances : ready.micro = 0 ∧ fresh.micro = 0 ∧
    (∃ t, exec (.setSer true) ready = .next t ∧ t.fault = none) ∧
    ∃ t, exec (.setSer true) fresh = .next t ∧ t.fault ≠ none := ⟨rfl, rfl, ready_setSer, _, fresh_setSer, by decide⟩
theorem witness_PowerCycleResets : ready.cells = [] ∧ ready.busy = none := by decide
theorem witness_PowerLossCutsOneCell : writing.busy = some ⟨0, 0x80, 12001000⟩ ∧ (2047 : Addr) ≠ 0 := by decide
/-- A permutation the configuration check takes. -/
theorem witness_PinMaps : ∃ m, PinMap.check [4, 5, 6, 7, 0, 1, 2, 3] = some m := ⟨_, rfl⟩
theorem witness_StepsKeepLegal : State.Legal { fresh with program := [0xE0000000#32] } ∧
    ∃ t, step { fresh with program := [0xE0000000#32] } = .next t :=
  ⟨⟨⟨by decide, fun _ => by decide, fun h => absurd rfl h, by decide, by decide, fun _ h => (by cases h),
    fun _ h => (by cases h), by decide, fun _ h => (by cases h), fun _ h => (by cases h), by decide, fun _ => by decide⟩,
    fun _ => by decide, fun _ => by decide, fun _ => by decide⟩, _, rfl⟩
theorem witness_PowerCyclesKeepLegal : ready.Legal := ready_legal
theorem witness_AddressPacking : (2047 : BitVec 16).toNat ≤ 2047 := by decide
theorem witness_LatchEdgeAlone : (primStep D0 (.setRclk true) { latched 0 with shift := wordStage 0xABCD }).store ≠
    (latched 0).store := by decide
theorem witness_OtherClockEdges : (latched 1).srclk = .lo ∧ { latched 1 with srclk := .hi }.srclk ≠ .lo := by decide
theorem witness_AdvanceCompletes : writing.busy = some ⟨0, 0x80, 12001000⟩ ∧ 12001000 ≤ writing.now + 2000000 ∧
    writing.now + 1999999 < 12001000 := by decide
theorem witness_InitConfigures : fresh.fault = none ∧ fresh.phase = .uninit ∧ fresh.weN = .z ∧ fresh.dataDir = .input ∧
    ready.phase ≠ .uninit := by decide

/-! The completion statements: the states at the boundary of the write delay, then each clause. -/

theorem witness_SetSer : due.Live ∧ due.DelayOver ∧ due.contention = false := ⟨by decide, due_delayOver, by decide⟩
theorem witness_SetSrclk : (latched 0x0800).Live ∧ (latched 0x0800).DelayOver ∧ (latched 0x0800).contention = false :=
  ⟨by decide, no_delay rfl, by decide⟩
theorem witness_SetRclk_rise : due.Live ∧ due.DelayOver ∧ due.rclk = .lo ∧ due.Steady ∧
    (due.dataDir = .output → stageOeN due.shift = some true) := ⟨by decide, due_delayOver, by decide, by decide, by decide⟩
/-- A latch edge that changes nothing, during a write cycle. -/
theorem witness_SetRclk_same : writing.Live ∧ writing.DelayOver ∧ selects writing writing.shift = false :=
  ⟨by decide, writing_delayOver, by decide⟩
theorem witness_SetRclk_level : { due with rclk := .hi }.Live ∧ { due with rclk := .hi }.DelayOver ∧
    { due with rclk := .hi }.rclk ≠ .lo ∧ { due with rclk := .hi }.contention = false :=
  ⟨by decide, due_delayOver, by decide, by decide⟩
theorem witness_SetWe_level : due.Live ∧ due.DelayOver ∧ due.weN = Level.ofBool true ∧ due.contention = false :=
  ⟨by decide, due_delayOver, by decide, by decide⟩
theorem witness_SetWe_fall : (latched 0x0FFF).Live ∧ (latched 0x0FFF).DelayOver ∧ (latched 0x0FFF).weN = .hi ∧
    (latched 0x0FFF).busy = none ∧ (latched 0x0FFF).oeN = some true ∧ (latched 0x0FFF).addr ≠ none :=
  ⟨by decide, ready_delayOver, by decide, by decide, by decide, by decide⟩
/-- A pulse of exactly the part's minimum. -/
theorem witness_SetWe_rise : { pulsing with now := 5100 }.Live ∧ { pulsing with now := 5100 }.DelayOver ∧
    pulsing.weN = .lo ∧ pulsing.busy = none ∧ pulsing.weFall = some 5000 ∧ 5000 + pulsing.params.tWpMin ≤ 5100 ∧
    pulsing.addr = some 1 ∧ pulsing.contention = false ∧ pulsing.dataDir = .output ∧ pulsing.dataOut = some 0x48 :=
  ⟨by decide, no_delay rfl, by decide, by decide, by decide, by decide, by decide, by decide, by decide, by decide⟩
theorem witness_SetWe_rise_floating : { pulsing with dataDir := .input, now := 5100 }.Live ∧
    { pulsing with dataDir := .input, now := 5100 }.DelayOver ∧ { pulsing with dataDir := .input }.addr = some 1 ∧
    { pulsing with dataDir := .input }.contention = false := ⟨by decide, no_delay rfl, by decide, by decide⟩
theorem witness_SetDataDir : (latched 0x0800).Live ∧ (latched 0x0800).DelayOver ∧ (latched 0x0800).Steady ∧
    (latched 0x0800).oeN = some true := ⟨by decide, ready_delayOver, by decide, by decide⟩
theorem witness_SetDataPin : { latched 0x0800 with dataDir := .output }.Live ∧
    { latched 0x0800 with dataDir := .output }.DelayOver ∧ { latched 0x0800 with dataDir := .output }.contention = false ∧
    (latched 0x0800).dataOut = some 0 ∧ (latched 0x0800).Steady :=
  ⟨by decide, no_delay rfl, by decide, by decide, by decide⟩
/-- Settled for exactly `T_ACC`. -/
theorem witness_ReadDataPin : { latched 0x0001 with now := 200 }.Live ∧ { latched 0x0001 with now := 200 }.DelayOver ∧
    (latched 1).dataDir = .input ∧ (latched 1).params.connected = true ∧ (latched 1).oeN = some false ∧
    (latched 1).addr = some 1 ∧ (latched 1).busy = none ∧ (latched 1).tSel + (latched 1).params.tAcc ≤ 200 :=
  ⟨by decide, fun _ h => (by cases h), by decide, by decide, by decide, by decide, by decide, by decide⟩
theorem witness_Wait : writing.Live ∧ writing.contention = false ∧ writing.busy = some ⟨0, 0x80, 12001000⟩ ∧
    12001000 ≤ writing.now + (2000000 : BitVec 28).toNat := by decide

/-! The checks. -/

/-- The last nanosecond of the write delay. -/
theorem witness_WriteDelay : { due with now := 10000999 }.lastWeRise = some 1000 ∧ due.fault = none ∧
    (elapse D0 { due with now := 10000999 }).now < 1000 + due.params.tWriteDelay := by decide
theorem witness_Roles : due.DelayOver ∧ due.dataDir = .input ∧ { due with dataDir := .output }.DelayOver ∧
    due.phase ≠ .uninit := ⟨due_delayOver, by decide, due_delayOver, by decide⟩
theorem witness_WriteCycle : preCheck (.setDataDir .output) writing = none ∧
    writing.busy = some ⟨0, 0x80, 12001000⟩ ∧ eeInputs (effect D0 (.setDataDir .output) writing) ≠ eeInputs writing := by decide
/-- A latch edge that meets unknown lines, WE_n low. -/
theorem witness_PulseSignals : preCheck (.setRclk true) { pulsing with store := ready.store } = none ∧ pulsing.busy = none ∧
    (effect D0 (.setRclk true) { pulsing with store := ready.store }).weN = .lo ∧
    { pulsing with store := ready.store }.rclk = .lo ∧ { pulsing with store := ready.store }.addr = none := by decide
theorem witness_FallingEdge : ready.DelayOver ∧ ready.phase ≠ .uninit ∧ ready.busy = none ∧ ready.weN = .hi ∧
    ready.addr = none ∧ (latched 0x0FFF).oeN = some true ∧ (latched 0x0FFF).addr ≠ none :=
  ⟨ready_delayOver, by decide, by decide, by decide, by decide, by decide, by decide⟩
/-- One nanosecond short of the minimum, and the minimum. -/
theorem witness_RisingEdge : { pulsing with now := 5099 }.DelayOver ∧ pulsing.phase ≠ .uninit ∧ pulsing.busy = none ∧
    pulsing.weN = .lo ∧ pulsing.weFall = some 5000 ∧ pulsing.addr = some 1 ∧ pulsing.contention = false ∧
    (elapse D0 { pulsing with now := 5099 }).now - 5000 < pulsing.params.tWpMin ∧
    pulsing.params.tWpMin ≤ (elapse D0 { pulsing with now := 5100 }).now - 5000 :=
  ⟨fun _ h => (by cases h), by decide, by decide, by decide, by decide, by decide, by decide, by decide, by decide⟩
theorem witness_Contention : preCheck (.setDataDir .output) ready = none ∧
    eepromCheck D0 (rclkRose ready (effect D0 (.setDataDir .output) ready)) (eeInputs ready)
      (eeInputs (effect D0 (.setDataDir .output) ready)) (effect D0 (.setDataDir .output) ready) =
      .ok { ready with dataDir := .output } ∧ { ready with dataDir := .output }.oeN ≠ some true := ⟨by decide, rfl, by decide⟩
theorem witness_Contention_none : ready.contention = false ∧ ∃ t, exec (.setSer true) ready = .next t ∧ t.fault = none :=
  ⟨by decide, ready_setSer⟩

/-! The driver and the transactor. -/

theorem witness_Send : due.Live ∧ due.DelayOver ∧ due.contention = false ∧ due.srclk = .lo ∧ due.rclk = .lo ∧ due.Steady ∧
    due.dataDir = .input := ⟨by decide, due_delayOver, by decide, by decide, by decide, by decide, by decide⟩
/-- The same word again, during a write cycle, the pins driving. -/
theorem witness_Send_same : { writing with dataDir := .output }.Live ∧ { writing with dataDir := .output }.DelayOver ∧
    { writing with dataDir := .output }.contention = false ∧ writing.srclk = .lo ∧ writing.rclk = .lo ∧
    selects writing (wordStage 0x0800) = false ∧ (0x0800 : SrWord).getLsbD 11 = true :=
  ⟨by decide, writing_delayOver, by decide, by decide, by decide, by decide, by decide⟩
theorem witness_SendIsLiteral_srclk : { due with srclk := .hi }.Live ∧ { due with srclk := .hi }.DelayOver ∧
    { due with srclk := .hi }.contention = false ∧ { due with srclk := .hi }.Steady ∧ due.rclk = .lo ∧
    due.dataDir = .input := ⟨by decide, due_delayOver, by decide, by decide, by decide, by decide⟩
theorem witness_SendIsLiteral_rclk : { due with rclk := .hi }.Live ∧ { due with rclk := .hi }.DelayOver ∧
    { due with rclk := .hi }.contention = false ∧ { due with rclk := .hi }.srclk = .lo :=
  ⟨by decide, due_delayOver, by decide, by decide⟩
theorem witness_SendStops : { latched 0x0800 with dataDir := .output }.Live ∧
    { latched 0x0800 with dataDir := .output }.DelayOver ∧ (latched 0x0800).srclk = .lo ∧ (latched 0x0800).rclk = .lo ∧
    { latched 0x0800 with dataDir := .output }.Steady ∧ (latched 0x0800).oeN = some true ∧
    (0x07FF : SrWord).getLsbD 11 = false :=
  ⟨by decide, no_delay rfl, by decide, by decide, by decide, by decide, by decide⟩
theorem witness_Addresses : ready.Live ∧ 2047 < (2048 : BitVec 16).toNat ∧ 2047 < (2048 : BitVec 12).toNat ∧
    (2047 : BitVec 12).toNat ≤ 2047 := by decide
theorem witness_Select : (2047 : BitVec 16).toNat ≤ 2047 ∧ due.Live ∧ due.DelayOver ∧ due.contention = false ∧
    due.srclk = .lo ∧ due.rclk = .lo ∧ due.Steady ∧ due.dataDir = .input :=
  ⟨by decide, by decide, due_delayOver, by decide, by decide, by decide, by decide, by decide⟩
theorem witness_Transactions : (2047 : BitVec 16).toNat ≤ 2047 ∧ ready.Ready ∧ ready.params.Premises ∧
    ready.params.connected = true ∧ (Instr.writeByte 0xFF 2047).transaction = true ∧
    (Instr.dumpRange 0 2047).transaction = true := ⟨by decide, ready_ready, by decide, by decide, by decide, by decide⟩
theorem witness_WriteByte_long : (paramsWith 1000 12000000 200).tWpMin ≤ (paramsWith 1000 12000000 200).tWePulse ∧
    ¬ (paramsWith 1000 12000000 200).tWc ≤ (paramsWith 1000 12000000 200).tWriteDelay := by decide
theorem witness_EmptyDumps : ready.Live ∧ (4 : BitVec 12).toNat < (5 : BitVec 12).toNat ∧
    { ready with params := { ready.params with dumpInclusive := false } }.params.dumpInclusive = false := by decide
theorem witness_WritesDoNotReach : (2047 : BitVec 16).toNat ≤ 2047 ∧ (0 : BitVec 16).toNat ≤ 2047 ∧
    (2047 : BitVec 16) ≠ 0 := by decide
theorem witness_InitMakesReady : fresh.Legal ∧ fresh.fault = none ∧ fresh.phase = .uninit :=
  ⟨fresh_legal, by decide, by decide⟩

/-! Frames. -/

theorem witness_OperationsWrite : (∃ t, exec (.setSer true) ready = .next t) ∧ .we ∉ (Instr.setSer true).writes :=
  ⟨ready_setSer.imp fun _ h => h.1, by decide⟩
theorem witness_CellsChange : (∃ t, exec (.setSer true) ready = .next t) ∧ (∀ c, writing.busy = some c → c.addr ≠ 2047) ∧
    ready.rclk = .lo ∧ (1 : BitVec 16).setWidth 11 ≠ (2047 : Addr) :=
  ⟨ready_setSer.imp fun _ h => h.1, fun c h => by cases h; decide, by decide, by decide⟩
/-- After INIT with address 1 latched and RCLK left high. -/
def unlatching : State := { latched 0x0801 with rclk := .hi }

theorem witness_CellsChange_unlatched : (∃ t, exec (.writeByte 1 0) unlatching = .next t) ∧ unlatching.busy = none ∧
    unlatching.rclk ≠ .lo ∧ unlatching.addr ≠ some 2047 :=
  ⟨⟨_, gate_live (s := unlatching) (by decide) _⟩, by decide, by decide, by decide⟩

end Sys2Proof.Tests
end

section
/-! PROOFS. The statements about the state of spec/10_state.md: what an operation and a step can do, said once (`exec_ends`,
`step_cases`), and what every step keeps. -/

namespace Sys2Proof.Machine

/-! ### What an operation and a step can do -/

/-- The primitive a directly issued operation is (spec/40_pin_primitives.md R96). -/
def primitiveOf : Instr → Option Prim
  | .setSer l => some (.setSer l)
  | .setSrclk l => some (.setSrclk l)
  | .setRclk l => some (.setRclk l)
  | .setWe l => some (.setWe l)
  | .setDataDir d => some (.setDataDir d)
  | .setDataPin k l => some (.setDataPin k l)
  | .readDataPin k => some (.readDataPin k)
  | .wait t => some (.wait t.toNat)
  | .init | .send _ | .select _ _ | .writeByte _ _ | .readByte _ | .dumpRange _ _ => none

/-- READ_DATA_PIN issued directly goes to the host, not to the assembling byte (spec/40_pin_primitives.md R108). -/
theorem primitiveOf_ne_samplePin (i : Instr) (k : Fin 8) : primitiveOf i ≠ some (.samplePin k) := by
  cases i <;> simp [primitiveOf]

/-- The expansion of an operation that has one (spec/42_eeprom_transactor.md R129). -/
def expansionOf (p : Params) : Instr → List Micro
  | .send w => sendExpansion w
  | .select o a => selectExpansion a o
  | .writeByte v a => writeByteExpansion p a v
  | .readByte a => readByteExpansion p a
  | .dumpRange f u => dumpRangeExpansion p f.toNat u.toNat
  | .init | .setSer _ | .setSrclk _ | .setRclk _ | .setWe _ | .setDataDir _ | .setDataPin _ _ | .readDataPin _
  | .wait _ => []

/-- The states an operation can answer: a check raised a fault and nothing else happened, INIT set the pins up, a primitive ran,
or an expansion ran. -/
inductive Ends (i : Instr) (s : State) : State → Prop
  | refused (f : Raised) : Ends i s (raise f s)
  | inited : i = .init → s.phase = .uninit → Ends i s (advancePc (configurePins (elapse Config.draws s)))
  | direct (p : Prim) : s.phase ≠ .uninit → primitiveOf i = some p → Ends i s (advancePc (primStep Config.draws p s))
  | expanded (ph : Phase) : s.phase ≠ .uninit → primitiveOf i = none → ph = .idle ∨ ph = s.phase →
      Ends i s (completeMacro ph (runMicros Config.draws (expansionOf s.params i) { s with micro := 0 }))

theorem runDirect_ends {i : Instr} {p : Prim} {s t : State} (hi : primitiveOf i = some p)
    (h : runDirect Config.draws i p s = .next t) : s.fault = none ∧ Ends i s t := by
  obtain ⟨hf, ⟨-, rfl⟩ | ⟨hu, rfl⟩⟩ := gate_next h
  · exact ⟨hf, .refused _⟩
  · exact ⟨hf, .direct p hu hi⟩

theorem runMacro_ends {i : Instr} {check : Option Raised} {ph : Phase} {s t : State} (hi : primitiveOf i = none)
    (hph : ph = .idle ∨ ph = s.phase) (h : runMacro Config.draws i check (expansionOf s.params i) ph s = .next t) :
    s.fault = none ∧ Ends i s t := by
  obtain ⟨hf, ⟨-, rfl⟩ | ⟨hu, rfl⟩⟩ := gate_next h
  · exact ⟨hf, .refused _⟩
  · cases check with
    | some f => exact ⟨hf, .refused f⟩
    | none => exact ⟨hf, .expanded ph hu hi hph⟩

theorem execInit_ends {s t : State} (h : execInit s = .next t) : s.fault = none ∧ Ends .init s t := by
  unfold execInit at h
  split at h
  · cases h
  · next hf =>
    cases h
    refine ⟨hf, ?_⟩
    unfold runInit
    split
    · next hu => exact .inited rfl hu
    · exact .refused _

/-- Everything an operation can do when it answers a state. -/
theorem exec_ends {i : Instr} {s t : State} (h : exec i s = .next t) : s.fault = none ∧ Ends i s t := by
  cases i with
  | init => exact execInit_ends h
  | setSer | setSrclk | setRclk | setWe | setDataDir | setDataPin | readDataPin | wait => exact runDirect_ends rfl h
  | send => exact runMacro_ends (check := none) rfl (.inr rfl) h
  | select | writeByte | readByte | dumpRange => exact runMacro_ends rfl (.inl rfl) h

/-- Everything a step can do when it answers a state: the EEPROM's own step, IllegalCommand, or an operation. -/
theorem step_cases {s t : State} (h : step s = .next t) :
    s.fault = none ∧
      ((fetch s = none ∧ ∃ c, s.busy = some c ∧ t = advance (c.tEnd - s.now) s) ∨
      (∃ cw, fetch s = some cw ∧ t = raise (.illegalCommand cw) s) ∨
      (∃ cw i, fetch s = some cw ∧ decode cw = .ok i ∧ exec i s = .next t)) := by
  unfold step at h
  split at h
  · cases h
  · next hf =>
    refine ⟨hf, ?_⟩
    split at h
    · next hn =>
      unfold idleStep at h
      split at h
      · next c hc => cases h; exact .inl ⟨hn, c, hc, rfl⟩
      · cases h
    · next cw hcw =>
      split at h
      · cases h; exact .inr (.inl ⟨cw, hcw, rfl⟩)
      · next i hi => exact .inr (.inr ⟨cw, i, hcw, hi, h⟩)

theorem raise_faulted (f : Raised) (s : State) : (raise f s).fault ≠ none := by
  cases h : s.fault <;> simp [h]

/-! ### The bus laws -/

theorem State.BusLegal.raise {s : State} (h : s.BusLegal) (f : Raised) : (Machine.raise f s).BusLegal :=
  { h with no_contention := fun hf => absurd hf (raise_faulted f s) }

/-- Time keeps the bus laws: a cycle whose end has come is closed. -/
theorem State.BusLegal.advance {s : State} (h : s.BusLegal) (d : Nat) : (Machine.advance d s).BusLegal where
  cells_wf := wf_advance d h.cells_wf
  undriven := by
    intro hu
    obtain ⟨hser, hsr, hr, hw, hd, ho, hb, hf, hl⟩ := h.undriven (by simpa using hu)
    simp [advance_idle hb, *]
  driven := by simpa using h.driven
  pulse := by simpa using h.pulse
  pulse_selected := by simpa [State.oeN, State.addr] using h.pulse_selected
  pulse_time tf htf := by
    have := h.pulse_time tf (by simpa using htf)
    rw [advance_now]; omega
  cycle_time c hc := by
    rcases advance_cases d s with ⟨-, e, -⟩ | ⟨-, -, -, e, -⟩ | ⟨b, -, hd, e, -⟩ <;> rw [e] at hc <;> cases hc
    rw [advance_now]; omega
  cycle_high hb := by
    rw [advance_weN]
    exact h.cycle_high fun hn => hb (by simp [advance_idle hn, hn])
  cycle_rise c hc := by
    rcases advance_cases d s with ⟨-, e, -⟩ | ⟨-, -, -, e, -⟩ | ⟨b, hb, -, e, -⟩ <;> rw [e] at hc <;> cases hc
    simpa using h.cycle_rise c hb
  rise_time tr htr := by
    have := h.rise_time tr (by simpa using htr)
    rw [advance_now]; omega
  sel_time := by
    have := h.sel_time
    rw [advance_now, advance_tSel]; omega
  no_contention hf := by
    rw [contention_congr (s := s) (by simp) (by simp)]
    exact h.no_contention (by simpa using hf)

theorem State.BusLegal.drew {s : State} (h : s.BusLegal) : (drew s).BusLegal := { h with }

theorem State.BusLegal.elapse {s : State} (h : s.BusLegal) (D : Draws) : (elapse D s).BusLegal := h.drew.advance _

theorem State.BusLegal.advancePc {s : State} (h : s.BusLegal) : (advancePc s).BusLegal := by
  unfold Machine.advancePc
  split
  · exact { h with }
  · exact h

theorem State.BusLegal.advanceMicro {s : State} (h : s.BusLegal) : (advanceMicro s).BusLegal := by
  unfold Machine.advanceMicro
  split
  · exact { h with }
  · exact h

/-- Entering a phase of a transaction keeps the bus laws. -/
theorem State.BusLegal.enter {s : State} (h : s.BusLegal) (hu : s.phase ≠ .uninit) {ph : Phase} (hph : ph ≠ .uninit) :
    State.BusLegal { s with phase := ph } :=
  { h with undriven := fun e => absurd e hph, driven := fun _ => h.driven hu }

theorem State.BusLegal.completeMacro {s : State} (h : s.BusLegal) (hu : s.phase ≠ .uninit) {ph : Phase} (hph : ph ≠ .uninit) :
    (completeMacro ph s).BusLegal := by
  unfold Machine.completeMacro
  split
  · exact { h.enter hu hph with }
  · exact h

/-- INIT drives every line of a state in which nothing was driven (spec/42_eeprom_transactor.md R130). -/
theorem State.BusLegal.configurePins {s : State} (h : s.BusLegal) (hu : s.phase = .uninit) : (configurePins s).BusLegal := by
  obtain ⟨-, -, -, -, -, -, -, hf, -⟩ := h.undriven hu
  exact { h with
    undriven := by simp
    driven := by simp
    pulse := by simp [hf]
    pulse_selected := by simp
    cycle_high := by simp
    no_contention := fun _ => contention_input rfl }

/-- The bus laws of a state after INIT, apart from contention, which a primitive looks for once its effect stands: with any fault
recorded the state is legal. -/
structure Wired (s : State) : Prop where
  inited : s.phase ≠ .uninit
  bus : ∀ f, (raise f s).BusLegal

theorem State.BusLegal.wired {s : State} (h : s.BusLegal) (hu : s.phase ≠ .uninit) : Wired s := ⟨hu, h.raise⟩

theorem Wired.we_driven {s : State} (h : Wired s) : s.weN ≠ .z := by
  obtain ⟨-, -, -, hw, -⟩ := (h.bus (.rangeError 0)).driven h.inited
  exact hw

theorem Wired.cycle_high {s : State} (h : Wired s) : s.busy ≠ none → s.weN = .hi := (h.bus (.rangeError 0)).cycle_high

/-- The contention check restores what `Wired` leaves open. -/
theorem Wired.contentionCheck {s : State} (h : Wired s) : (contentionCheck s).BusLegal := by
  unfold Machine.contentionCheck
  split
  · exact h.bus _
  · next hc => exact { h.bus (.rangeError 0) with no_contention := fun _ => by simpa using hc }

theorem Wired.noteSelection {s : State} (h : Wired s) (l : Bool) (old new : EeInputs) : Wired (noteSelection l old new s) := by
  unfold Machine.noteSelection
  split
  · exact ⟨h.inited, fun f => { h.bus f with sel_time := Nat.le_refl _ }⟩
  · exact h

theorem Wired.drew {s : State} (h : Wired s) : Wired (drew s) := ⟨h.inited, fun f => { h.bus f with }⟩

theorem raise_advance (f : Raised) (d : Nat) (s : State) : raise f (advance d s) = advance d (raise f s) := by
  obtain hb | ⟨c, hb⟩ := Option.eq_none_or_eq_some s.busy
  · rw [advance_idle hb, advance_idle (s := raise f s) hb]
    rfl
  · by_cases hd : c.tEnd ≤ s.now + d
    · rw [advance_done hb hd, advance_done (s := raise f s) hb hd]
      rfl
    · have ho : s.now + d < c.tEnd := Nat.lt_of_not_le hd
      rw [advance_open hb ho, advance_open (s := raise f s) hb ho]
      rfl

theorem Wired.advance {s : State} (h : Wired s) (d : Nat) : Wired (advance d s) := by
  refine ⟨by simpa using h.inited, fun f => ?_⟩
  rw [raise_advance]
  exact (h.bus f).advance d

/-! ### Primitives -/

theorem driveWe_level {s : State} {l : Bool} (h : s.weN = Level.ofBool l) : driveWe l s = s := by
  unfold driveWe
  rw [← h, if_neg]
  rintro ⟨hlo, rfl⟩
  simp [hlo, Level.ofBool] at h

/-- A rising edge of WE_n closes the pulse and opens a cycle that ends `T_WC` after it (spec/20_memory.md R58). -/
theorem Wired.openCycle {s : State} (h : Wired s) (a : Addr) (v : Byte) :
    Wired (openCycle a v { s with weN := .hi, lastWeRise := some s.now }) := by
  refine ⟨h.inited, fun f => ?_⟩
  obtain ⟨hser, hsr, hr, -, ho⟩ := (h.bus f).driven h.inited
  exact { h.bus f with
    undriven := fun hu => absurd hu h.inited
    driven := fun _ => ⟨hser, hsr, hr, by simp, ho⟩
    pulse := by simp
    pulse_selected := by simp
    pulse_time := by simp
    cycle_time := by simp
    cycle_high := by simp
    cycle_rise := by simp
    rise_time := by simp
    no_contention := fun hf => absurd hf (raise_faulted f _) }

/-- A falling edge of WE_n opens a pulse on a selected EEPROM (spec/20_memory.md R57). -/
theorem Wired.weFall {s : State} (h : Wired s) (hb : s.busy = none) (ho : s.oeN = some true) (ha : s.addr ≠ none) :
    Wired { s with weN := .lo, weFall := some s.now } := by
  refine ⟨h.inited, fun f => ?_⟩
  obtain ⟨hser, hsr, hr, -, hd⟩ := (h.bus f).driven h.inited
  exact { h.bus f with
    undriven := fun hu => absurd hu h.inited
    driven := fun _ => ⟨hser, hsr, hr, by simp, hd⟩
    pulse := by simp
    pulse_selected := fun _ => ⟨ho, ha⟩
    pulse_time := by simp
    cycle_high := by simp [hb]
    no_contention := fun hf => absurd hf (raise_faulted f _) }

theorem ofBool_ne_z (l : Bool) : Level.ofBool l ≠ .z := by cases l <;> simp [Level.ofBool]

/-- The effect of a primitive other than SET_WE keeps the bus laws if it leaves a pulse its selection. -/
theorem Wired.effect {D : Draws} {p : Prim} {s : State} (h : Wired s) (hp : ∀ l, p ≠ .setWe l)
    (hs : s.weN = .lo → (effect D p s).oeN = s.oeN ∧ (effect D p s).addr = s.addr) : Wired (effect D p s) := by
  refine ⟨by rw [effect_phase]; exact h.inited, fun f => ?_⟩
  have hu {q : Prop} (e : s.phase = .uninit) : q := absurd e h.inited
  have hsel (hl : s.weN = .lo) : (Machine.effect D p s).oeN = some true ∧ (Machine.effect D p s).addr ≠ none := by
    rw [(hs hl).1, (hs hl).2]
    exact (h.bus f).pulse_selected hl
  obtain ⟨hser, hsr, hr, hw, ho⟩ := (h.bus f).driven h.inited
  cases p with
  | setSer l => exact { h.bus f with undriven := hu, driven := fun _ => ⟨ofBool_ne_z l, hsr, hr, hw, ho⟩ }
  | setSrclk l =>
    simp only [Machine.effect, driveSrclk]
    split <;> exact { h.bus f with undriven := hu, driven := fun _ => ⟨hser, ofBool_ne_z l, hr, hw, ho⟩ }
  | setRclk l =>
    revert hsel
    simp only [Machine.effect, driveRclk]
    split <;> intro hsel <;> exact { h.bus f with
      undriven := hu
      driven := fun _ => ⟨hser, hsr, ofBool_ne_z l, hw, ho⟩
      pulse_selected := hsel
      no_contention := fun hf => absurd hf (raise_faulted f _) }
  | setWe l => exact absurd rfl (hp l)
  | setDataDir d => exact { h.bus f with undriven := hu, no_contention := fun hf => absurd hf (raise_faulted f _) }
  | setDataPin k l =>
    exact { h.bus f with undriven := hu, driven := fun _ => ⟨hser, hsr, hr, hw, by simpa [Machine.effect] using ho⟩ }
  | readDataPin k =>
    simp only [Machine.effect, samplePinOut]
    rcases ioLevel_state D k s with e | e <;> rw [e] <;> exact { h.bus f with }
  | samplePin k =>
    simp only [Machine.effect, samplePinByte]
    rcases ioLevel_state D k s with e | e <;> rw [e] <;> exact { h.bus f with }
  | wait t => exact (h.advance t).bus f

/-- While WE_n stays low a primitive that the EEPROM's check lets pass leaves it its selection (spec/20_memory.md R59). -/
theorem eepromCheck_pulse {D : Draws} {l : Bool} {s u t : State} (h : eepromCheck D l (eeInputs s) (eeInputs u) u = .ok t)
    (hs : s.weN = .lo) (hu : u.weN = .lo) : u.oeN = s.oeN ∧ u.addr = s.addr := by
  have hn : changedInputs l (eeInputs s) (eeInputs u) = [] := by
    rcases eepromCheck_ok h with ⟨-, hn, -⟩ | ⟨-, hn, -⟩
    · exact hn
    · exact hn (by simp [eeInputs, hs, Level.weSeen]) (by simp [eeInputs, hu, Level.weSeen])
  obtain ⟨ha, ho, -⟩ := changedInputs_nil.1 hn
  simp only [aChanged, oeChanged, eeInputs, Bool.or_eq_false_iff, bne_eq_false_iff_eq] at ha ho
  exact ⟨ho.1.symm, ha.1.symm⟩

/-- A check that lets a primitive pass that leaves WE_n at its level adds at most `ee.tSel`. -/
theorem Wired.eepromCheck_same {D : Draws} {l : Bool} {old new : EeInputs} {s t : State} (h : Wired s)
    (hw : old.weN = new.weN) (ht : eepromCheck D l old new s = .ok t) : Wired t := by
  rcases eepromCheck_ok ht with ⟨-, -, -, rfl⟩ | ⟨-, -, u, hu, rfl⟩
  · exact h
  · rw [weReaction_same hw] at hu
    cases hu
    exact h.noteSelection _ _ _

/-- The EEPROM's answer to an edge of WE_n keeps the bus laws. -/
theorem Wired.weReaction {D : Draws} {l : Bool} {s u : State} (h : Wired s) (hb : s.busy = none)
    (hl : s.weN ≠ Level.ofBool l) (hu : weReaction D (eeInputs s) (eeInputs (driveWe l s)) (driveWe l s) = .ok u) :
    Wired u := by
  have hz := h.we_driven
  cases l with
  | false =>
    have hhi : s.weN = .hi := by cases hw : s.weN <;> simp_all [Level.ofBool]
    have hd : driveWe false s = { s with weN := .lo } := by simp [driveWe, Level.ofBool]
    rw [hd] at hu
    simp only [Machine.weReaction, eeInputs, hhi, Level.weSeen] at hu
    obtain ⟨ho, ha, rfl⟩ := weFalling_ok hu
    exact h.weFall hb ho ha
  | true =>
    have hlo : s.weN = .lo := by cases hw : s.weN <;> simp_all [Level.ofBool]
    have hd : driveWe true s = { s with weN := .hi, lastWeRise := some s.now } := by simp [driveWe, hlo, Level.ofBool]
    rw [hd] at hu
    simp only [Machine.weReaction, eeInputs, hlo, Level.weSeen] at hu
    obtain ⟨tf, a, -, -, -, rfl⟩ := weRising_ok hu
    rcases latchByte_cases D a { s with weN := .hi, lastWeRise := some s.now } with ⟨v, -, -, e⟩ | e <;> rw [e]
    · exact h.openCycle a v
    · exact h.drew.openCycle a _

/-- Whatever a primitive commits keeps the bus laws. -/
theorem Wired.committed {D : Draws} {p : Prim} {l : Bool} {s t : State} (h : Wired s)
    (ht : eepromCheck D l (eeInputs s) (eeInputs (Machine.effect D p s)) (Machine.effect D p s) = .ok t) : Wired t := by
  by_cases hp : ∃ b, p = .setWe b
  · obtain ⟨b, rfl⟩ := hp
    change eepromCheck D l (eeInputs s) (eeInputs (driveWe b s)) (driveWe b s) = .ok t at ht
    by_cases hl : s.weN = Level.ofBool b
    · rw [driveWe_level hl] at ht
      exact h.eepromCheck_same rfl ht
    · rcases eepromCheck_ok ht with ⟨hb, -, hw, -⟩ | ⟨hb, -, u, hu, rfl⟩
      · have hhi := h.cycle_high (by simpa using hb)
        cases b <;> simp_all [eeInputs, Level.weSeen, Level.ofBool]
      · exact (h.weReaction (by simpa using hb) hl hu).noteSelection _ _ _
  · have hw : (Machine.effect D p s).weN = s.weN := effect_weN fun b e => hp ⟨b, e⟩
    refine (h.effect (D := D) (fun b e => hp ⟨b, e⟩) fun hlo => ?_).eepromCheck_same (by simp [eeInputs, hw]) ht
    exact eepromCheck_pulse ht hlo (hw.trans hlo)

theorem State.BusLegal.primStep {s : State} (h : s.BusLegal) (hu : s.phase ≠ .uninit) (D : Draws) (p : Prim) :
    (primStep D p s).BusLegal := by
  have he : Wired (Machine.elapse D s) := (h.elapse D).wired (by simpa using hu)
  rw [Machine.primStep]
  rcases actNow_cases D p (Machine.elapse D s) with ⟨f, e⟩ | ⟨-, t, ht, e⟩ <;> rw [e]
  · exact he.bus f
  · exact (he.committed ht).contentionCheck

/-! ### Expansions -/

theorem State.BusLegal.emitByte {s : State} (h : s.BusLegal) (a : Addr) : (emitByte a s).BusLegal := { h with }

theorem not_enter_uninit_send (w : SrWord) : .enter .uninit ∉ sendExpansion w := by
  simp [sendExpansion, sendBit, latchPulse]

/-- No expansion goes back to Uninit. -/
theorem not_enter_uninit (p : Params) (i : Instr) : .enter .uninit ∉ expansionOf p i := by
  cases i <;> simp [expansionOf, selectExpansion, writeByteExpansion, writeByteOpening, writeBytePulse, driveByte,
    dumpRangeExpansion, readByteExpansion, sampleByte, not_enter_uninit_send]

/-- The bus laws hold along an expansion, from primitive to primitive and after a fault. -/
theorem runMicros_busLegal {D : Draws} {ms : List Micro} {s : State} (hm : .enter .uninit ∉ ms) (h : s.BusLegal)
    (hu : s.phase ≠ .uninit) : (runMicros D ms s).BusLegal ∧ (runMicros D ms s).phase ≠ .uninit := by
  refine runMicros_keeps (P := fun u => u.BusLegal ∧ u.phase ≠ .uninit) ?_ ⟨h, hu⟩
  rintro m hmem u ⟨hb, hu⟩
  cases m with
  | prim p => exact ⟨(hb.primStep hu D p).advanceMicro, by simpa [microStep] using hu⟩
  | enter ph =>
    have hph : ph ≠ .uninit := fun e => hm (e ▸ hmem)
    exact ⟨hb.enter hu hph, hph⟩
  | emit a => exact ⟨hb.emitByte a, hu⟩

theorem runMicros_sampled {D : Draws} {ms : List Micro} {s : State} (hm : ∀ k, .prim (.samplePin k) ∉ ms)
    (h : s.sampled = 0) : (runMicros D ms s).sampled = 0 := by
  refine runMicros_keeps (P := fun u => u.sampled = 0) (fun m hmem u hu => ?_) h
  cases m with
  | prim p => simpa [microStep, primStep_sampled fun k e => hm k (e ▸ hmem)] using hu
  | enter ph => exact hu
  | emit a => rfl

/-- The byte `readByte` returns ends its assembly (spec/42_eeprom_transactor.md R140). -/
theorem runMicros_emit_sampled {D : Draws} {ms : List Micro} {ph : Phase} {a : Addr} {s : State} (hs : s.fault = none)
    (hf : (runMicros D (ms ++ [.enter ph, .emit a]) s).fault = none) :
    (runMicros D (ms ++ [.enter ph, .emit a]) s).sampled = 0 := by
  cases hm : (runMicros D ms s).fault with
  | some f => rw [runMicros_append_fault hm hs, hm] at hf; cases hf
  | none => simp [runMicros_append hm, runMicros, microStep, hm]

theorem runMicros_dump_sampled {D : Draws} {p : Params} {f u : Nat} {s : State} (hs : s.fault = none) (h : s.sampled = 0)
    (hf : (runMicros D (dumpRangeExpansion p f u) s).fault = none) :
    (runMicros D (dumpRangeExpansion p f u) s).sampled = 0 := by
  unfold dumpRangeExpansion at hf ⊢
  rcases List.eq_nil_or_concat (dumpAddresses p.dumpInclusive f u) with e | ⟨l, a, e⟩
  · rw [e]; exact h
  · rw [e, List.concat_eq_append, List.flatMap_append, List.flatMap_singleton, readByteExpansion,
      ← List.append_assoc] at hf ⊢
    exact runMicros_emit_sampled hs hf

/-- No byte is left half assembled by an expansion that ends without a fault (spec/40_pin_primitives.md R108). -/
theorem expansion_sampled {D : Draws} {p : Params} {i : Instr} {s : State} (hs : s.fault = none) (h : s.sampled = 0)
    (hf : (runMicros D (expansionOf p i) s).fault = none) : (runMicros D (expansionOf p i) s).sampled = 0 := by
  cases i with
  | readByte a => exact runMicros_emit_sampled hs hf
  | dumpRange f u => exact runMicros_dump_sampled hs h hf
  | init | setSer | setSrclk | setRclk | setWe | setDataDir | setDataPin | readDataPin | wait => exact h
  | send | select | writeByte =>
    refine runMicros_sampled (fun k => ?_) h
    simp [expansionOf, selectExpansion, writeByteExpansion, writeByteOpening, writeBytePulse, driveByte, sendExpansion,
      sendBit, latchPulse]

/-! ### Operations and steps -/

theorem raise_legal {s : State} (h : s.BusLegal) (f : Raised) : (raise f s).Legal where
  toBusLegal := h.raise f
  phase_between hf := absurd hf (raise_faulted f s)
  micro_zero hf := absurd hf (raise_faulted f s)
  sampled_zero hf := absurd hf (raise_faulted f s)

theorem exec_legal {i : Instr} {s t : State} (h : s.Legal) (he : exec i s = .next t) : t.Legal := by
  obtain ⟨hs, he⟩ := exec_ends he
  have hmicro := h.micro_zero hs
  have hsampled := h.sampled_zero hs
  have hphase := h.phase_between hs
  cases he with
  | refused f => exact raise_legal h.toBusLegal f
  | inited _ hu =>
    exact {
      toBusLegal := ((h.elapse Config.draws).configurePins (by simpa using hu)).advancePc
      phase_between := fun _ => .inr (by simp)
      micro_zero := fun _ => by simpa using hmicro
      sampled_zero := fun _ => by simpa using hsampled }
  | direct p hu hp =>
    have hk : ∀ k, p ≠ .samplePin k := fun k e => primitiveOf_ne_samplePin i k (e ▸ hp)
    exact {
      toBusLegal := (h.primStep hu Config.draws p).advancePc
      phase_between := fun _ => by simpa using hphase
      micro_zero := fun _ => by simpa using hmicro
      sampled_zero := fun _ => by simpa [primStep_sampled hk] using hsampled }
  | expanded ph hu _ hph =>
    have hb : State.BusLegal { s with micro := 0 } := { h.toBusLegal with }
    obtain ⟨hbus, hne⟩ := runMicros_busLegal (D := Config.draws) (not_enter_uninit s.params i) hb hu
    have hidle : ph = .idle := hph.elim id fun e => e.trans (hphase.resolve_left hu)
    exact {
      toBusLegal := hbus.completeMacro hne (by simp [hidle])
      phase_between := fun hf => .inr (by rw [completeMacro_safe ph (by simpa using hf), hidle])
      micro_zero := fun hf => by rw [completeMacro_safe ph (by simpa using hf)]
      sampled_zero := fun hf => by
        rw [completeMacro_sampled]
        exact expansion_sampled hs hsampled (by simpa using hf) }

/-- Settles O18: the bus laws hold from primitive to primitive (`State.BusLegal.primStep`), and what `State.Legal` adds to them
holds again where an operation ends without a fault (`exec_legal`). -/
theorem stepsKeepLegal : Obligations.StepsKeepLegal := by
  intro s t h hst
  obtain ⟨-, ⟨-, c, -, rfl⟩ | ⟨cw, -, rfl⟩ | ⟨cw, i, -, -, he⟩⟩ := step_cases hst
  · exact {
      toBusLegal := h.advance _
      phase_between := by simpa using h.phase_between
      micro_zero := by simpa using h.micro_zero
      sampled_zero := by simpa using h.sampled_zero }
  · exact raise_legal h.toBusLegal _
  · exact exec_legal h he

/-! ### The operation index -/

theorem microStep_pc (D : Draws) (m : Micro) (s : State) : (microStep D m s).pc = s.pc := by
  cases m with
  | prim p => simp [microStep]
  | enter ph => rfl
  | emit a => rfl

theorem runMicros_pc (D : Draws) (ms : List Micro) (s : State) : (runMicros D ms s).pc = s.pc :=
  runMicros_keeps (P := fun u => u.pc = s.pc) (fun m _ u hu => (microStep_pc D m u).trans hu) rfl

theorem advancePc_faulted {s : State} (h : s.fault ≠ none) : advancePc s = s := by
  simp [advancePc, Option.isNone_iff_eq_none, h]

theorem completeMacro_faulted {s : State} (ph : Phase) (h : s.fault ≠ none) : completeMacro ph s = s := by
  simp [completeMacro, Option.isNone_iff_eq_none, h]

/-- An operation that ends without a fault is passed, with `c.micro` at rest; one that faults keeps its index. -/
theorem exec_pc {i : Instr} {s t : State} (h : exec i s = .next t) :
    (t.fault = none ∧ t.pc = s.pc + 1 ∧ (s.micro = 0 → t.micro = 0)) ∨ (t.fault ≠ none ∧ t.pc = s.pc) := by
  obtain ⟨hs, he⟩ := exec_ends h
  cases he with
  | refused f => exact .inr ⟨raise_faulted f s, rfl⟩
  | inited =>
    have hf : (configurePins (elapse Config.draws s)).fault = none := by simpa using hs
    exact .inl ⟨by simpa using hs, by simp [advancePc_safe hf], by simp⟩
  | direct p =>
    by_cases hf : (primStep Config.draws p s).fault = none
    · exact .inl ⟨by simpa using hf, by simp [advancePc_safe hf], by simp⟩
    · exact .inr ⟨by simpa using hf, by simp [advancePc_faulted hf]⟩
  | expanded ph =>
    by_cases hf : (runMicros Config.draws (expansionOf s.params i) { s with micro := 0 }).fault = none
    · exact .inl ⟨by simpa using hf, by simp [completeMacro_safe ph hf, runMicros_pc],
        fun _ => by rw [completeMacro_safe ph hf]⟩
    · exact .inr ⟨by simpa using hf, by rw [completeMacro_faulted ph hf, runMicros_pc]⟩

/-- Settles O14: no primitive writes `c.pc`, so only the end of an operation does (`exec_pc`). -/
theorem operationIndexAdvances : Obligations.OperationIndexAdvances := by
  refine ⟨rfl, rfl, fun i s t hm he => ?_, fun s t hst => ?_⟩
  · rcases exec_pc he with ⟨hf, hpc, hmicro⟩ | ⟨hf, hpc⟩
    · exact ⟨fun _ => ⟨hpc, hmicro hm⟩, fun h => absurd hf h⟩
    · exact ⟨fun h => absurd h hf, fun _ => hpc⟩
  · obtain ⟨-, ⟨-, c, -, rfl⟩ | ⟨cw, -, rfl⟩ | ⟨cw, i, hcw, -, he⟩⟩ := step_cases hst
    · exact .inl (by simp)
    · exact .inl rfl
    · rcases exec_pc he with ⟨hf, hpc, -⟩ | ⟨-, hpc⟩
      · exact .inr ⟨hpc, hf, by simp [hcw]⟩
      · exact .inl hpc

/-! ### What only grows -/

/-- From `s` to `t` time passes, results are added, and the list and the parameters stay (spec/10_state.md R33, R37). -/
structure Forward (s t : State) : Prop where
  now : s.now ≤ t.now
  draws : s.draws ≤ t.draws
  params : t.params = s.params
  program : t.program = s.program
  out : s.out <+: t.out

theorem Forward.refl (s : State) : Forward s s := ⟨le_rfl, le_rfl, rfl, rfl, List.prefix_rfl⟩

theorem Forward.trans {s t u : State} (h : Forward s t) (h' : Forward t u) : Forward s u :=
  ⟨h.now.trans h'.now, h.draws.trans h'.draws, h'.params.trans h.params, h'.program.trans h.program, h.out.trans h'.out⟩

theorem forward_raise (f : Raised) (s : State) : Forward s (raise f s) := { Forward.refl s with }

theorem forward_drew (s : State) : Forward s (drew s) := { Forward.refl s with draws := Nat.le_succ _ }

theorem forward_advance (d : Nat) (s : State) : Forward s (advance d s) := by constructor <;> simp

theorem forward_elapse (D : Draws) (s : State) : Forward s (elapse D s) := by constructor <;> simp

theorem forward_advancePc (s : State) : Forward s (advancePc s) := by constructor <;> simp

theorem forward_completeMacro (ph : Phase) (s : State) : Forward s (completeMacro ph s) := by constructor <;> simp

theorem forward_contentionCheck (s : State) : Forward s (contentionCheck s) := by constructor <;> simp

theorem forward_ioLevel (D : Draws) (k : Fin 8) (s : State) : Forward s (ioLevel D k s).2 := by
  rcases ioLevel_state D k s with e | e <;> rw [e]
  · exact .refl s
  · exact forward_drew s

theorem forward_effect (D : Draws) (p : Prim) (s : State) : Forward s (effect D p s) := by
  cases p with
  | readDataPin k => exact (forward_ioLevel D k s).trans { Forward.refl _ with out := List.prefix_append _ _ }
  | samplePin k => exact (forward_ioLevel D k s).trans { Forward.refl _ with }
  | wait t => exact forward_advance t s
  | setSer | setSrclk | setRclk | setWe | setDataDir | setDataPin => constructor <;> simp [effect]

theorem forward_weReaction {D : Draws} {old new : EeInputs} {s t : State} (h : weReaction D old new s = .ok t) :
    Forward s t := by
  unfold weReaction at h
  split at h
  · obtain ⟨-, -, rfl⟩ := weFalling_ok h
    exact { Forward.refl s with }
  · split at h
    · obtain ⟨tf, a, -, -, -, rfl⟩ := weRising_ok h
      rcases latchByte_cases D a s with ⟨v, -, -, e⟩ | e <;> rw [e]
      · exact { Forward.refl s with }
      · exact { forward_drew s with }
    · cases h; exact .refl s

theorem forward_eepromCheck {D : Draws} {l : Bool} {old new : EeInputs} {s t : State}
    (h : eepromCheck D l old new s = .ok t) : Forward s t := by
  rcases eepromCheck_ok h with ⟨-, -, -, rfl⟩ | ⟨-, -, u, hu, rfl⟩
  · exact .refl t
  · exact (forward_weReaction hu).trans (by constructor <;> simp)

theorem forward_primStep (D : Draws) (p : Prim) (s : State) : Forward s (primStep D p s) := by
  refine (forward_elapse D s).trans ?_
  rw [primStep]
  rcases actNow_cases D p (elapse D s) with ⟨f, e⟩ | ⟨-, t, ht, e⟩ <;> rw [e]
  · exact forward_raise f _
  · exact ((forward_effect D p _).trans (forward_eepromCheck ht)).trans (forward_contentionCheck t)

theorem forward_microStep (D : Draws) (m : Micro) (s : State) : Forward s (microStep D m s) := by
  cases m with
  | prim p => exact (forward_primStep D p s).trans (by constructor <;> simp [microStep])
  | enter ph => exact { Forward.refl s with }
  | emit a => exact { Forward.refl s with out := List.prefix_append _ _ }

theorem forward_runMicros (D : Draws) (ms : List Micro) (s : State) : Forward s (runMicros D ms s) :=
  runMicros_keeps (P := Forward s) (fun m _ u hu => hu.trans (forward_microStep D m u)) (.refl s)

theorem forward_exec {i : Instr} {s t : State} (h : exec i s = .next t) : Forward s t := by
  obtain ⟨-, he⟩ := exec_ends h
  cases he with
  | refused f => exact forward_raise f s
  | inited => exact (forward_elapse Config.draws s).trans (by constructor <;> simp)
  | direct p => exact (forward_primStep Config.draws p s).trans (forward_advancePc _)
  | expanded ph =>
    have hr := forward_runMicros Config.draws (expansionOf s.params i) { s with micro := 0 }
    exact Forward.trans { hr with } (forward_completeMacro ph _)

/-- Settles O27: every operation of the state goes `Forward`, and so does their composition in a step. -/
theorem stepsOnlyMoveForward : Obligations.StepsOnlyMoveForward := by
  intro s t hst
  have h : Forward s t := by
    obtain ⟨-, ⟨-, c, -, rfl⟩ | ⟨cw, -, rfl⟩ | ⟨cw, i, -, -, he⟩⟩ := step_cases hst
    · exact forward_advance _ s
    · exact forward_raise _ s
    · exact forward_exec he
  obtain ⟨l, hl⟩ := h.out
  exact ⟨h.now, h.draws, h.params, h.program, l, hl.symm⟩

/-! ### Stuck and ended runs -/

theorem raise_first {s : State} (f : Raised) (h : s.fault = none) : (raise f s).fault = some f := by simp [h]

theorem raise_later {s : State} {f : Raised} (g : Raised) (h : s.fault = some f) : (raise g s).fault = some f := by simp [h]

theorem gate_stuck {i : Instr} {s : State} {f : Raised} (h : s.fault = some f) (c : State) :
    gate i s c = .fault (.controllerStuck f.code) := by
  simp [gate, h]

theorem exec_stuck {s : State} {f : Raised} (h : s.fault = some f) (i : Instr) :
    exec i s = .fault (.controllerStuck f.code) := by
  cases i with
  | init => simp [exec, execInit, h]
  | setSer | setSrclk | setRclk | setWe | setDataDir | setDataPin | readDataPin | wait | send | select | writeByte
  | readByte | dumpRange => exact gate_stuck h _

theorem step_stuck {s : State} {f : Raised} (h : s.fault = some f) : step s = .fault (.controllerStuck f.code) := by
  simp [step, h]

/-- Settles O10, from the laws of `raise` and the check of the recorded fault that every operation and the step begin with. -/
theorem faultsAreKeptAndStopTheController : Obligations.FaultsAreKeptAndStopTheController :=
  ⟨rfl, fun f _ h => raise_first f h, fun _ g _ h => raise_later g h, fun _ _ h => ⟨step_stuck h, exec_stuck h⟩,
    fun _ => rfl⟩

theorem step_idle {s : State} (h : s.fault = none) (hn : fetch s = none) : step s = idleStep s := by
  simp [step, h, hn]

theorem idleStep_ended {s : State} (h : s.busy = none) : idleStep s = .refused .runEnded := by simp [idleStep, h]

/-- Settles O13: past the end of the list there is nothing to fetch, and no write cycle is open. -/
theorem finalStatesHaveNoStep : Obligations.FinalStatesHaveNoStep := by
  rintro s ⟨hf, hpc, -, hb⟩
  have hn : fetch s = none := List.getElem?_eq_none hpc
  rw [step_idle hf hn, idleStep_ended hb]

/-! ### Time -/

/-- Settles O26, by the cases of `advance`: the open cycle's end has come, or it has not, or no cycle is open. -/
theorem advanceCompletesCycles : Obligations.AdvanceCompletesCycles := by
  intro d s
  refine ⟨fun c hb hd => ?_, fun ho => ?_⟩
  · rw [advance_done hb hd]
    exact ⟨rfl, cellRead_write_same _ _ _ _, fun a ha => cellRead_write_other _ _ _ ha⟩
  · obtain hb | ⟨c, hb⟩ := Option.eq_none_or_eq_some s.busy
    · exact advance_idle hb
    · exact advance_open hb (ho c hb)

end Sys2Proof.Machine
end

section
/-! PROOFS. The statements about the cells that speak of every state: an operation changes a cell only through a write cycle
(spec/20_memory.md R51, R60). -/

namespace Sys2Proof.Machine

/-! ### What the chain holds after a fault-free `send` (spec/41_shift_register_driver.md R124) -/

/-- The lines and stages of the shift-register chain. -/
structure Chain where
  ser : Level
  srclk : Level
  rclk : Level
  shift : Stage
  store : Stage

/-- The chain's part of a state. -/
def State.chain (s : State) : Chain := ⟨s.ser, s.srclk, s.rclk, s.shift, s.store⟩

theorem bystander_chain : Bystander State.chain :=
  ⟨fun _ _ => rfl, fun _ _ => rfl, fun _ _ => rfl, fun _ _ _ => rfl, fun _ => rfl⟩

@[simp] theorem advanceMicro_chain (s : State) : (advanceMicro s).chain = s.chain := by simp [State.chain]

/-- An expansion that ends without a fault has passed its first entry without one. -/
theorem runMicros_cons_safe {D : Draws} {m : Micro} {ms : List Micro} {s : State}
    (hf : (runMicros D (m :: ms) s).fault = none) :
    (microStep D m s).fault = none ∧ runMicros D (m :: ms) s = runMicros D ms (microStep D m s) := by
  cases hm : (microStep D m s).fault with
  | some f => rw [runMicros_cons_fault hm, hm] at hf; cases hf
  | none => exact ⟨rfl, runMicros_cons hm⟩

/-- An expansion in two parts that ends without a fault has passed the first part without one. -/
theorem runMicros_append_safe {D : Draws} {ms ns : List Micro} {s : State} (hs : s.fault = none)
    (hf : (runMicros D (ms ++ ns) s).fault = none) :
    (runMicros D ms s).fault = none ∧ runMicros D (ms ++ ns) s = runMicros D ns (runMicros D ms s) := by
  cases hm : (runMicros D ms s).fault with
  | some f => rw [runMicros_append_fault hm hs, hm] at hf; cases hf
  | none => exact ⟨rfl, runMicros_append hm⟩

/-- A primitive of an expansion that ends without a fault has had its effect on the chain. -/
theorem microStep_chain {D : Draws} {p : Prim} {s : State} (hs : s.fault = none)
    (hf : (microStep D (.prim p) s).fault = none) :
    (microStep D (.prim p) s).chain = (effect D p (elapse D s)).chain := by
  rw [microStep, advanceMicro_chain]
  exact bystander_chain.committed hs (by simpa [microStep] using hf)

/-- One bit of the stream: SER carries it, and the pulse shifts it in if SRCLK was low. -/
theorem sendBit_chain {D : Draws} {b : Bool} {s : State} (hs : s.fault = none)
    (hf : (runMicros D (sendBit b) s).fault = none) :
    (runMicros D (sendBit b) s).chain =
      ⟨Level.ofBool b, .lo, s.rclk, if s.srclk = .lo then shiftIn (some b) s.shift else s.shift, s.store⟩ := by
  rw [sendBit] at hf ⊢
  obtain ⟨f1, e⟩ := runMicros_cons_safe hf
  rw [e] at hf ⊢
  obtain ⟨f2, e⟩ := runMicros_cons_safe hf
  rw [e] at hf ⊢
  obtain ⟨f3, e⟩ := runMicros_cons_safe hf
  have h1 := microStep_chain hs f1
  have h2 := microStep_chain f1 f2
  have h3 := microStep_chain f2 f3
  rw [e]
  simp only [State.chain, effect, Chain.mk.injEq, driveSer_ser] at h1 h2 h3
  cases b <;> simp_all [State.chain, runMicros, Level.ofBool, Level.bit?]

/-- A stream of bits from SRCLK low is shifted in bit by bit. -/
theorem sendBits_chain {D : Draws} (bits : List Bool) {s : State} (hs : s.fault = none) (hl : s.srclk = .lo)
    (hf : (runMicros D (bits.flatMap sendBit) s).fault = none) :
    (runMicros D (bits.flatMap sendBit) s).chain =
      ⟨bits.foldl (fun _ b => Level.ofBool b) s.ser, .lo, s.rclk, bits.foldl (fun u b => shiftIn (some b) u) s.shift,
        s.store⟩ := by
  induction bits generalizing s with
  | nil => simp [State.chain, runMicros, hl]
  | cons b bits ih =>
    rw [List.flatMap_cons] at hf ⊢
    obtain ⟨f1, e⟩ := runMicros_append_safe hs hf
    rw [e] at hf ⊢
    have h1 := sendBit_chain hs f1
    simp only [State.chain, Chain.mk.injEq, hl, if_true] at h1
    obtain ⟨h11, h12, h13, h14, h15⟩ := h1
    rw [ih f1 h12 hf, h11, h13, h14, h15, List.foldl_cons, List.foldl_cons]

/-- The shift stage after the shift phase of `send(w)`: the word's bits enter one by one, and the first pulse is lost unless
SRCLK was low on entry (spec/41_shift_register_driver.md R124). -/
def shiftedStage (srclk : Level) (w : SrWord) (v : Stage) : Stage :=
  (if srclk = .lo then serialBits w else (serialBits w).tail).foldl (fun u b => shiftIn (some b) u) v

/-- The shift phase of `send`. -/
theorem shiftPhase_chain {D : Draws} {w : SrWord} {s : State} (hs : s.fault = none)
    (hf : (runMicros D ((serialBits w).flatMap sendBit) s).fault = none) :
    (runMicros D ((serialBits w).flatMap sendBit) s).chain =
      ⟨Level.ofBool (w.getLsbD 0), .lo, s.rclk, shiftedStage s.srclk w s.shift, s.store⟩ := by
  have hcons : (serialBits w).flatMap sendBit = sendBit (w.getLsbD 15) ++ (serialBits w).tail.flatMap sendBit := rfl
  rw [hcons] at hf ⊢
  obtain ⟨f1, e⟩ := runMicros_append_safe hs hf
  rw [e] at hf ⊢
  have h1 := sendBit_chain hs f1
  simp only [State.chain, Chain.mk.injEq] at h1
  obtain ⟨-, h12, h13, h14, h15⟩ := h1
  rw [sendBits_chain _ f1 h12 hf, h13, h14, h15]
  by_cases hl : s.srclk = .lo <;> simp [hl, shiftedStage, serialBits]

/-- `send` on the chain: the latch pulse copies the shifted stage if RCLK was low on entry, and does nothing otherwise. -/
theorem send_chain {D : Draws} {w : SrWord} {s : State} (hs : s.fault = none)
    (hf : (runMicros D (sendExpansion w) s).fault = none) :
    (runMicros D (sendExpansion w) s).chain =
      ⟨Level.ofBool (w.getLsbD 0), .lo, .lo, shiftedStage s.srclk w s.shift,
        if s.rclk = .lo then shiftedStage s.srclk w s.shift else s.store⟩ := by
  rw [sendExpansion] at hf ⊢
  obtain ⟨f1, e⟩ := runMicros_append_safe hs hf
  rw [e, latchPulse] at hf ⊢
  obtain ⟨f2, e⟩ := runMicros_cons_safe hf
  rw [e] at hf ⊢
  obtain ⟨f3, e⟩ := runMicros_cons_safe hf
  have h1 := shiftPhase_chain hs f1
  have h2 := microStep_chain f1 f2
  have h3 := microStep_chain f2 f3
  rw [e]
  simp only [State.chain, effect, Chain.mk.injEq, driveRclk_rclk] at h1 h2 h3
  simp_all [State.chain, runMicros, Level.ofBool]

/-- Bits shifted in one after another stand in front of what the stage held, the last one first. -/
theorem toList_foldl_shiftIn (bits : List Bool) (v : Stage) :
    (bits.foldl (fun u b => shiftIn (some b) u) v).toList = (bits.reverse.map some ++ v.toList).take 16 := by
  induction bits generalizing v with
  | nil => simp
  | cons b bits ih =>
    rw [List.foldl_cons, ih, toList_shiftIn, List.reverse_cons, List.map_append, List.append_assoc, List.take_append,
      List.take_append]
    congr 1
    cases h : 16 - (bits.reverse.map some).length with
    | zero => simp
    | succ n => simp [List.take_take]; omega

/-- A lost first bit is no bit of the address. -/
theorem stageAddr_shiftedStage (srclk : Level) (w : SrWord) (v : Stage) :
    stageAddr (shiftedStage srclk w v) = some (w.setWidth 11) := by
  unfold shiftedStage
  split
  · rw [foldl_shiftIn_serialBits, stageAddr_wordStage]
  · rw [← stageAddr_wordStage w, stageAddr, toList_foldl_shiftIn, stageAddr]
    rfl

/-- The address after a fault-free `send`: the word's, if it was entered with RCLK low, else the one that was latched. -/
theorem send_addr {D : Draws} {w : SrWord} {s : State} (hs : s.fault = none)
    (hf : (runMicros D (sendExpansion w) s).fault = none) :
    (runMicros D (sendExpansion w) s).addr = if s.rclk = .lo then some (w.setWidth 11) else s.addr := by
  have h := congrArg Chain.store (send_chain hs hf)
  simp only [State.chain] at h
  rw [State.addr, h]
  split
  · exact stageAddr_shiftedStage _ _ _
  · rfl

/-! ### Cells that no write cycle reaches -/

/-- Cell `b` holds `v`, and no write cycle is open that would reach it. -/
structure Spared (b : Addr) (v : Byte) (s : State) : Prop where
  cycle : ∀ c, s.busy = some c → c.addr ≠ b
  cell : s.cell b = v

theorem Spared.congr {b : Addr} {v : Byte} {s t : State} (h : Spared b v s) (hb : t.busy = s.busy)
    (hc : t.cells = s.cells) : Spared b v t :=
  ⟨by simpa [hb] using h.cycle, by simpa [State.cell, hc] using h.cell⟩

theorem Spared.advance {b : Addr} {v : Byte} {s : State} (h : Spared b v s) (d : Nat) : Spared b v (advance d s) := by
  refine ⟨fun c hc => ?_, ?_⟩
  · rcases advance_cases d s with ⟨-, e, -⟩ | ⟨-, -, -, e, -⟩ | ⟨c', hc', -, e, -⟩ <;> rw [e] at hc <;> cases hc
    exact h.cycle c hc'
  · rw [State.cell, cellRead_advance _ _ _ _ h.cycle]
    exact h.cell

theorem Spared.elapse {b : Addr} {v : Byte} {s : State} (h : Spared b v s) (D : Draws) : Spared b v (elapse D s) :=
  (h.congr (t := drew s) rfl rfl).advance _

theorem Spared.effect {b : Addr} {v : Byte} {s : State} (h : Spared b v s) (D : Draws) (p : Prim) :
    Spared b v (effect D p s) := by
  cases p with
  | wait t => exact h.advance t
  | readDataPin k | samplePin k =>
    refine h.congr ?_ ?_ <;> rcases ioLevel_state D k s with e | e <;>
      simp [Machine.effect, samplePinOut, samplePinByte, e]
  | setSer | setSrclk | setRclk | setWe | setDataDir | setDataPin =>
    exact h.congr (by simp [Machine.effect]) (by simp [Machine.effect])

/-- A cycle opened for another cell spares this one. -/
theorem Spared.openCycle {a b : Addr} {v : Byte} {s : State} (h : Spared b v s) (ha : a ≠ b) (u : Byte) :
    Spared b v (openCycle a u s) := by
  refine ⟨fun c hc => ?_, h.cell⟩
  cases hc
  exact ha

/-- Only a rising edge of WE_n at this cell's address reaches it (spec/20_memory.md R58). -/
theorem Spared.weReaction {D : Draws} {old new : EeInputs} {b : Addr} {v : Byte} {s t : State} (h : Spared b v s)
    (ha : old.weN = false → new.weN = true → s.addr ≠ some b) (ht : weReaction D old new s = .ok t) : Spared b v t := by
  unfold Machine.weReaction at ht
  split at ht
  · obtain ⟨-, -, rfl⟩ := weFalling_ok ht
    exact h.congr rfl rfl
  · split at ht
    · next hr =>
      obtain ⟨tf, a, -, -, haddr, rfl⟩ := weRising_ok ht
      have hab : a ≠ b := by
        rintro rfl
        simp only [Bool.and_eq_true, Bool.not_eq_true'] at hr
        exact ha hr.1 hr.2 haddr
      rcases latchByte_cases D a s with ⟨u, -, -, e⟩ | e <;> rw [e]
      · exact h.openCycle hab u
      · exact (h.congr (t := drew s) rfl rfl).openCycle hab _
    · cases ht; exact h

theorem Spared.eepromCheck {D : Draws} {l : Bool} {old new : EeInputs} {b : Addr} {v : Byte} {s t : State}
    (h : Spared b v s) (ha : old.weN = false → new.weN = true → s.addr ≠ some b)
    (ht : eepromCheck D l old new s = .ok t) : Spared b v t := by
  rcases eepromCheck_ok ht with ⟨-, -, -, rfl⟩ | ⟨-, -, u, hu, rfl⟩
  · exact h
  · exact (h.weReaction ha hu).congr (by simp) (by simp)

/-- Only SET_WE to 1 raises WE_n. -/
theorem effect_raises_we {D : Draws} {p : Prim} {s : State} (h0 : (eeInputs s).weN = false)
    (h1 : (eeInputs (effect D p s)).weN = true) : p = .setWe true := by
  by_cases hp : ∃ l, p = .setWe l
  · obtain ⟨l, rfl⟩ := hp
    cases l with
    | true => rfl
    | false => simp [eeInputs, effect, Level.ofBool, Level.weSeen] at h1
  · have hw : (effect D p s).weN = s.weN := effect_weN fun l e => hp ⟨l, e⟩
    simp only [eeInputs, hw] at h0 h1
    rw [h0] at h1
    cases h1

/-- A primitive reaches no cell; only SET_WE to 1 can open a cycle, at the address A then has. -/
theorem Spared.primStep {b : Addr} {v : Byte} {s : State} (h : Spared b v s) (D : Draws) {p : Prim}
    (ha : p = .setWe true → s.addr ≠ some b) : Spared b v (primStep D p s) := by
  have he := h.elapse D
  rw [Machine.primStep]
  rcases actNow_cases D p (Machine.elapse D s) with ⟨f, e⟩ | ⟨-, t, ht, e⟩ <;> rw [e]
  · exact he.congr rfl rfl
  · refine Spared.congr ((he.effect D p).eepromCheck (fun h0 h1 => ?_) ht) (by simp) (by simp)
    obtain rfl := effect_raises_we h0 h1
    simpa [Machine.effect, State.addr] using ha rfl

theorem Spared.microStep {b : Addr} {v : Byte} {s : State} (h : Spared b v s) (D : Draws) {m : Micro}
    (ha : m = .prim (.setWe true) → s.addr ≠ some b) : Spared b v (microStep D m s) := by
  cases m with
  | prim p => exact (h.primStep D fun e => ha (e ▸ rfl)).congr (by simp [Machine.microStep]) (by simp [Machine.microStep])
  | enter ph => exact h.congr rfl rfl
  | emit a => exact h.congr rfl rfl

/-- An expansion without a rising edge of WE_n reaches no cell. -/
theorem Spared.runMicros {b : Addr} {v : Byte} {s : State} (h : Spared b v s) (D : Draws) {ms : List Micro}
    (hm : .prim (.setWe true) ∉ ms) : Spared b v (runMicros D ms s) :=
  runMicros_keeps (fun _ hmem _ hu => hu.microStep D fun e => absurd (e ▸ hmem) hm) h

theorem microStep_addr {D : Draws} {m : Micro} {s : State} (hm : ∀ l, m ≠ .prim (.setRclk l)) :
    (microStep D m s).addr = s.addr := by
  cases m with
  | prim p => simp [State.addr, microStep, primStep_store fun l (e : p = .setRclk l) => hm l (e ▸ rfl)]
  | enter ph => rfl
  | emit a => rfl

/-- An expansion that latches no address and starts with another one on A reaches no cell but that one. -/
theorem Spared.runMicros_addressed {b : Addr} {v : Byte} {s : State} (h : Spared b v s) (D : Draws) {ms : List Micro}
    (hm : ∀ l, .prim (.setRclk l) ∉ ms) (ha : s.addr ≠ some b) : Spared b v (Machine.runMicros D ms s) := by
  refine (runMicros_keeps (P := fun u => Spared b v u ∧ u.addr ≠ some b) ?_ ⟨h, ha⟩).1
  rintro m hmem u ⟨hu, hua⟩
  refine ⟨hu.microStep D fun _ => hua, ?_⟩
  rwa [microStep_addr fun l e => hm l (e ▸ hmem)]

/-! ### Operations -/

/-- WRITE_BYTE alone raises WE_n within an expansion. -/
theorem setWe_not_mem_expansionOf {p : Params} {i : Instr} (hi : ∀ v a, i ≠ .writeByte v a) :
    .prim (.setWe true) ∉ expansionOf p i := by
  cases i <;> simp [expansionOf, selectExpansion, sendExpansion, sendBit, latchPulse, dumpRangeExpansion,
    readByteExpansion, sampleByte]
  simp at hi

/-- WRITE_BYTE selects its address and latches no other afterwards. -/
theorem writeByteExpansion_split (p : Params) (a : BitVec 16) (v : Byte) :
    ∃ ns, writeByteExpansion p a v = selectExpansion a false ++ ns ∧ ∀ l, .prim (.setRclk l) ∉ ns := by
  refine ⟨.enter .addressSelected :: .prim (.setDataDir .output) :: .enter .dataDriven ::
    (driveByte p.pinForBit v ++ .prim (.setWe false) :: writeBytePulse p), ?_, fun l => ?_⟩
  · simp [writeByteExpansion, writeByteOpening]
  · simp [driveByte, writeBytePulse]

/-- WRITE_BYTE reaches no cell but the one its pulse addresses (spec/41_shift_register_driver.md R124). -/
theorem Spared.writeByte {b : Addr} {x : Byte} {s : State} (h : Spared b x s) (D : Draws) (hs : s.fault = none) {v : Byte}
    {a : BitVec 16} (hlo : s.rclk = .lo → a.setWidth 11 ≠ b) (hhi : s.rclk ≠ .lo → s.addr ≠ some b) :
    Spared b x (Machine.runMicros D (writeByteExpansion s.params a v) s) := by
  obtain ⟨ns, hns, hm⟩ := writeByteExpansion_split s.params a v
  have hsel : Spared b x (Machine.runMicros D (selectExpansion a false) s) :=
    h.runMicros D (setWe_not_mem_expansionOf (p := s.params) (i := .select false a) (by simp))
  rw [hns]
  cases hf : (Machine.runMicros D (selectExpansion a false) s).fault with
  | some f => rwa [runMicros_append_fault hf hs]
  | none =>
    rw [runMicros_append hf]
    refine hsel.runMicros_addressed D hm ?_
    rw [selectExpansion] at hf ⊢
    rw [send_addr hs hf, packWord_addr]
    split
    · next hl => simpa using hlo hl
    · next hl => exact hhi hl

/-- SET_WE passes no time but its latency, so a cycle it opens has not reached its cell. -/
theorem primStep_setWe_cells (D : Draws) (l : Bool) (s : State) : (primStep D (.setWe l) s).cells = (elapse D s).cells :=
  bystander_cells.actNow (by simp [effect])

/-- A primitive changes no cell that no open write cycle reaches. -/
theorem Spared.primStep_cell {b : Addr} {v : Byte} {s : State} (h : Spared b v s) (D : Draws) (p : Prim) :
    (Machine.primStep D p s).cell b = v := by
  by_cases hp : p = .setWe true
  · rw [hp, State.cell, primStep_setWe_cells]
    exact (h.elapse D).cell
  · exact (h.primStep D fun e => absurd e hp).cell

/-- Settles O58: a cell that no open write cycle reaches stays so from primitive to primitive (`Spared.primStep`), unless WE_n
rises at its address, which inside an expansion only WRITE_BYTE makes it do (`Spared.writeByte`). -/
theorem cellsChangeOnlyByWriteCycles : Obligations.CellsChangeOnlyByWriteCycles := by
  intro i s t b he hb ha
  obtain ⟨hs, he⟩ := exec_ends he
  have h : Spared b (s.cell b) s := ⟨hb, rfl⟩
  cases he with
  | refused f => rfl
  | inited => simpa [State.cell] using (h.elapse Config.draws).cell
  | direct p => simpa [State.cell] using h.primStep_cell Config.draws p
  | expanded ph =>
    have h0 : Spared b (s.cell b) { s with micro := 0 } := h.congr rfl rfl
    rw [State.cell, completeMacro_cells]
    by_cases hi : ∃ v a, i = .writeByte v a
    · obtain ⟨v, a, rfl⟩ := hi
      obtain ⟨hlo, hhi⟩ := ha v a rfl
      exact (h0.writeByte Config.draws hs hlo hhi).cell
    · exact (h0.runMicros Config.draws (setWe_not_mem_expansionOf fun v a e => hi ⟨v, a, e⟩)).cell

end Sys2Proof.Machine
end

section
/-! PROOFS. The statements about the checks of the EEPROM's inputs (spec/20_memory.md R57 to R61) and about its own step (R60). -/

namespace Sys2Proof.Machine

/-! ### Which inputs a primitive changes (spec/40_pin_primitives.md R110) -/

/-- The one primitive with an RCLK rising edge. -/
theorem rclkRose_effect {D : Draws} {p : Prim} {s : State} :
    rclkRose s (effect D p s) = true ↔ p = .setRclk true ∧ s.rclk = .lo := by
  by_cases hp : ∃ l, p = .setRclk l
  · obtain ⟨l, rfl⟩ := hp
    cases l <;> simp [rclkRose, effect, Level.ofBool]
  · have hr : rclkRose s (effect D p s) = false := rclkRose_same (effect_rclk fun l e => hp ⟨l, e⟩)
    rw [hr]
    simp only [Bool.false_eq_true, false_iff, not_and]
    exact fun e => absurd ⟨true, e⟩ hp

theorem aChanged_iff {l : Bool} {old new : EeInputs} :
    aChanged l old new = true ↔ new.a ≠ old.a ∨ (l = true ∧ (old.a = none ∨ new.a = none)) := by
  rw [ne_comm]
  simp [aChanged]

theorem oeChanged_iff {l : Bool} {old new : EeInputs} :
    oeChanged l old new = true ↔ new.oeN ≠ old.oeN ∨ (l = true ∧ (old.oeN = none ∨ new.oeN = none)) := by
  rw [ne_comm]
  simp [oeChanged]

theorem address_mem_changedInputs {l : Bool} {old new : EeInputs} :
    .address ∈ changedInputs l old new ↔ aChanged l old new = true := by
  simp [changedInputs]

theorem outputEnable_mem_changedInputs {l : Bool} {old new : EeInputs} :
    .outputEnable ∈ changedInputs l old new ↔ oeChanged l old new = true := by
  simp [changedInputs]

theorem dataBus_mem_changedInputs {l : Bool} {old new : EeInputs} :
    .dataBus ∈ changedInputs l old new ↔ new.busC ≠ old.busC := by
  rw [ne_comm]
  simp [changedInputs]

/-- The inputs the EEPROM's check compares for a primitive. -/
def inputChanges (D : Draws) (p : Prim) (s : State) : List EeInput :=
  changedInputs (rclkRose s (effect D p s)) (eeInputs s) (eeInputs (effect D p s))

/-- A change the check does not list is one of WE_n. -/
theorem InputsChange.seen {D : Draws} {p : Prim} {s : State} (h : InputsChange D p s) :
    inputChanges D p s ≠ [] ∨ (eeInputs s).weN ≠ (eeInputs (effect D p s)).weN := by
  by_contra hn
  rw [not_or, not_not, not_not] at hn
  obtain ⟨hc, hw⟩ := hn
  obtain ⟨ha, ho, hb⟩ := changedInputs_nil.1 hc
  rw [← Bool.not_eq_true, aChanged_iff, not_or, not_not] at ha
  rw [← Bool.not_eq_true, oeChanged_iff, not_or, not_not] at ho
  rcases h with h | ⟨hp, hl, hu⟩
  · apply h
    rw [EeInputs.mk.injEq]
    exact ⟨ha.1, ho.1, hw.symm, hb.symm⟩
  · have hr : rclkRose s (effect D p s) = true := rclkRose_effect.2 ⟨hp, hl⟩
    simp only [hr, true_and, not_or, eeInputs] at ha ho
    tauto

/-- Time changes no input. -/
theorem InputsChange.not_wait {D : Draws} {t : Nat} {s : State} : ¬ InputsChange D (.wait t) s := by
  simp [InputsChange, effect, waitFor]

/-- No primitive but WAIT lets time pass in its effect. -/
theorem effect_busy {D : Draws} {p : Prim} {s : State} (h : ∀ t, p ≠ .wait t) : (effect D p s).busy = s.busy := by
  cases p with
  | wait t => exact absurd rfl (h t)
  | readDataPin k => rcases ioLevel_state D k s with e | e <;> simp [effect, samplePinOut, e]
  | samplePin k => rcases ioLevel_state D k s with e | e <;> simp [effect, samplePinByte, e]
  | setSer | setSrclk | setRclk | setWe | setDataDir | setDataPin => simp [effect]

theorem InputsChange.busy {D : Draws} {p : Prim} {s : State} (h : InputsChange D p s) : (effect D p s).busy = s.busy :=
  effect_busy fun _ e => InputsChange.not_wait (e ▸ h)

/-- Settles O39: the change is one the EEPROM's check sees (`InputsChange.seen`), and it is made with the cycle still open
(`InputsChange.busy`). -/
theorem writeCycleIsProtected : Obligations.WriteCycleIsProtected := by
  intro D p s c hp hb h
  exact actNow_error hp (eepromCheck_busy (h.busy.trans hb) h.seen)

/-- A change while WE_n is low and stays low (spec/20_memory.md R59). -/
theorem eepromCheck_unstable {D : Draws} {l : Bool} {old new : EeInputs} {s : State} (hb : s.busy = none)
    (ho : old.weN = false) (hn : new.weN = false) (hc : changedInputs l old new ≠ []) :
    eepromCheck D l old new s = .error (.writeSignalsUnstable (changedInputs l old new)) := by
  simp [eepromCheck, hb, ho, hn, hc]

/-- Settles O40: the list is that of the EEPROM's check, whose members are the inputs that changed. -/
theorem pulseSignalsAreStable : Obligations.PulseSignalsAreStable := by
  intro D p s hp hb hs ht h
  have ho : (eeInputs s).weN = false := by simp [eeInputs, hs, Level.weSeen]
  have hn : (eeInputs (effect D p s)).weN = false := by simp [eeInputs, ht, Level.weSeen]
  have hc : inputChanges D p s ≠ [] := h.seen.resolve_right fun hw => hw (ho.trans hn.symm)
  refine ⟨inputChanges D p s, hc, actNow_error hp (eepromCheck_unstable (h.busy.trans hb) ho hn hc), ?_, ?_, ?_⟩
  · rw [inputChanges, address_mem_changedInputs, aChanged_iff, rclkRose_effect, and_assoc]
    rfl
  · rw [inputChanges, outputEnable_mem_changedInputs, oeChanged_iff, rclkRose_effect, and_assoc]
    rfl
  · rw [inputChanges, dataBus_mem_changedInputs]
    rfl

/-! ### Edges of WE_n (spec/20_memory.md R57, R58) -/

/-- SET_WE changes no input the EEPROM's check lists. -/
theorem changedInputs_driveWe (l : Bool) (s : State) :
    changedInputs (rclkRose s (driveWe l s)) (eeInputs s) (eeInputs (driveWe l s)) = [] := by
  rw [rclkRose_same (by simp), changedInputs_nil]
  simp [aChanged, oeChanged, eeInputs, State.addr, State.oeN, State.busC]

theorem weReaction_falling {D : Draws} {s : State} (h : s.weN = .hi) (u : State) :
    weReaction D (eeInputs s) (eeInputs (driveWe false s)) u = weFalling u := by
  simp [weReaction, eeInputs, h, Level.weSeen, Level.ofBool]

theorem weReaction_rising {D : Draws} {s : State} (h : s.weN = .lo) (u : State) :
    weReaction D (eeInputs s) (eeInputs (driveWe true s)) u = weRising D u := by
  simp [weReaction, eeInputs, h, Level.weSeen, Level.ofBool]

/-- SET_WE with no write cycle open faults as the EEPROM's reaction does. -/
theorem actNow_setWe_error {D : Draws} {l : Bool} {s : State} {f : Raised} (hu : s.phase ≠ .uninit) (hd : s.DelayOver)
    (hb : s.busy = none) (hr : weReaction D (eeInputs s) (eeInputs (driveWe l s)) (driveWe l s) = .error f) :
    actNow D (.setWe l) s = raise f s :=
  actNow_error (preCheck_none hd (roleCheck_lines hu l).2.2.2)
    (eepromCheck_reaction_error (s := driveWe l s) (by simpa using hb) (changedInputs_driveWe l s) hr)

/-- SET_WE with no write cycle open leaves what the EEPROM's reaction answers. -/
theorem actNow_setWe_ok {D : Draws} {l : Bool} {s u : State} (hu : s.phase ≠ .uninit) (hd : s.DelayOver)
    (hb : s.busy = none) (hr : weReaction D (eeInputs s) (eeInputs (driveWe l s)) (driveWe l s) = .ok u) :
    actNow D (.setWe l) s = contentionCheck u :=
  actNow_ok (preCheck_none hd (roleCheck_lines hu l).2.2.2)
    (eepromCheck_reaction (s := driveWe l s) (by simpa using hb) (changedInputs_driveWe l s) hr)

/-- Settles O41, by the two answers of the EEPROM to a falling edge. -/
theorem fallingEdgeChecksSelection : Obligations.FallingEdgeChecksSelection := by
  intro D s hd hu hb hw
  have hd' := delayOver_elapse D hd
  have hb' := elapse_busy_none (D := D) hb
  refine ⟨fun h => ?_, fun ho ha => ?_⟩
  · have hr : weFalling (driveWe false (elapse D s)) = .error (.writeSelectInvalid s.addr s.oeN) := by
      simpa [State.addr, State.oeN] using
        weFalling_refused (s := driveWe false (elapse D s)) (by simpa [State.addr, State.oeN] using h)
    exact actNow_setWe_error (by simpa using hu) hd' hb' (by rw [weReaction_falling (by simpa using hw), hr])
  · exact actNow_weFall (by simpa using hu) hd' hb' (by simpa using hw) (by simpa using ho) (by simpa using ha)

theorem weRising_long {D : Draws} {s : State} {tf : Nat} {a : Addr} (h1 : s.weFall = some tf)
    (h2 : s.params.tWpMin ≤ s.now - tf) (h3 : s.addr = some a) : weRising D s = .ok (latchByte D a s) := by
  simp [weRising, h1, h3, Nat.not_lt.2 h2]

/-- The byte that is latched: the driven one, if one is driven. -/
theorem latchByte_opens (D : Draws) (a : Addr) (s : State) :
    ∃ v, (latchByte D a s = openCycle a v s ∨ latchByte D a s = openCycle a v (drew s)) ∧
      (s.dataDir = .output → ∀ u, s.dataOut = some u → v = u) := by
  by_cases h : ∃ v, s.dataDir = .output ∧ s.dataOut = some v
  · obtain ⟨v, hd, hv⟩ := h
    exact ⟨v, .inl (latchByte_driven hd hv), fun _ u hu => Option.some.inj (hv.symm.trans hu)⟩
  · rcases latchByte_cases D a s with ⟨v, hd, hv, -⟩ | e
    · exact absurd ⟨v, hd, hv⟩ h
    · exact ⟨_, .inr e, fun hd u hu => absurd ⟨u, hd, hu⟩ h⟩

/-- Settles O42, by the two answers of the EEPROM to a rising edge. -/
theorem risingEdgeChecksThePulse : Obligations.RisingEdgeChecksThePulse := by
  intro D s tf a hd hu hb hw hf ha hc
  have hd' := delayOver_elapse D hd
  have hb' := elapse_busy_none (D := D) hb
  have hu' : (elapse D s).phase ≠ .uninit := by simpa using hu
  have hre := weReaction_rising (D := D) (s := elapse D s) (by simpa using hw) (driveWe true (elapse D s))
  refine ⟨fun h => ?_, fun h => ?_⟩
  · have hr : weRising D (driveWe true (elapse D s)) = .error (.wePulseTooShort ((elapse D s).now - tf)) := by
      simpa using weRising_short (D := D) (s := driveWe true (elapse D s)) (by simpa using hf) (by simpa using h)
    exact actNow_setWe_error hu' hd' hb' (hre.trans hr)
  · have hr : weRising D (driveWe true (elapse D s)) = .ok (latchByte D a (driveWe true (elapse D s))) :=
      weRising_long (by simpa using hf) (by simpa using h) (by simpa [State.addr] using ha)
    obtain ⟨v, e, hv⟩ := latchByte_opens D a (driveWe true (elapse D s))
    have hfree : (latchByte D a (driveWe true (elapse D s))).contention = false := by
      rw [← hc]
      rcases e with e | e <;> rw [e] <;> exact contention_congr (by simp) (by simp)
    rw [primStep, actNow_setWe_ok hu' hd' hb' (hre.trans hr), contentionCheck_none hfree]
    refine ⟨v, ?_, ?_, ?_, by simpa using hv⟩ <;> rcases e with e | e <;> simp [e]

/-! ### The EEPROM's own step (spec/20_memory.md R60) -/

/-- Settles O12: the idle step passes exactly the time after which the cycle's end has come. -/
theorem eepromCompletesOnItsOwn : Obligations.EepromCompletesOnItsOwn := by
  intro s c hf hn hb
  have hd : c.tEnd ≤ s.now + (c.tEnd - s.now) := by omega
  refine ⟨advance (c.tEnd - s.now) s, by rw [step_idle hf hn]; simp [idleStep, hb], ?_⟩
  rw [advance_done hb hd]
  exact ⟨by simp only; omega, rfl, cellRead_write_same _ _ _ _, fun a ha => cellRead_write_other _ _ _ ha, rfl⟩

end Sys2Proof.Machine
end

section
/-! PROOFS. What WRITE_BYTE and READ_BYTE do from a state a transaction left (spec/42_eeprom_transactor.md R136, R140), and what a
read after a write returns (spec/20_memory.md R64, R71). -/

namespace Sys2Proof.Machine

/-! ### Parts of an expansion -/

theorem runMicros_singleton (D : Draws) (m : Micro) (s : State) : runMicros D [m] s = microStep D m s := by
  rw [runMicros]
  split <;> rfl

/-- Entering a phase does nothing else. -/
theorem runMicros_enter {D : Draws} {ph : Phase} {ms : List Micro} {s : State} (hs : s.fault = none) :
    runMicros D (.enter ph :: ms) s = runMicros D ms { s with phase := ph } := runMicros_cons (m := .enter ph) hs

/-- Two spans of time in a row. -/
theorem advance_advance (d e : Nat) (s : State) : advance e (advance d s) = advance (d + e) s := by
  obtain hb | ⟨c, hb⟩ := Option.eq_none_or_eq_some s.busy
  · rw [advance_idle hb, advance_idle hb, advance_idle (by exact hb)]
    simp [Nat.add_assoc]
  · by_cases hd : c.tEnd ≤ s.now + d
    · rw [advance_done hb hd, advance_done (d := d + e) hb (by omega), advance_idle rfl]
      simp [Nat.add_assoc]
    · rw [advance_open hb (Nat.lt_of_not_le hd)]
      by_cases he : c.tEnd ≤ s.now + d + e
      · rw [advance_done (d := d + e) hb (by omega), advance_done (by exact hb) (by exact he)]
        simp [Nat.add_assoc]
      · rw [advance_open (d := d + e) hb (by omega), advance_open (by exact hb) (by simp only; omega)]
        simp [Nat.add_assoc]

/-! ### Single primitives of a transaction -/

theorem microStep_setDataDir {D : Draws} {s : State} (h : Calm s) (hs : s.Steady) {d : Dir}
    (hc : d = .output → s.oeN = some true) :
    microStep D (.prim (.setDataDir d)) s =
      { s with dataDir := d, now := s.now + D.latency s.draws, draws := s.draws + 1, micro := s.micro + 1 } := by
  rw [microStep_prim (actNow_setDataDir (delayOver_elapse D h.delay) (.inr ⟨elapse_busy_none hs.1, by simpa using hs.2⟩)
    (by simpa using hc)) (by simp [h.safe]), elapse_idle hs.1]
  rfl

theorem microStep_weFall {D : Draws} {s : State} (h : Calm s) (hb : s.busy = none) (hw : s.weN = .hi)
    (ho : s.oeN = some true) (ha : s.addr ≠ none) :
    microStep D (.prim (.setWe false)) s =
      { s with
        weN := .lo, weFall := some (s.now + D.latency s.draws), now := s.now + D.latency s.draws, draws := s.draws + 1,
        micro := s.micro + 1 } := by
  have hc := h.elapse D
  rw [microStep_prim (actNow_weFall hc.inited hc.delay (elapse_busy_none hb) (by simpa using hw) (by simpa using ho)
    (by simpa using ha)) hc.safe, elapse_idle hb]

theorem microStep_weRise {D : Draws} {s : State} {tf : Nat} {a : Addr} {q : Byte} (h : Calm s) (hb : s.busy = none)
    (hw : s.weN = .lo) (hf : s.weFall = some tf) (ht : tf + s.params.tWpMin ≤ s.now) (ha : s.addr = some a)
    (hd : s.dataDir = .output) (hq : s.dataOut = some q) :
    microStep D (.prim (.setWe true)) s =
      { s with
        weN := .hi, weFall := none, lastWeRise := some (s.now + D.latency s.draws),
        busy := some ⟨a, q, s.now + D.latency s.draws + s.params.tWc⟩, now := s.now + D.latency s.draws,
        draws := s.draws + 1, micro := s.micro + 1 } := by
  have hc := h.elapse D
  have hact := actNow_weRise (D := D) (tf := tf) (a := a) hc.inited hc.delay (elapse_busy_none hb) (by simpa using hw)
    (by simpa using hf) (by rw [elapse_now, elapse_params]; omega) (by simpa using ha) hc.free
  rw [latchByte_driven (v := q) (by simpa using hd) (by simpa using hq)] at hact
  rw [microStep_prim hact hc.safe, elapse_idle hb]
  rfl

theorem advance_with_micro (d n : Nat) (s : State) :
    { advance d s with micro := n } = advance d { s with micro := n } := by
  unfold advance
  cases s.busy with
  | none => rfl
  | some c => dsimp only; split <;> rfl

/-- WAIT lets its latency and its time pass. -/
theorem microStep_wait {D : Draws} {s : State} (hs : s.fault = none) (hc : s.contention = false) (t : Nat) :
    microStep D (.prim (.wait t)) s =
      advance (D.latency s.draws + t) { s with draws := s.draws + 1, micro := s.micro + 1 } := by
  rw [microStep_prim (actNow_wait (by simpa using hc) t) (by simpa using hs), elapse, advance_advance, advance_with_micro]
  simp [drew]

theorem microStep_wait_idle {D : Draws} {s : State} (h : Calm s) (hb : s.busy = none) (t : Nat) :
    microStep D (.prim (.wait t)) s =
      { s with now := s.now + (D.latency s.draws + t), draws := s.draws + 1, micro := s.micro + 1 } := by
  rw [microStep_wait h.safe h.free, advance_idle (by exact hb)]

/-! ### Selecting an address (spec/42_eeprom_transactor.md R133) -/

/-- The address is latched, with its output-enable flag inverted, and A and OE_n changed at one instant, if at all. -/
theorem runMicros_select {D : Draws} {s : State} {a : BitVec 16} {o : Bool} (h : Calm s) (hsr : s.srclk = .lo)
    (hr : s.rclk = .lo) (hs : s.Steady) (hc : s.dataDir = .output → o = false) (ha : a.toNat ≤ 2047) :
    ∃ n k, k ≤ n ∧ runMicros D (selectExpansion a o ++ [.enter .addressSelected]) s =
      { s with
        ser := Level.ofBool ((packWord a o).getLsbD 0), shift := wordStage (packWord a o),
        store := wordStage (packWord a o), tSel := if selects s (wordStage (packWord a o)) then s.now + k else s.tSel,
        phase := .addressSelected, now := s.now + n, draws := s.draws + 50, micro := s.micro + 50 } := by
  obtain ⟨n, k, y, m, hk, hp, h1⟩ := runMicros_send (D := D) h hsr hr (packWord a o) (fun _ => hs)
    (fun hd => by rw [packWord_oe o ha, hc hd]; rfl)
  rw [hs.1] at hp
  obtain ⟨rfl, rfl⟩ := hp.of_none
  refine ⟨n, k, hk, ?_⟩
  rw [selectExpansion, runMicros_append (by rw [h1]; exact h.safe), runMicros_singleton, h1, ← hs.1]
  rfl

/-! ### WRITE_BYTE (spec/42_eeprom_transactor.md R136) -/

/-- Steps 3 and 4: the pins become outputs and carry the byte. -/
theorem runMicros_dataDriven {D : Draws} (m : PinMap) (v : Byte) {s : State} (h : Calm s) (hs : s.Steady)
    (ho : s.oeN = some true) (hu : s.dataOut ≠ none) :
    ∃ n, runMicros D (.prim (.setDataDir .output) :: .enter .dataDriven :: driveByte m v) s =
      { s with
        dataDir := .output, phase := .dataDriven, dataOut := some (pinLevels m v), now := s.now + n, draws := s.draws + 9,
        micro := s.micro + 9 } := by
  have h1 := microStep_setDataDir (D := D) h hs (d := .output) fun _ => ho
  obtain ⟨n, hn⟩ := runMicros_driveByte (D := D) m v
    (s := { s with
      dataDir := .output, phase := .dataDriven, now := s.now + D.latency s.draws, draws := s.draws + 1,
      micro := s.micro + 1 })
    ⟨h.safe, by simp, delayOver_later h.delay rfl rfl (by simp), contention_disabled ho⟩ rfl hs hu
  refine ⟨D.latency s.draws + n, ?_⟩
  rw [runMicros_cons (by rw [h1]; exact h.safe), h1, runMicros_enter (by exact h.safe), hn]
  simp
  omega

/-- Steps 3 to 5: the byte is driven and WE_n falls. -/
theorem runMicros_driveAndFall {D : Draws} (m : PinMap) (v : Byte) {s : State} (h : Calm s) (hb : s.busy = none)
    (hw : s.weN = .hi) (ho : s.oeN = some true) (ha : s.addr ≠ none) (hu : s.dataOut ≠ none) :
    ∃ n, runMicros D ((.prim (.setDataDir .output) :: .enter .dataDriven :: driveByte m v) ++ [.prim (.setWe false)]) s =
      { s with
        dataDir := .output, phase := .dataDriven, dataOut := some (pinLevels m v), weN := .lo,
        weFall := some (s.now + n), now := s.now + n, draws := s.draws + 10, micro := s.micro + 10 } := by
  obtain ⟨n, hn⟩ := runMicros_dataDriven (D := D) m v h ⟨hb, by simp [hw]⟩ ho hu
  have hc : Calm (runMicros D (.prim (.setDataDir .output) :: .enter .dataDriven :: driveByte m v) s) := by
    rw [hn]
    exact ⟨h.safe, by simp, delayOver_later h.delay rfl rfl (by simp), contention_disabled ho⟩
  refine ⟨n + D.latency (s.draws + 9), ?_⟩
  rw [runMicros_append hc.safe, runMicros_singleton, microStep_weFall hc (by rw [hn]; exact hb) (by rw [hn]; exact hw)
    (by rw [hn]; exact ho) (by rw [hn]; exact ha), hn]
  simp [Nat.add_assoc]

/-- Steps 2 to 5: the address is selected, the byte driven, and WE_n falls. -/
theorem runMicros_writeByteOpening {D : Draws} (p : Params) {a : BitVec 16} (v : Byte) {s : State} (h : Calm s)
    (hsr : s.srclk = .lo) (hr : s.rclk = .lo) (hb : s.busy = none) (hw : s.weN = .hi) (hu : s.dataOut ≠ none)
    (ha : a.toNat ≤ 2047) :
    ∃ n k, k ≤ n ∧ runMicros D (writeByteOpening p a v) s =
      { s with
        ser := Level.ofBool ((packWord a false).getLsbD 0), shift := wordStage (packWord a false),
        store := wordStage (packWord a false),
        tSel := if selects s (wordStage (packWord a false)) then s.now + k else s.tSel,
        phase := .dataDriven, dataDir := .output, dataOut := some (pinLevels p.pinForBit v), weN := .lo,
        weFall := some (s.now + n), now := s.now + n, draws := s.draws + 60, micro := s.micro + 60 } := by
  obtain ⟨n1, k, hk, h1⟩ := runMicros_select (D := D) (o := false) h hsr hr ⟨hb, by simp [hw]⟩ (fun _ => rfl) ha
  have hoe : (runMicros D (selectExpansion a false ++ [.enter .addressSelected]) s).oeN = some true := by
    rw [h1, State.oeN, stageOeN_wordStage, packWord_oe false ha]
    rfl
  have hc : Calm (runMicros D (selectExpansion a false ++ [.enter .addressSelected]) s) :=
    ⟨by rw [h1]; exact h.safe, by simp [h1], delayOver_later h.delay (by rw [h1]) (by rw [h1]) (by simp [h1]),
      contention_disabled hoe⟩
  obtain ⟨n2, h2⟩ := runMicros_driveAndFall (D := D) p.pinForBit v hc (by rw [h1]; exact hb) (by rw [h1]; exact hw) hoe
    (by simp [h1, State.addr, stageAddr_wordStage]) (by rw [h1]; exact hu)
  have hopen : writeByteOpening p a v = (selectExpansion a false ++ [.enter .addressSelected]) ++
      ((.prim (.setDataDir .output) :: .enter .dataDriven :: driveByte p.pinForBit v) ++ [.prim (.setWe false)]) := by
    simp [writeByteOpening]
  refine ⟨n1 + n2, k, by omega, ?_⟩
  rw [hopen, runMicros_append hc.safe, h2, h1]
  simp [Nat.add_assoc]

/-- Steps 6 to 8: the pulse ends with the byte latched into a write cycle, and the write delay passes. -/
theorem runMicros_writeBytePulse {D : Draws} {p : Params} {s : State} {tf : Nat} {a : Addr} {q : Byte} (h : Calm s)
    (hb : s.busy = none) (hw : s.weN = .lo) (hf : s.weFall = some tf)
    (ht : tf + s.params.tWpMin ≤ s.now + p.tWePulse) (ha : s.addr = some a) (hd : s.dataDir = .output)
    (hq : s.dataOut = some q) :
    ∃ tr d, s.now + p.tWePulse ≤ tr ∧ p.tWriteDelay ≤ d ∧ runMicros D (writeBytePulse p) s =
      advance d { s with
        phase := .writeDelay, weN := .hi, weFall := none, lastWeRise := some tr, busy := some ⟨a, q, tr + s.params.tWc⟩,
        now := tr, draws := s.draws + 3, micro := s.micro + 3 } := by
  have hwait := microStep_wait_idle (D := D) (s := { s with phase := .pulsed })
    ⟨h.safe, by simp, delayOver_later h.delay rfl rfl (by simp), h.free⟩ hb p.tWePulse
  have hc : Calm (microStep D (.prim (.wait p.tWePulse)) { s with phase := .pulsed }) := by
    rw [hwait]
    exact ⟨h.safe, by simp, delayOver_later h.delay rfl rfl (by simp), h.free⟩
  have hrise := microStep_weRise (D := D) (tf := tf) (a := a) (q := q) hc (by rw [hwait]; exact hb)
    (by rw [hwait]; exact hw) (by rw [hwait]; exact hf) (by rw [hwait]; simp only; omega) (by rw [hwait]; exact ha)
    (by rw [hwait]; exact hd) (by rw [hwait]; exact hq)
  refine ⟨s.now + (D.latency s.draws + p.tWePulse) + D.latency (s.draws + 1), D.latency (s.draws + 2) + p.tWriteDelay,
    by omega, by omega, ?_⟩
  rw [writeBytePulse, List.cons_append, runMicros_enter h.safe, List.cons_append, runMicros_cons hc.safe,
    List.cons_append, runMicros_cons (by rw [hrise]; exact hc.safe), List.nil_append,
    runMicros_enter (by rw [hrise]; exact hc.safe), runMicros_singleton,
    microStep_wait (by rw [hrise]; exact hc.safe) (by rw [hrise]; exact hc.free), hrise, hwait]

/-- Steps 2 to 8 in a row. -/
theorem runMicros_writeByte {D : Draws} {a : BitVec 16} (v : Byte) {s : State} (h : Calm s) (hsr : s.srclk = .lo)
    (hr : s.rclk = .lo) (hb : s.busy = none) (hw : s.weN = .hi) (hu : s.dataOut ≠ none) (ha : a.toNat ≤ 2047)
    (hp : s.params.tWpMin ≤ s.params.tWePulse) :
    ∃ tr k d, s.now + k + s.params.tWePulse ≤ tr ∧ s.params.tWriteDelay ≤ d ∧
      runMicros D (writeByteExpansion s.params a v) s =
        advance d { s with
          ser := Level.ofBool ((packWord a false).getLsbD 0), shift := wordStage (packWord a false),
          store := wordStage (packWord a false),
          tSel := if selects s (wordStage (packWord a false)) then s.now + k else s.tSel,
          phase := .writeDelay, dataDir := .output, dataOut := some (pinLevels s.params.pinForBit v), weN := .hi,
          weFall := none, lastWeRise := some tr,
          busy := some ⟨a.setWidth 11, pinLevels s.params.pinForBit v, tr + s.params.tWc⟩, now := tr,
          draws := s.draws + 63, micro := s.micro + 63 } := by
  obtain ⟨n, k, hk, hopen⟩ := runMicros_writeByteOpening (D := D) s.params v h hsr hr hb hw hu ha
  have hc : Calm (runMicros D (writeByteOpening s.params a v) s) := by
    refine ⟨by rw [hopen]; exact h.safe, by simp [hopen], delayOver_later h.delay (by rw [hopen]) (by rw [hopen])
      (by simp [hopen]), contention_disabled ?_⟩
    rw [hopen, State.oeN, stageOeN_wordStage, packWord_oe false ha]
    rfl
  obtain ⟨tr, d, htr, hd, hpulse⟩ := runMicros_writeBytePulse (D := D) (p := s.params) (tf := s.now + n)
    (a := a.setWidth 11) (q := pinLevels s.params.pinForBit v) hc (by rw [hopen]; exact hb) (by rw [hopen])
    (by rw [hopen]) (by rw [hopen]; simp only; omega) (by rw [hopen, State.addr, stageAddr_wordStage, packWord_addr])
    (by rw [hopen]) (by rw [hopen])
  have hnow : (runMicros D (writeByteOpening s.params a v) s).now = s.now + n := by rw [hopen]
  refine ⟨tr, k, d, by omega, hd, ?_⟩
  rw [writeByteExpansion, runMicros_append hc.safe, hpulse, hopen]

/-! ### READ_BYTE (spec/42_eeprom_transactor.md R140) -/

/-- The address part of a latch depends on the latched stages only. -/
theorem selects_congr {s t : State} (h : t.store = s.store) (v : Stage) : selects t v = selects s v := by
  simp [selects, aChanged, oeChanged, eeInputs, State.addr, State.oeN, h]

/-- Step 2: the pins become inputs. -/
theorem runMicros_inputConfigured {D : Draws} {s : State} (h : Calm s) (hs : s.Steady) :
    runMicros D [.prim (.setDataDir .input), .enter .inputConfigured] s =
      { s with
        dataDir := .input, phase := .inputConfigured, now := s.now + D.latency s.draws, draws := s.draws + 1,
        micro := s.micro + 1 } := by
  have hdir := microStep_setDataDir (D := D) h hs (d := .input) (by simp)
  rw [runMicros_cons (by rw [hdir]; exact h.safe), runMicros_singleton, hdir]
  rfl

/-- Steps 3 and 4: the address is selected with OE_n 0, and the lines settle. -/
theorem runMicros_selectAndSettle {D : Draws} (p : Params) {a : BitVec 16} {s : State} (h : Calm s) (hsr : s.srclk = .lo)
    (hr : s.rclk = .lo) (hs : s.Steady) (hi : s.dataDir = .input) (ha : a.toNat ≤ 2047) :
    ∃ n k, k + p.tReadSettle ≤ n ∧
      runMicros D (selectExpansion a true ++ [.enter .addressSelected, .prim (.wait p.tReadSettle)]) s =
        { s with
          ser := Level.ofBool ((packWord a true).getLsbD 0), shift := wordStage (packWord a true),
          store := wordStage (packWord a true), tSel := if selects s (wordStage (packWord a true)) then s.now + k else s.tSel,
          phase := .addressSelected, now := s.now + n, draws := s.draws + 51, micro := s.micro + 51 } := by
  obtain ⟨n, k, hk, h1⟩ := runMicros_select (D := D) (a := a) (o := true) h hsr hr hs (by simp [hi]) ha
  have hc : Calm (runMicros D (selectExpansion a true ++ [.enter .addressSelected]) s) := by
    rw [h1]
    exact ⟨h.safe, by simp, delayOver_later h.delay rfl rfl (by simp), contention_input hi⟩
  refine ⟨n + (D.latency (s.draws + 50) + p.tReadSettle), k, by omega, ?_⟩
  rw [List.append_cons, runMicros_append hc.safe, runMicros_singleton,
    microStep_wait_idle hc (by rw [h1]; exact hs.1), h1]
  simp [Nat.add_assoc]

/-- Steps 5 and 6: the assembled byte goes to the host; it is the cell's where the lines carry it. -/
theorem runMicros_sampleAndEmit {D : Draws} (a : Addr) {s : State} (h : Calm s) (hi : s.dataDir = .input)
    (hb : s.busy = none) :
    ∃ n d q, runMicros D (sampleByte s.params.pinForBit ++ [.enter .sampled, .emit a]) s =
      { s with
        phase := .sampled, out := s.out ++ [.byte a (unpack s.params.pinForBit q)], sampled := 0, now := s.now + n,
        draws := d, micro := s.micro + 8 } ∧ (Readable s a → q = cellRead D s.cells a) := by
  obtain ⟨n, d, q, -, hn, hq⟩ := runMicros_sampleByte (D := D) s.params.pinForBit h hi hb
  refine ⟨n, d, q, ?_, hq a⟩
  rw [runMicros_append (by rw [hn]; exact h.safe), runMicros_enter (by rw [hn]; exact h.safe), runMicros_singleton, hn]
  rfl

/-- `readByte(a)` (spec/42_eeprom_transactor.md R140) up to the sampling. -/
def readByteOpening (p : Params) (a : BitVec 16) : List Micro :=
  .prim (.setDataDir .input) :: .enter .inputConfigured ::
    (selectExpansion a true ++ [.enter .addressSelected, .prim (.wait p.tReadSettle)])

theorem readByteExpansion_eq (p : Params) (a : BitVec 16) :
    readByteExpansion p a =
      readByteOpening p a ++ (sampleByte p.pinForBit ++ [.enter .sampled, .emit (a.setWidth 11)]) := by
  simp [readByteExpansion, readByteOpening]

/-- Steps 2 to 4 in a row. -/
theorem runMicros_readByteOpening {D : Draws} (p : Params) {a : BitVec 16} {s : State} (h : Calm s) (hsr : s.srclk = .lo)
    (hr : s.rclk = .lo) (hs : s.Steady) (ha : a.toNat ≤ 2047) :
    ∃ n k, k + p.tReadSettle ≤ n ∧ runMicros D (readByteOpening p a) s =
      { s with
        ser := Level.ofBool ((packWord a true).getLsbD 0), shift := wordStage (packWord a true),
        store := wordStage (packWord a true), tSel := if selects s (wordStage (packWord a true)) then s.now + k else s.tSel,
        phase := .addressSelected, dataDir := .input, now := s.now + n, draws := s.draws + 52, micro := s.micro + 52 } := by
  have h1 := runMicros_inputConfigured (D := D) h hs
  have hc : Calm (runMicros D [.prim (.setDataDir .input), .enter .inputConfigured] s) := by
    rw [h1]
    exact ⟨h.safe, by simp, delayOver_later h.delay rfl rfl (by simp), contention_input rfl⟩
  have hopen : readByteOpening p a = [.prim (.setDataDir .input), .enter .inputConfigured] ++
      (selectExpansion a true ++ [.enter .addressSelected, .prim (.wait p.tReadSettle)]) := rfl
  rw [hopen, runMicros_append hc.safe]
  obtain ⟨t, ht⟩ : ∃ t, t = runMicros D [.prim (.setDataDir .input), .enter .inputConfigured] s := ⟨_, rfl⟩
  rw [← ht] at h1 hc ⊢
  obtain ⟨n, k, hk, h2⟩ := runMicros_selectAndSettle (D := D) p hc (by rw [h1]; exact hsr) (by rw [h1]; exact hr)
    (by rw [h1]; exact hs) (by rw [h1]) ha
  refine ⟨D.latency s.draws + n, D.latency s.draws + k, by omega, ?_⟩
  rw [h2, selects_congr (s := s) (by rw [h1]), h1]
  simp [Nat.add_assoc]

/-- Steps 2 to 6 in a row: the byte is the cell's when an EEPROM is connected and `T_ACC` has passed. -/
theorem runMicros_readByte {D : Draws} {a : BitVec 16} {s : State} (h : Calm s) (hsr : s.srclk = .lo)
    (hr : s.rclk = .lo) (hs : s.Steady) (ht : s.tSel ≤ s.now) (ha : a.toNat ≤ 2047) :
    ∃ n k d q, k ≤ n ∧ runMicros D (readByteExpansion s.params a) s =
      { s with
        ser := Level.ofBool ((packWord a true).getLsbD 0), shift := wordStage (packWord a true),
        store := wordStage (packWord a true), tSel := if selects s (wordStage (packWord a true)) then s.now + k else s.tSel,
        phase := .sampled, dataDir := .input,
        out := s.out ++ [.byte (a.setWidth 11) (unpack s.params.pinForBit q)], sampled := 0, now := s.now + n, draws := d,
        micro := s.micro + 60 } ∧
      (s.params.connected = true → s.params.tAcc ≤ s.params.tReadSettle → q = cellRead D s.cells (a.setWidth 11)) := by
  obtain ⟨n1, k, hk, h1⟩ := runMicros_readByteOpening (D := D) s.params h hsr hr hs ha
  have hc : Calm (runMicros D (readByteOpening s.params a) s) := by
    rw [h1]
    exact ⟨h.safe, by simp, delayOver_later h.delay rfl rfl (by simp), contention_input rfl⟩
  obtain ⟨n2, d, q, h2, hq⟩ := runMicros_sampleAndEmit (D := D) (a.setWidth 11) hc (by rw [h1]) (by rw [h1]; exact hs.1)
  rw [h1] at h2 hq
  refine ⟨n1 + n2, k, d, q, by omega, ?_, fun hcon hacc => hq ⟨hcon, ?_, ?_, hs.1, ?_⟩⟩
  · rw [readByteExpansion_eq, runMicros_append hc.safe, h1, h2]
    simp [Nat.add_assoc]
  · rw [State.oeN, stageOeN_wordStage, packWord_oe true ha]
    rfl
  · rw [State.addr, stageAddr_wordStage, packWord_addr]
  · simp only
    split <;> omega

/-! ### Operations from a ready state -/

theorem State.Ready.calm {s : State} (h : s.Ready) : Calm s := ⟨h.safe, by simp [h.idle], h.delay_over, h.no_contention⟩

theorem State.Ready.steady {s : State} (h : s.Ready) : s.Steady := ⟨h.no_cycle, by simp [h.we_high]⟩

theorem State.Ready.live {s : State} (h : s.Ready) : s.Live := ⟨h.safe, h.calm.inited⟩

/-- A macro operation whose expansion ends without a fault completes. -/
theorem State.Ready.runMacro_done {D : Draws} {i : Instr} {ms : List Micro} {ph : Phase} {s u : State} (h : s.Ready)
    (he : runMicros D ms s = u) (hu : u.fault = none) :
    runMacro D i none ms ph s = .next { u with phase := ph, micro := 0, pc := u.pc + 1 } := by
  have hs : { s with micro := 0 } = s := by rw [← h.micro_zero]
  exact Machine.runMacro_done h.live (by rw [hs, he]) hu

/-- An address in range lets WRITE_BYTE run its expansion. -/
theorem exec_writeByte_in_range {v : Byte} {a : BitVec 16} (s : State) (ha : a.toNat ≤ 2047) :
    exec (.writeByte v a) s =
      runMacro Config.draws (.writeByte v a) none (writeByteExpansion s.params a v) .idle s := by
  rw [exec, execWriteByte, rangeCheck_ok ha]

/-- An address in range lets READ_BYTE run its expansion. -/
theorem exec_readByte_in_range {a : BitVec 16} (s : State) (ha : a.toNat ≤ 2047) :
    exec (.readByte a) s = runMacro Config.draws (.readByte a) none (readByteExpansion s.params a) .idle s := by
  rw [exec, execReadByte, rangeCheck_ok ha]

/-- WRITE_BYTE stores the byte, as pin levels, in its cell (spec/42_eeprom_transactor.md R136). -/
theorem exec_writeByte_ready (v : Byte) {a : BitVec 16} {s : State} (h : s.Ready) (hp : s.params.Premises)
    (ha : a.toNat ≤ 2047) :
    ∃ t, exec (.writeByte v a) s = .next t ∧ t.Ready ∧ t.out = s.out ∧ t.params = s.params ∧
      t.cells = s.cells.write (a.setWidth 11 : Addr).toNat (pinLevels s.params.pinForBit v) := by
  obtain ⟨hwp, hwc, -⟩ := hp
  obtain ⟨tr, k, d, htr, hd, hrun⟩ := runMicros_writeByte (D := Config.draws) v h.calm h.srclk_low h.rclk_low
    h.no_cycle h.we_high h.latch_known ha hwp
  rw [advance_done rfl (by simp only; omega)] at hrun
  have hexec := (exec_writeByte_in_range (v := v) s ha).trans (h.runMacro_done hrun h.safe)
  refine ⟨_, hexec, ?_, rfl, rfl, rfl⟩
  exact {
    safe := h.safe
    idle := rfl
    micro_zero := rfl
    srclk_low := h.srclk_low
    rclk_low := h.rclk_low
    we_high := rfl
    latch_known := by simp
    no_pulse := rfl
    no_cycle := rfl
    delay_over := by
      rintro r ⟨⟩
      simp only
      omega
    sel_time := by
      have := h.sel_time
      simp only
      split <;> omega
    no_contention := contention_disabled (by
      rw [State.oeN, stageOeN_wordStage, packWord_oe false ha]
      rfl) }

/-- READ_BYTE returns some byte, and the cell's where the lines carry it (spec/42_eeprom_transactor.md R140). -/
theorem exec_readByte_ready {a : BitVec 16} {s : State} (h : s.Ready) (ha : a.toNat ≤ 2047) :
    ∃ t q, exec (.readByte a) s = .next t ∧ t.Ready ∧
      t.out = s.out ++ [.byte (a.setWidth 11) (unpack s.params.pinForBit q)] ∧ t.cells = s.cells ∧ t.params = s.params ∧
      (s.params.connected = true → s.params.tAcc ≤ s.params.tReadSettle → q = s.cell (a.setWidth 11)) := by
  obtain ⟨n, k, d, q, hk, hrun, hq⟩ := runMicros_readByte (D := Config.draws) h.calm h.srclk_low h.rclk_low h.steady
    h.sel_time ha
  have hexec := (exec_readByte_in_range s ha).trans (h.runMacro_done hrun h.safe)
  refine ⟨_, q, hexec, ?_, rfl, rfl, rfl, hq⟩
  exact {
    safe := h.safe
    idle := rfl
    micro_zero := rfl
    srclk_low := h.srclk_low
    rclk_low := h.rclk_low
    we_high := h.we_high
    latch_known := h.latch_known
    no_pulse := h.no_pulse
    no_cycle := h.no_cycle
    delay_over := delayOver_later h.delay_over rfl rfl (by simp)
    sel_time := by
      have := h.sel_time
      simp only
      split <;> omega
    no_contention := contention_input rfl }

/-! ### Write, then read -/

/-- Unpacking undoes driving (spec/30_encoding.md R78). -/
theorem unpack_pinLevels (m : PinMap) (v : Byte) : unpack m (pinLevels m v) = v :=
  byte_ext fun i => by rw [unpack_get, pinLevels_get]

/-- A read of cell `b` after a write of cell `a` returns what the write left in cell `b`. -/
theorem write_then_read (v : Byte) {a b : BitVec 16} {s : State} (h : s.Ready) (hp : s.params.Premises)
    (hcon : s.params.connected = true) (ha : a.toNat ≤ 2047) (hb : b.toNat ≤ 2047) :
    ∃ t u, exec (.writeByte v a) s = .next t ∧ exec (.readByte b) t = .next u ∧ u.fault = none ∧
      u.out = s.out ++ [.byte (b.setWidth 11) (unpack s.params.pinForBit (cellRead Config.draws
        (s.cells.write (a.setWidth 11 : Addr).toNat (pinLevels s.params.pinForBit v)) (b.setWidth 11)))] := by
  obtain ⟨t, hw, ht, hout, hpar, hcells⟩ := exec_writeByte_ready v h hp ha
  obtain ⟨u, q, hr, hu, huout, -, -, hq⟩ := exec_readByte_ready ht hb
  refine ⟨t, u, hw, hr, hu.safe, ?_⟩
  obtain ⟨-, -, hacc⟩ := hp
  rw [huout, hq (by rw [hpar]; exact hcon) (by rw [hpar]; exact hacc), State.cell, hcells, hout, hpar]

/-- Settles O53: the cell read is the one written, and `unpack` undoes `pinLevels`. -/
theorem roundTrip : Obligations.RoundTrip := by
  intro v a s ha h hp hcon
  obtain ⟨t, u, hw, hr, hf, hout⟩ := write_then_read v h hp hcon ha ha
  rw [cellRead_write_same, unpack_pinLevels] at hout
  exact ⟨t, u, hw, hr, hf, hout⟩

/-- Addresses in range are told apart by their eleven bits. -/
theorem setWidth_addr_inj {a b : BitVec 16} (ha : a.toNat ≤ 2047) (hb : b.toNat ≤ 2047)
    (h : a.setWidth 11 = b.setWidth 11) : a = b := by
  have hn := congrArg BitVec.toNat h
  rw [BitVec.toNat_setWidth, BitVec.toNat_setWidth, Nat.mod_eq_of_lt (by omega), Nat.mod_eq_of_lt (by omega)] at hn
  exact BitVec.eq_of_toNat_eq hn

/-- Settles O54: the cell read is another than the one written, so it holds what it held. -/
theorem writesDoNotReachOtherCells : Obligations.WritesDoNotReachOtherCells := by
  intro v a b s ha hb hab h hp hcon
  obtain ⟨t, u, hw, hr, hf, hout⟩ := write_then_read v h hp hcon ha hb
  rw [cellRead_write_other _ _ _ fun e => hab (setWidth_addr_inj ha hb e.symm)] at hout
  exact ⟨t, u, hw, hr, hf, hout⟩

end Sys2Proof.Machine
end

section
/-! PROOFS. The statements about the command word of spec/30_encoding.md: the row a word spells is the one its OP names (R85), and a
row reads every bit its mask leaves free (R82), so decoding and encoding agree both ways; then the step of a loaded list, and the
maps between bytes, words and pins. -/

namespace Sys2Proof

/-! ### The rows (spec/30_encoding.md R85) -/

theorem rows_mask_op {r : Row} (hr : r ∈ rows) : opField r.mask = 0xF#4 := by
  revert r
  decide

theorem rows_op_lt {r : Row} (hr : r ∈ rows) : (opField r.pattern).toNat < 14 := by
  revert r
  decide

theorem rows_op_nodup : (rows.map fun r => opField r.pattern).Nodup := by decide

/-- A word a row spells has the row's OP, since the row's mask covers bits 31..28. -/
theorem opField_of_spells {r : Row} {cw : CommandWord} (hr : r ∈ rows) (h : cw &&& r.mask = r.pattern) :
    opField cw = opField r.pattern := by
  have hand : opField (cw &&& r.mask) = opField cw &&& opField r.mask := BitVec.extractLsb'_and
  have hall : opField cw &&& 0xF#4 = opField cw := BitVec.and_allOnes
  rw [← h, hand, rows_mask_op hr, hall]

theorem rows_eq_of_op {r q : Row} (hr : r ∈ rows) (hq : q ∈ rows) (h : opField r.pattern = opField q.pattern) : r = q :=
  List.inj_on_of_nodup_map rows_op_nodup hr hq h

theorem rows_eq_of_spells {r q : Row} {cw : CommandWord} (hr : r ∈ rows) (hq : q ∈ rows) (h : cw &&& r.mask = r.pattern)
    (h' : cw &&& q.mask = q.pattern) : r = q :=
  rows_eq_of_op hr hq ((opField_of_spells hr h).symm.trans (opField_of_spells hq h'))

/-! ### Decoding (spec/30_encoding.md R84, R85) -/

/-- Everything decoding can do: read the operation by a row the word spells, or answer an error when no row does. -/
theorem decode_cases (cw : CommandWord) :
    (∃ r ∈ rows, cw &&& r.mask = r.pattern ∧ decode cw = .ok (r.read cw)) ∨
    ((∀ r ∈ rows, cw &&& r.mask ≠ r.pattern) ∧ ∃ e, decode cw = .error e) := by
  unfold decode
  split
  · next r hr => exact .inl ⟨r, List.mem_of_find?_eq_some hr, by simpa [Row.spells] using List.find?_some hr, rfl⟩
  · next hn => exact .inr ⟨by simpa [Row.spells] using hn, _, rfl⟩

theorem decode_of_spells {r : Row} {cw : CommandWord} (hr : r ∈ rows) (h : cw &&& r.mask = r.pattern) :
    decode cw = .ok (r.read cw) := by
  rcases decode_cases cw with ⟨q, hq, hs, hd⟩ | ⟨hn, -⟩
  · rw [hd, rows_eq_of_spells hq hr hs h]
  · exact absurd h (hn r hr)

theorem decode_of_unspelled {cw : CommandWord} (h : ∀ r ∈ rows, cw &&& r.mask ≠ r.pattern) : ∃ e, decode cw = .error e := by
  rcases decode_cases cw with ⟨q, hq, hs, -⟩ | ⟨-, he⟩
  · exact absurd hs (h q hq)
  · exact he

theorem spells_of_decode {cw : CommandWord} {i : Instr} (h : decode cw = .ok i) :
    ∃ r ∈ rows, cw &&& r.mask = r.pattern ∧ r.read cw = i := by
  rcases decode_cases cw with ⟨q, hq, hs, hd⟩ | ⟨-, e, he⟩
  · exact ⟨q, hq, hs, Except.ok.inj (hd.symm.trans h)⟩
  · rw [he] at h
    cases h

/-- A word with a reserved OP, or whose row it does not spell, spells no row at all: it could spell only the row of its OP. -/
theorem unspelled_of_illegal {cw : CommandWord}
    (h : 14 ≤ (opField cw).toNat ∨ ∃ r ∈ rows, opField cw = opField r.pattern ∧ cw &&& r.mask ≠ r.pattern) :
    ∀ q ∈ rows, cw &&& q.mask ≠ q.pattern := by
  intro q hq hs
  have hop := opField_of_spells hq hs
  rcases h with hres | ⟨r, hr, hr', hne⟩
  · have := rows_op_lt hq
    rw [hop] at hres
    omega
  · rw [rows_eq_of_op hq hr (hop.symm.trans hr')] at hs
    exact hne hs

/-! ### Decoding an encoded operation -/

/-- Every operation's word is spelled by the operation's row, which reads the operation back. -/
theorem encode_spells_row (i : Instr) : ∃ r ∈ rows, r.spells (encode i) = true ∧ r.read (encode i) = i := by
  cases i with
  | init => exact Laws.EncodeSpellsRow.init
  | setSer l => exact Laws.EncodeSpellsRow.setSer l
  | setSrclk l => exact Laws.EncodeSpellsRow.setSrclk l
  | setRclk l => exact Laws.EncodeSpellsRow.setRclk l
  | setWe l => exact Laws.EncodeSpellsRow.setWe l
  | setDataDir d => exact Laws.EncodeSpellsRow.setDataDir d
  | setDataPin k l => exact Laws.EncodeSpellsRow.setDataPin k l
  | readDataPin k => exact Laws.EncodeSpellsRow.readDataPin k
  | wait t => exact Laws.EncodeSpellsRow.wait t
  | send w => exact Laws.EncodeSpellsRow.send w
  | select o a => exact Laws.EncodeSpellsRow.select o a
  | writeByte v a => exact Laws.EncodeSpellsRow.writeByte v a
  | readByte a => exact Laws.EncodeSpellsRow.readByte a
  | dumpRange f u => exact Laws.EncodeSpellsRow.dumpRange f u

@[simp] theorem decode_encode (i : Instr) : decode (encode i) = .ok i := by
  obtain ⟨r, hr, hs, hread⟩ := encode_spells_row i
  rw [decode_of_spells hr (by simpa [Row.spells] using hs), hread]

/-- Settles O2: the operation's row is the only one its word spells, and reads the operation back. -/
theorem decodeOfEncode : Obligations.DecodeOfEncode := fun i _ => decode_encode i

/-! ### Encoding a decoded word -/

/-- Writing back a field of `n` bits read at bit `k` keeps those bits of the word and clears the others. -/
theorem fieldBits_extract (cw : CommandWord) (k n : Nat) :
    (cw.extractLsb' k n).setWidth 32 <<< k = cw &&& (BitVec.allOnes n).setWidth 32 <<< k := by
  ext i hi
  by_cases hk : i < k
  · simp [hk]
  · have hik : k + (i - k) = i := by omega
    simp [hk, hik, BitVec.getLsbD_eq_getElem hi, Bool.and_comm]

/-- Writing back a field read at bit 0. -/
theorem lowBits_extract (cw : CommandWord) (n : Nat) :
    (cw.extractLsb' 0 n).setWidth 32 = cw &&& (BitVec.allOnes n).setWidth 32 := by
  simpa using fieldBits_extract cw 0 n

theorem levelBits_levelField (n : Nat) (cw : CommandWord) : levelBits n (levelField n cw) = cw &&& 1#32 <<< n := by
  have hbit : BitVec.ofBool (levelField n cw) = cw.extractLsb' n 1 := by
    ext i hi
    obtain rfl : i = 0 := by omega
    simp [levelField]
  rw [levelBits, hbit, fieldBits_extract]
  rfl

theorem pinBits_pinField (cw : CommandWord) : pinBits (pinField cw) = cw &&& 0x700#32 := fieldBits_extract cw 8 3

theorem dirBit_dirOfBit (b : Bool) : dirBit (dirOfBit b) = b := by cases b <;> rfl

/-- What a row reads from a word it spells is every bit its mask leaves free, so the operation's word is the row's pattern with those
bits of the word. -/
theorem encode_read {r : Row} (hr : r ∈ rows) (cw : CommandWord) : encode (r.read cw) = r.pattern ||| cw &&& ~~~r.mask := by
  simp only [rows, List.cons_append, List.nil_append, List.mem_cons, List.not_mem_nil, or_false] at hr
  rcases hr with rfl | rfl | rfl | rfl | rfl | rfl | rfl | rfl | rfl | rfl | rfl | rfl | rfl | rfl <;>
    simp only [encode, levelBits_levelField, pinBits_pinField, dirBit_dirOfBit, fieldBits_extract, lowBits_extract,
      BitVec.or_assoc, ← BitVec.and_or_distrib_left]
  · simp
  all_goals rfl

/-- A word a row spells is the row's pattern with the bits the mask leaves free. -/
theorem pattern_or_free {r : Row} {cw : CommandWord} (h : cw &&& r.mask = r.pattern) : r.pattern ||| cw &&& ~~~r.mask = cw := by
  rw [← h, ← BitVec.and_or_distrib_left, BitVec.or_not_self, BitVec.and_allOnes]

/-- Settles O3: the word is its row's pattern with the free bits, and the row's operation encodes to those. -/
theorem encodeOfDecode : Obligations.EncodeOfDecode := by
  intro cw i h
  obtain ⟨r, hr, hs, rfl⟩ := spells_of_decode h
  rw [encode_read hr, pattern_or_free hs]

/-- Settles O4: a word can spell only the row of its OP, so the row it spells is the one found. -/
theorem decodingIsUniqueAndTotal : Obligations.DecodingIsUniqueAndTotal :=
  ⟨fun _ _ hr h => decode_of_spells hr h, fun _ h => decode_of_unspelled h,
    fun _ _ hr _ hq h h' => congrArg Row.mnemonic (rows_eq_of_spells hr hq h h'), List.pairwise_map.1 rows_op_nodup,
    fun _ hr => rows_mask_op hr⟩

/-- Settles O1: each word written out, decoded. -/
theorem writtenWordsDecode : Obligations.WrittenWordsDecode := by
  unfold Obligations.WrittenWordsDecode
  decide

end Sys2Proof

namespace Sys2Proof.Machine

/-! ### The step at a word -/

theorem step_illegal {s : State} {cw : CommandWord} {e : Illegal} (hs : s.fault = none) (hf : fetch s = some cw)
    (hd : decode cw = .error e) : step s = .next (raise (.illegalCommand cw) s) := by
  simp [step, hs, hf, hd]

theorem step_decoded {s : State} {cw : CommandWord} {i : Instr} (hs : s.fault = none) (hf : fetch s = some cw)
    (hd : decode cw = .ok i) : step s = exec i s := by
  simp [step, hs, hf, hd]

theorem raise_eq_of_safe {s : State} (f : Raised) (h : s.fault = none) : raise f s = { s with fault := some f } := by
  simp [raise, h]

theorem fetch_load (ops : List Instr) (s : State) : fetch (s.load ops) = ops[s.pc]?.map encode := List.getElem?_map

/-- Settles O5: an illegal word spells no row, so the step at it raises IllegalCommand. -/
theorem illegalWordsRaise : Obligations.IllegalWordsRaise := by
  intro cw h
  obtain ⟨e, he⟩ := decode_of_unspelled (unspelled_of_illegal h)
  refine ⟨⟨e, he⟩, fun s hs hf => ⟨?_, rfl⟩⟩
  rw [step_illegal hs hf he, raise_eq_of_safe _ hs]

/-- Settles O9: the word at `c.pc` is the operation's, and decodes to it. -/
theorem loadedOperationsAreRun : Obligations.LoadedOperationsAreRun := by
  intro ops s i hs hi
  have hf : fetch (s.load ops) = some (encode i) := by rw [fetch_load, hi, Option.map_some]
  exact step_decoded hs hf (decode_encode i)

/-! ### Bytes on the pins (spec/30_encoding.md R78, R79) -/

/-- Driving undoes unpacking. -/
theorem pinLevels_unpack (m : PinMap) (p : Byte) : pinLevels m (unpack m p) = p := by
  refine byte_ext fun k => ?_
  obtain ⟨i, rfl⟩ := m.pin_surj k
  rw [pinLevels_get, unpack_get]

/-- The table of a map, as a list, is the map's pins in the order of the value bits. -/
theorem pinMap_toList (m : PinMap) : m.table.toList = List.ofFn m.pin := by
  apply List.ext_getElem
  · simp
  · intro i h h'
    rw [List.getElem_ofFn, Vector.getElem_toList]
    rfl

theorem pinMap_toList_nodup (m : PinMap) : m.table.toList.Nodup := by
  rw [pinMap_toList, List.nodup_ofFn]
  exact fun _ _ => m.pin_inj

/-- The configuration check answers a map exactly when the list is the map's table. -/
theorem pinMap_check_eq_some {l : List (Fin 8)} {m : PinMap} : PinMap.check l = some m ↔ m.table.toList = l := by
  constructor
  · intro h
    unfold PinMap.check at h
    split at h
    · dsimp only at h
      split at h
      · cases h
        rfl
      · cases h
    · cases h
  · rintro rfl
    obtain ⟨⟨⟨l⟩, hl⟩, hi⟩ := m
    exact (dif_pos hl).trans (dif_pos hi)

/-- A list of eight pins without repeats is the table of a map. -/
theorem pinMap_of_nodup {l : List (Fin 8)} (hl : l.length = 8) (hn : l.Nodup) : ∃ m : PinMap, m.table.toList = l :=
  ⟨⟨⟨⟨l⟩, hl⟩, fun _ _ h => Fin.ext (hn.getElem_inj_iff.1 h)⟩, rfl⟩

/-- Settles O20: the maps are inverse bit by bit, and the check takes a list as the table it is. -/
theorem pinMapsAreInverse : Obligations.PinMapsAreInverse := by
  refine ⟨pinLevels_get, unpack_get, unpack_pinLevels, pinLevels_unpack, fun l => ⟨?_, ?_⟩, ?_⟩
  · rintro ⟨m, hm⟩
    obtain rfl := pinMap_check_eq_some.1 hm
    exact ⟨by simp, pinMap_toList_nodup m⟩
  · rintro ⟨hl, hn⟩
    obtain ⟨m, hm⟩ := pinMap_of_nodup hl hn
    exact ⟨m, pinMap_check_eq_some.2 hm⟩
  · intro l m hm
    obtain rfl := pinMap_check_eq_some.1 hm
    exact ⟨rfl, fun i => by rw [pinMap_toList, Fin.getElem?_fin, List.getElem?_ofFn, dif_pos i.isLt]⟩

/-! ### The address in a word (spec/30_encoding.md R75) -/

/-- An assembled word has no bit above bit 11, for an address in range. -/
theorem packWord_lt {a : BitVec 16} (oe : Bool) (h : a.toNat ≤ 2047) : (packWord a oe).toNat < 4096 := by
  rw [packWord, BitVec.toNat_or]
  exact Nat.or_lt_two_pow (n := 12) (by cases oe <;> decide) (by omega)

/-- Settles O21: the flag, the address and the zero bits of an assembled word. -/
theorem addressPacking : Obligations.AddressPacking := by
  intro a oe h
  have haddr := congrArg BitVec.toNat (packWord_addr a oe)
  rw [BitVec.toNat_setWidth, BitVec.toNat_setWidth, Nat.mod_eq_of_lt (a := a.toNat) (by omega)] at haddr
  exact ⟨packWord_oe oe h, haddr, packWord_lt oe h⟩

end Sys2Proof.Machine
end

section
/-! PROOFS. The frame of every operation: it writes only the parts of the state its rule names (spec/40_pin_primitives.md R97),
said once for a primitive, then for an expansion, then for an operation. -/

namespace Sys2Proof.Machine

/-! ### The parts of the state -/

/-- The parts a primitive may write, as `Instr.writes` names them for operations (spec/40_pin_primitives.md R98 to R109). -/
@[simp] def Prim.writes : Prim → List StatePart
  | .setSer _ => [.ser]
  | .setSrclk _ => [.srclk, .shift]
  | .setRclk _ => [.rclk, .selection]
  | .setWe _ => [.we]
  | .setDataDir _ => [.dataDir]
  | .setDataPin _ _ => [.dataOut]
  | .readDataPin _ | .samplePin _ => [.results]
  | .wait _ => []

/-- The parts an entry of an expansion may write. -/
@[simp] def Micro.writes : Micro → List StatePart
  | .prim p => p.writes
  | .enter _ => [.phase]
  | .emit _ => [.results]

/-- A part of the state is as it was; an open write cycle may have ended. -/
@[simp] def Unchanged (x : StatePart) (s t : State) : Prop :=
  match x with
  | .ser => t.ser = s.ser
  | .srclk => t.srclk = s.srclk
  | .shift => t.shift = s.shift
  | .rclk => t.rclk = s.rclk
  | .selection => t.store = s.store ∧ t.tSel = s.tSel
  | .we => t.weN = s.weN ∧ t.weFall = s.weFall ∧ t.lastWeRise = s.lastWeRise ∧ (t.busy = s.busy ∨ t.busy = none)
  | .dataDir => t.dataDir = s.dataDir
  | .dataOut => t.dataOut = s.dataOut
  | .phase => t.phase = s.phase
  | .results => t.out = s.out ∧ t.sampled = s.sampled

theorem unchanged_refl (x : StatePart) (s : State) : Unchanged x s s := by cases x <;> simp

theorem unchanged_trans {x : StatePart} {s t u : State} (h : Unchanged x s t) (h' : Unchanged x t u) : Unchanged x s u := by
  cases x with
  | we =>
    obtain ⟨hw, hf, hr, hb⟩ := h
    obtain ⟨hw', hf', hr', hb'⟩ := h'
    exact ⟨hw'.trans hw, hf'.trans hf, hr'.trans hr, hb'.elim (fun e => e ▸ hb) .inr⟩
  | selection | results => exact ⟨h'.1.trans h.1, h'.2.trans h.2⟩
  | ser | srclk | shift | rclk | dataDir | dataOut | phase => exact Eq.trans h' h

theorem unchanged_raise (x : StatePart) (f : Raised) (s : State) : Unchanged x s (raise f s) := by cases x <;> simp

theorem unchanged_advancePc (x : StatePart) (s : State) : Unchanged x s (advancePc s) := by cases x <;> simp

theorem unchanged_advanceMicro (x : StatePart) (s : State) : Unchanged x s (advanceMicro s) := by cases x <;> simp

/-- Completing an operation writes no part but the phase, and that only if it is another one. -/
theorem unchanged_completeMacro {x : StatePart} {ph : Phase} {s : State} (h : x = .phase → ph = s.phase) :
    Unchanged x s (completeMacro ph s) := by
  cases x with
  | phase =>
    by_cases hf : s.fault = none
    · rw [completeMacro_safe ph hf]; exact h rfl
    · rw [completeMacro_faulted ph hf]; exact unchanged_refl .phase s
  | ser | srclk | shift | rclk | selection | we | dataDir | dataOut | results => simp

/-! ### Primitives -/

/-- Time ends an open write cycle or leaves it. -/
theorem advance_busy (d : Nat) (s : State) : (advance d s).busy = s.busy ∨ (advance d s).busy = none := by
  rcases advance_cases d s with ⟨-, e, -⟩ | ⟨-, -, -, e, -⟩ | ⟨c, hc, -, e, -⟩
  · exact .inr e
  · exact .inr e
  · exact .inl (e.trans hc.symm)

/-- A check that lets a primitive pass that leaves WE_n at its level writes `ee.tSel` at most. -/
theorem eepromCheck_level {D : Draws} {l : Bool} {old new : EeInputs} {s t : State} (hw : old.weN = new.weN)
    (h : eepromCheck D l old new s = .ok t) : t = noteSelection l old new s := by
  rcases eepromCheck_ok h with ⟨-, hn, -, rfl⟩ | ⟨-, -, u, hu, rfl⟩
  · obtain ⟨ha, ho, -⟩ := changedInputs_nil.1 hn
    exact (noteSelection_same ha ho).symm
  · rw [weReaction_same hw] at hu
    cases hu
    rfl

/-- Everything a primitive but SET_WE can do once its latency has passed: it meets no reaction of the EEPROM to WE_n. -/
theorem actNow_level_cases (D : Draws) {p : Prim} (h : ∀ l, p ≠ .setWe l) (s : State) :
    (∃ f, actNow D p s = raise f s) ∨ actNow D p s = contentionCheck
      (noteSelection (rclkRose s (effect D p s)) (eeInputs s) (eeInputs (effect D p s)) (effect D p s)) := by
  rcases actNow_cases D p s with hf | ⟨-, t, ht, e⟩
  · exact .inl hf
  · have hw : (eeInputs s).weN = (eeInputs (effect D p s)).weN := by simp [eeInputs, effect_weN h]
    exact .inr (by rw [e, eepromCheck_level hw ht])

/-- The times the EEPROM keeps are written by its reactions, not by an effect. -/
theorem effect_eepromTimes (D : Draws) (p : Prim) (s : State) :
    (effect D p s).weFall = s.weFall ∧ (effect D p s).tSel = s.tSel := by
  cases p with
  | readDataPin k => rcases ioLevel_state D k s with e | e <;> simp [effect, samplePinOut, e]
  | samplePin k => rcases ioLevel_state D k s with e | e <;> simp [effect, samplePinByte, e]
  | setSer | setSrclk | setRclk | setWe | setDataDir | setDataPin | wait => simp [effect, waitFor]

theorem primStep_weFall {D : Draws} {p : Prim} {s : State} (h : ∀ l, p ≠ .setWe l) :
    (primStep D p s).weFall = s.weFall := by
  rw [primStep]
  rcases actNow_level_cases D h (elapse D s) with ⟨f, e⟩ | e <;> simp [e, effect_eepromTimes]

/-- A write cycle ends in the latency of a primitive or in the time WAIT passes; only SET_WE opens one. -/
theorem primStep_busy {D : Draws} {p : Prim} {s : State} (h : ∀ l, p ≠ .setWe l) :
    (primStep D p s).busy = s.busy ∨ (primStep D p s).busy = none := by
  have hlat : (elapse D s).busy = s.busy ∨ (elapse D s).busy = none := advance_busy _ (drew s)
  have heff : (effect D p (elapse D s)).busy = (elapse D s).busy ∨ (effect D p (elapse D s)).busy = none := by
    by_cases hp : ∃ t, p = .wait t
    · obtain ⟨t, rfl⟩ := hp
      exact advance_busy t _
    · exact .inl (effect_busy fun t e => hp ⟨t, e⟩)
  rw [primStep]
  rcases actNow_level_cases D h (elapse D s) with ⟨f, e⟩ | e <;> rw [e]
  · exact hlat
  · simp only [contentionCheck_busy, noteSelection_busy]
    exact heff.elim (fun e => by rwa [e]) .inr

theorem weReaction_tSel {D : Draws} {old new : EeInputs} {s t : State} (h : weReaction D old new s = .ok t) :
    t.tSel = s.tSel := by
  unfold weReaction at h
  split at h
  · obtain ⟨-, -, rfl⟩ := weFalling_ok h
    rfl
  · split at h
    · obtain ⟨tf, a, -, -, -, rfl⟩ := weRising_ok h
      rcases latchByte_cases D a s with ⟨v, -, -, e⟩ | e <;> simp [e]
    · cases h; rfl

/-- `ee.tSel` moves with the storage stage, which only SET_RCLK writes (spec/20_memory.md R56). -/
theorem primStep_tSel {D : Draws} {p : Prim} {s : State} (h : ∀ l, p ≠ .setRclk l) : (primStep D p s).tSel = s.tSel := by
  have hsel (u : State) : noteSelection (rclkRose (elapse D s) (effect D p (elapse D s))) (eeInputs (elapse D s))
      (eeInputs (effect D p (elapse D s))) u = u := by
    have hst := effect_store (D := D) (s := elapse D s) h
    rw [rclkRose_same (effect_rclk h)]
    exact noteSelection_same (by simp [aChanged, eeInputs, State.addr, hst]) (by simp [oeChanged, eeInputs, State.oeN, hst])
  rw [primStep]
  rcases actNow_cases D p (elapse D s) with ⟨f, e⟩ | ⟨-, t, ht, e⟩ <;> rw [e]
  · simp
  · rw [contentionCheck_tSel]
    rcases eepromCheck_ok ht with ⟨-, -, -, rfl⟩ | ⟨-, -, u, hu, rfl⟩
    · simp [effect_eepromTimes]
    · rw [hsel, weReaction_tSel hu, (effect_eepromTimes D p _).2, elapse_tSel]

theorem ne_of_writes {x : StatePart} {p q : Prim} (hp : x ∉ p.writes) (hq : x ∈ q.writes) : p ≠ q :=
  fun e => hp (e ▸ hq)

/-- A primitive writes only its own parts, whatever its checks answer. -/
theorem primStep_unchanged {D : Draws} {p : Prim} {x : StatePart} (h : x ∉ p.writes) (s : State) :
    Unchanged x s (primStep D p s) := by
  cases x with
  | ser => exact primStep_ser fun _ => ne_of_writes h (by simp)
  | srclk => exact primStep_srclk fun _ => ne_of_writes h (by simp)
  | shift => exact primStep_shift fun _ => ne_of_writes h (by simp)
  | rclk => exact primStep_rclk fun _ => ne_of_writes h (by simp)
  | selection =>
    have hp : ∀ l, p ≠ .setRclk l := fun _ => ne_of_writes h (by simp)
    exact ⟨primStep_store hp, primStep_tSel hp⟩
  | we =>
    have hp : ∀ l, p ≠ .setWe l := fun _ => ne_of_writes h (by simp)
    exact ⟨primStep_weN hp, primStep_weFall hp, primStep_lastWeRise hp, primStep_busy hp⟩
  | dataDir => exact primStep_dataDir fun _ => ne_of_writes h (by simp)
  | dataOut => exact primStep_dataOut fun _ _ => ne_of_writes h (by simp)
  | phase => exact primStep_phase D p s
  | results =>
    exact ⟨primStep_out fun _ => ne_of_writes h (by simp), primStep_sampled fun _ => ne_of_writes h (by simp)⟩

/-! ### Expansions -/

theorem microStep_unchanged {D : Draws} {m : Micro} {x : StatePart} (h : x ∉ m.writes) (s : State) :
    Unchanged x s (microStep D m s) := by
  cases m with
  | prim p => exact unchanged_trans (primStep_unchanged h s) (unchanged_advanceMicro x _)
  | enter ph => cases x <;> simp [microStep] at h ⊢
  | emit a => cases x <;> simp [microStep] at h ⊢

theorem runMicros_unchanged {D : Draws} {ms : List Micro} {x : StatePart} (h : ∀ m ∈ ms, x ∉ m.writes) (s : State) :
    Unchanged x s (runMicros D ms s) :=
  runMicros_keeps (P := Unchanged x s) (fun m hm u hu => unchanged_trans hu (microStep_unchanged (h m hm) u))
    (unchanged_refl x s)

theorem sendExpansion_writes (w : SrWord) : ∀ m ∈ sendExpansion w, m.writes ⊆ (Instr.send w).writes := by
  simp [sendExpansion, sendBit, latchPulse, or_imp, forall_and, Instr.writes]

theorem writeByteExpansion_writes (p : Params) (v : Byte) (a : BitVec 16) :
    ∀ m ∈ writeByteExpansion p a v, m.writes ⊆ (Instr.writeByte v a).writes := by
  have hsend : ∀ m ∈ selectExpansion a false, m.writes ⊆ (Instr.writeByte v a).writes := fun m hm =>
    List.Subset.trans (sendExpansion_writes _ m hm) (by simp [Instr.writes])
  simp only [writeByteExpansion, writeByteOpening, writeBytePulse, driveByte, List.forall_mem_append, List.forall_mem_map]
  simpa [Instr.writes] using hsend

theorem readByteExpansion_writes (p : Params) (a : BitVec 16) :
    ∀ m ∈ readByteExpansion p a, m.writes ⊆ (Instr.readByte a).writes := by
  have hsend : ∀ m ∈ selectExpansion a true, m.writes ⊆ (Instr.readByte a).writes := fun m hm =>
    List.Subset.trans (sendExpansion_writes _ m hm) (by simp [Instr.writes])
  simp only [readByteExpansion, sampleByte, List.forall_mem_append, List.forall_mem_map]
  simpa [Instr.writes] using hsend

/-- An expansion writes only the parts of its operation. -/
theorem expansionOf_writes (p : Params) (i : Instr) : ∀ m ∈ expansionOf p i, m.writes ⊆ i.writes := by
  cases i with
  | send w => exact sendExpansion_writes w
  | select o a => exact fun m hm => List.Subset.trans (sendExpansion_writes _ m hm) (by simp [Instr.writes])
  | writeByte v a => exact writeByteExpansion_writes p v a
  | readByte a => exact readByteExpansion_writes p a
  | dumpRange f u =>
    intro m hm
    obtain ⟨a, -, hm⟩ := List.mem_flatMap.1 hm
    exact readByteExpansion_writes p _ m hm
  | init | setSer | setSrclk | setRclk | setWe | setDataDir | setDataPin | readDataPin | wait => simp [expansionOf]

/-! ### Operations -/

/-- A primitive issued directly writes the parts of its operation. -/
theorem primitiveOf_writes {i : Instr} {p : Prim} (h : primitiveOf i = some p) : p.writes = i.writes := by
  cases i <;> cases h <;> rfl

/-- Of the operations with an expansion only SEND has no phase of its own (notes/assumptions/14.md). -/
theorem phase_mem_writes {i : Instr} (hi : primitiveOf i = none) (hs : ∀ w, i ≠ .send w) : .phase ∈ i.writes := by
  cases i with
  | send w => exact absurd rfl (hs w)
  | init | select | writeByte | readByte | dumpRange => simp [Instr.writes]
  | setSer | setSrclk | setRclk | setWe | setDataDir | setDataPin | readDataPin | wait => cases hi

theorem expansionOf_unchanged {x : StatePart} {i : Instr} (h : x ∉ i.writes) (D : Draws) (s : State) :
    Unchanged x s (runMicros D (expansionOf s.params i) { s with micro := 0 }) :=
  unchanged_trans (by cases x <;> simp) (runMicros_unchanged (fun m hm hx => h (expansionOf_writes s.params i m hm hx)) _)

theorem exec_send_phase {w : SrWord} {s t : State} (h : exec (.send w) s = .next t) : t.phase = s.phase := by
  have hr : (runMicros Config.draws (sendExpansion w) { s with micro := 0 }).phase = s.phase :=
    expansionOf_unchanged (x := .phase) (i := .send w) (by simp [Instr.writes]) _ s
  obtain ⟨-, ⟨-, rfl⟩ | ⟨-, rfl⟩⟩ := gate_next h
  · rfl
  · exact (unchanged_completeMacro (x := .phase) fun _ => hr.symm).trans hr

/-- An operation writes only its own parts, also when it faults. -/
theorem exec_unchanged {i : Instr} {s t : State} {x : StatePart} (h : exec i s = .next t) (hx : x ∉ i.writes) :
    Unchanged x s t := by
  by_cases hsend : x = .phase ∧ ∃ w, i = .send w
  · obtain ⟨rfl, w, rfl⟩ := hsend
    exact exec_send_phase h
  · obtain ⟨-, he⟩ := exec_ends h
    cases he with
    | refused f => exact unchanged_raise x f s
    | inited hi =>
      subst hi
      cases x <;> simp [Instr.writes] at hx ⊢
    | direct p _ hp =>
      exact unchanged_trans (primStep_unchanged (by rwa [primitiveOf_writes hp]) s) (unchanged_advancePc x _)
    | expanded ph _ hi =>
      refine unchanged_trans (expansionOf_unchanged hx _ s) (unchanged_completeMacro fun hph => ?_)
      subst hph
      exact absurd (phase_mem_writes hi fun w e => hsend ⟨rfl, w, e⟩) hx

/-- Settles O57: a part that no entry of an operation writes is unchanged (`exec_unchanged`), and nothing writes the list or
the parameters (`forward_exec`). -/
theorem operationsWriteOnlyTheirParts : Obligations.OperationsWriteOnlyTheirParts := fun _ _ _ h =>
  have hx {x : StatePart} := exec_unchanged (x := x) h
  have hf := forward_exec h
  ⟨hx, hx, hx, hx, hx, hx, hx, hx, hx, hx, hf.params, hf.program⟩

end Sys2Proof.Machine
end

section
/-! PROOFS. The statements about the pin primitives of spec/40_pin_primitives.md: the chain's reactions, what each operation does
where it completes (`exec_completes`), and the checks of the common step. -/

namespace Sys2Proof.Machine

/-! ### The shift-register chain (spec/40_pin_primitives.md R104 to R107) -/

/-- Shift edges with SER at the bits of a list put the bits into the shift stage one after another. -/
theorem foldl_shiftEdge_shift (bits : List Bool) (s : State) :
    (bits.foldl (fun t b => shiftEdge (driveSer b t)) s).shift = bits.foldl (fun u b => shiftIn (some b) u) s.shift := by
  induction bits generalizing s with
  | nil => rfl
  | cons b bits ih =>
    rw [List.foldl_cons, ih]
    cases b <;> rfl

/-- Settles O22: on the stage sixteen shift edges are sixteen shifts, which leave the word. -/
theorem shiftEdgeShifts : Obligations.ShiftEdgeShifts := by
  refine fun s => ⟨shiftIn_zero _ _, fun i h => shiftIn_succ _ _ h, fun w i h => ?_⟩
  have hw : ((serialBits w).foldl (fun t b => shiftEdge (driveSer b t)) s).shift = wordStage w := by
    rw [foldl_shiftEdge_shift, foldl_shiftIn_serialBits]
  simp only [hw, wordStage_get w h]

/-- A reading sees of a primitive its whole effect or nothing. -/
theorem Bystander.actNow_cases {α : Type} {g : State → α} (h : Bystander g) (D : Draws) (p : Prim) (s : State) :
    g (Machine.actNow D p s) = g s ∨ g (Machine.actNow D p s) = g (Machine.effect D p s) := by
  rcases Machine.actNow_cases D p s with ⟨f, e⟩ | ⟨-, t, ht, e⟩
  · exact .inl (by rw [e, h.raise])
  · exact .inr (by rw [e, h.contentionCheck, h.eepromCheck ht])

/-- The storage stage changes in an RCLK rising edge alone, and to the shift stage. -/
theorem primStep_store_changed {D : Draws} {p : Prim} {s : State} (h : (primStep D p s).store ≠ s.store) :
    p = .setRclk true ∧ s.rclk = .lo ∧ (primStep D p s).store = s.shift := by
  by_cases hp : ∃ l, p = .setRclk l
  · obtain ⟨l, rfl⟩ := hp
    have hcases := bystander_store.actNow_cases D (.setRclk l) (elapse D s)
    change (primStep D (.setRclk l) s).store = _ ∨ (primStep D (.setRclk l) s).store = _ at hcases
    simp only [effect, driveRclk_store, elapse_store, elapse_rclk, elapse_shift] at hcases
    have he := hcases.resolve_left h
    by_cases hr : s.rclk = .lo ∧ l = true
    · rw [if_pos hr] at he
      exact ⟨by rw [hr.2], hr.1, he⟩
    · rw [if_neg hr] at he
      exact absurd he h
  · exact absurd (primStep_store fun l e => hp ⟨l, e⟩) h

theorem runInit_store (D : Draws) (s : State) : (runInit D s).store = s.store := by
  unfold runInit
  split <;> simp

/-- Settles O23, from the one effect that writes the storage stage. -/
theorem latchEdgeAloneWritesTheStore : Obligations.LatchEdgeAloneWritesTheStore :=
  ⟨fun _ => rfl, fun _ _ _ => primStep_store_changed, runInit_store⟩

/-- A set that is no rising edge (spec/40_pin_primitives.md R105, R107). -/
theorem not_rising {l : Bool} {x : Level} (h : x ≠ .lo ∨ l = false) : ¬ (x = .lo ∧ l = true) := by
  rintro ⟨hx, hl⟩
  exact h.elim (fun e => e hx) (fun e => by simp [hl] at e)

/-- Settles O24: the effect of a set that is no rising edge has no part in the chain, and of the stages each set writes one. -/
theorem otherClockEdgesDoNothing : Obligations.OtherClockEdgesDoNothing := by
  refine fun D s => ⟨fun l h => ⟨?_, primStep_store (by simp)⟩, fun l h => ⟨primStep_shift (by simp), ?_⟩⟩
  · rw [primStep, bystander_shift.actNow, elapse_shift]
    simp [effect, not_rising h]
  · rw [primStep, bystander_store.actNow, elapse_store]
    simp [effect, not_rising h]

/-! ### The primitives complete -/

/-- A primitive issued directly is its common step. -/
theorem exec_primitive {i : Instr} {p : Prim} (h : primitiveOf i = some p) (s : State) :
    exec i s = runDirect Config.draws i p s := by
  cases i <;> cases h <;> rfl

/-- An operation whose primitive leaves no fault, its latency passed, completes and is passed. -/
theorem exec_completes {i : Instr} {p : Prim} {s t : State} (h : s.Live) (hi : primitiveOf i = some p)
    (ht : actNow Config.draws p s.afterLatency = t) (hf : t.fault = none) :
    exec i s = .next { t with pc := s.pc + 1 } := by
  have hpc : t.pc = s.pc := by rw [← ht, bystander_pc.actNow (effect_pc _ _ _), elapse_pc]
  rw [exec_primitive hi, runDirect_live h, primStep, ht, advancePc_safe hf, hpc]

theorem afterLatency_inited {s : State} (h : s.Live) : s.afterLatency.phase ≠ .uninit := by simpa using h.2

/-- A latency starts no write cycle and moves no pin. -/
theorem steady_elapse (D : Draws) {s : State} (h : s.Steady) : (elapse D s).Steady :=
  ⟨elapse_busy_none h.1, by simpa using h.2⟩

/-- Settles O29: SER is no EEPROM input, so the effect stands (`actNow_setSer`). -/
theorem setSerCompletes : Obligations.SetSerCompletes := fun l _ h hd hc =>
  exec_completes h rfl (actNow_setSer (afterLatency_inited h) (delayOver_elapse _ hd) (by simpa using hc) l)
    (by simpa using h.1)

/-- Settles O30: SRCLK and the shift stage are no EEPROM inputs, so the effect stands (`actNow_setSrclk`). -/
theorem setSrclkCompletes : Obligations.SetSrclkCompletes := by
  intro l s h hd hc
  rw [exec_completes h rfl (actNow_setSrclk (afterLatency_inited h) (delayOver_elapse _ hd) (by simpa using hc) l)
    (by simpa using h.1)]
  simp only [driveSrclk, elapse_srclk]
  split <;> simp [shiftEdge]

/-- The latch edge where A and OE_n do not change or may change: `ee.tSel` takes the time if they do (spec/20_memory.md R56). -/
theorem actNow_latch_selects {D : Draws} {s : State} (hu : s.phase ≠ .uninit) (hd : s.DelayOver) (hl : s.rclk = .lo)
    (hs : selects s s.shift = true → s.Steady) (hc : s.dataDir = .output → stageOeN s.shift = some true) :
    actNow D (.setRclk true) s =
      { s with rclk := .hi, store := s.shift, tSel := if selects s s.shift then s.now else s.tSel } := by
  have hsel : selects s s.shift = (aChanged true (eeInputs s) (eeInputs (latchEdge s)) ||
    oeChanged true (eeInputs s) (eeInputs (latchEdge s))) := rfl
  rw [actNow_latch hu hd hl ?_ (contention_eq_false.2 hc), noteSelection, ← hsel]
  · split <;> rfl
  · cases hx : selects s s.shift with
    | true => exact .inr (hs hx)
    | false => exact .inl (Bool.or_eq_false_iff.1 (hsel ▸ hx))

/-- Settles O31: a rising edge by `actNow_latch_selects`, any other set by `actNow_setRclk_level`. -/
theorem setRclkCompletes : Obligations.SetRclkCompletes := by
  intro l s h hd
  have hu := afterLatency_inited h
  have hd' := delayOver_elapse Config.draws hd
  refine ⟨fun ⟨hr, hl⟩ hs ho => ?_, fun hr hc => ?_⟩
  · have hsel : selects s.afterLatency s.afterLatency.shift = selects s s.shift := by
      rw [selects_congr (s := s) (by simp), elapse_shift]
    rw [hl, exec_completes h rfl (actNow_latch_selects hu hd' (by simpa using hr)
      (fun hx => steady_elapse _ (hs (hsel ▸ hx))) (by simpa using ho)) (by simpa using h.1), hsel]
    simp
  · exact exec_completes h rfl (actNow_setRclk_level hu hd' (by simpa using hc) (by simpa using hr)) (by simpa using h.1)

/-- A floating bus gives the cycle any byte (spec/20_memory.md R62). -/
theorem latchByte_floating {D : Draws} {a : Addr} {s : State} (h : s.dataDir = .input) :
    latchByte D a s = openCycle a (D.busByte s.draws) (drew s) := by
  simp [latchByte, State.busC, h]

/-- Settles O32, by the edge SET_WE makes. -/
theorem setWeCompletes : Obligations.SetWeCompletes := by
  intro s h hd
  have hu := afterLatency_inited h
  have hd' := delayOver_elapse Config.draws hd
  refine ⟨fun l hl hc => ?_, fun hw hb ho ha => ?_, fun tf a hw hb hf ht ha hc => ?_⟩
  · exact exec_completes h rfl (actNow_setWe_level hu hd' (by simpa using hc) (by simpa using hl)) (by simpa using h.1)
  · exact exec_completes h rfl (actNow_weFall hu hd' (elapse_busy_none hb) (by simpa using hw) (by simpa using ho)
      (by simpa using ha)) (by simpa using h.1)
  · have hrise := actNow_weRise (D := Config.draws) hu hd' (elapse_busy_none hb) (by simpa using hw) (by simpa using hf)
      (by rw [elapse_now, elapse_params]; omega) (by simpa using ha) (by simpa using hc)
    refine ⟨fun v ho hv => ?_, fun hi => ⟨Config.draws.busByte s.afterLatency.draws, ?_⟩⟩
    · rw [latchByte_driven (by simpa using ho) (by simpa using hv)] at hrise
      rw [exec_completes h rfl hrise (by simpa using h.1)]
      simp [openCycle]
    · rw [latchByte_floating (by simpa using hi)] at hrise
      rw [exec_completes h rfl hrise (by simpa using h.1)]
      simp [openCycle, drew]

/-- Settles O33: the pins have the direction, or the EEPROM inputs may change once the latency has passed too. -/
theorem setDataDirCompletes : Obligations.SetDataDirCompletes := by
  intro d s h hd hs hc
  have hs' : s.afterLatency.dataDir = d ∨ s.afterLatency.Steady := by
    by_cases hdir : s.dataDir = d
    · exact .inl (by simpa using hdir)
    · exact .inr (steady_elapse _ (hs hdir))
  exact exec_completes h rfl (actNow_setDataDir (delayOver_elapse _ hd) hs' (by simpa using hc)) (by simpa using h.1)

/-- A bit set to the level it has. -/
theorem setBit_same {v : Byte} {k : Fin 8} {l : Bool} (h : v.getLsbD k = l) : setBit v k l = v := by
  refine byte_ext fun j => ?_
  rw [setBit_get]
  split
  · next hj => rw [hj, h]
  · rfl

/-- Settles O34: the latch has the level, or the EEPROM inputs may change once the latency has passed too. -/
theorem setDataPinCompletes : Obligations.SetDataPinCompletes := by
  intro k l v s h hd ho hc hv hs
  refine ⟨?_, fun j => setBit_get v k l j⟩
  have hs' : (∀ u, s.afterLatency.dataOut = some u → setBit u k l = u) ∨ s.afterLatency.Steady := by
    by_cases hk : v.getLsbD k = l
    · refine .inl fun u hu => ?_
      obtain rfl : v = u := by simpa [hv] using hu
      exact setBit_same hk
    · exact .inr (steady_elapse _ (hs hk))
  rw [exec_completes h rfl (actNow_setDataPin (delayOver_elapse _ hd) (by simpa using ho) hs' (by simpa using hc))
    (by simpa using h.1)]
  simp [driveDataPin, hv]

/-- READ_DATA_PIN issued directly gives the host the level of the line; a level that is a draw has been drawn. -/
theorem samplePinOut_eq (D : Draws) (k : Fin 8) (s : State) :
    samplePinOut D k s = { s with out := s.out ++ [.bit k (ioLevel D k s).1], draws := (ioLevel D k s).2.draws } := by
  rcases ioLevel_state D k s with e | e
  · rw [samplePinOut, e]
  · rw [samplePinOut, e]
    rfl

/-- READ_DATA_PIN on input pins completes with the level of the line. -/
theorem exec_readDataPin {s : State} (h : s.Live) (hd : s.DelayOver) (hi : s.dataDir = .input) (k : Fin 8) :
    exec (.readDataPin k) s = .next { s.afterLatency with
      out := s.out ++ [.bit k (ioLevel Config.draws k s.afterLatency).1]
      draws := (ioLevel Config.draws k s.afterLatency).2.draws
      pc := s.pc + 1 } := by
  have hact := actNow_readDataPin (delayOver_elapse Config.draws hd) (by simpa using hi) k (D := Config.draws)
  rw [samplePinOut_eq] at hact
  rw [exec_completes h rfl hact (by simpa using h.1), elapse_out]

/-- Settles O35: the level of the line is a cell's bit where the line is readable, and some bit in every case. -/
theorem readDataPinCompletes : Obligations.ReadDataPinCompletes := by
  intro k s h hd hi
  rw [exec_readDataPin h hd hi]
  refine ⟨fun a hc ho ha hb ht => ?_, _, _, rfl⟩
  have hr : readableCell s.afterLatency = some a :=
    readableCell_eq (by simpa using hc) (by simpa using ho) (elapse_busy_none hb)
      (by rw [elapse_tSel, elapse_params, elapse_now]; omega) (by simpa using ha)
  have hcells : s.afterLatency.cells = s.cells := by rw [State.afterLatency, elapse_idle hb]
  rw [ioLevel_readable hr, hcells]

/-- Settles O36: the latency and the time of WAIT are one span of time, in which the cycle's end comes. -/
theorem waitCompletes : Obligations.WaitCompletes := by
  intro t s h hc
  refine ⟨exec_completes h rfl (actNow_wait (by simpa using hc) _) (by simpa using h.1), by simp, fun c hb ht => ?_⟩
  have hend : c.tEnd ≤ (drew s).now + (Config.draws.latency s.draws + t.toNat) := by rw [drew_now]; omega
  rw [State.afterLatency, elapse, advance_advance, advance_done (s := drew s) hb hend]
  exact ⟨rfl, cellRead_write_same _ _ _ _⟩

/-! ### The checks of the common step -/

/-- WAIT passes its checks and changes no input, so it lets its time pass and looks for contention. -/
theorem actNow_wait_commits (D : Draws) (t : Nat) (s : State) :
    actNow D (.wait t) s = contentionCheck (advance t s) := by
  refine actNow_ok (preCheck_wait t s) ?_
  have hi : eeInputs (effect D (.wait t) s) = eeInputs s := advance_eeInputs t s
  rw [hi, rclkRose_same (by simp [effect, waitFor])]
  exact eepromCheck_same D _ _

theorem writeDelayCheck_some {s : State} {tr : Nat} (h : s.lastWeRise = some tr) (hn : s.now < tr + s.params.tWriteDelay) :
    writeDelayCheck s = some (.writeDelayViolation (s.now - tr)) := by
  simp [writeDelayCheck, h, hn]

theorem isBusOp_of_ne_wait {p : Prim} (h : ∀ t, p ≠ .wait t) : p.isBusOp = true := by
  cases p with
  | wait t => exact absurd rfl (h t)
  | setSer | setSrclk | setRclk | setWe | setDataDir | setDataPin | readDataPin | samplePin => rfl

/-- The write delay is checked before the roles. -/
theorem preCheck_delay {p : Prim} {s : State} {f : Raised} (hp : ∀ t, p ≠ .wait t) (h : writeDelayCheck s = some f) :
    preCheck p s = some f := by
  simp [preCheck, isBusOp_of_ne_wait hp, h]

/-- Settles O37: a bus operation fails its first check; WAIT makes none, and can end with contention at most. -/
theorem writeDelayIsEnforced : Obligations.WriteDelayIsEnforced := by
  intro D p s tr hr hs hn
  refine ⟨fun hp => actNow_preCheck (preCheck_delay hp (writeDelayCheck_some (by simpa using hr) (by simpa using hn))),
    fun t e => ?_⟩
  rw [primStep, actNow_wait_commits, contentionCheck_fault]
  split <;> simp [hs]

theorem contentionCheck_raises {s : State} (h : s.contention = true) :
    contentionCheck s = raise (.busContention s.addr s.oeN) s := by
  simp [contentionCheck, h]

/-- A primitive that ends without a fault leaves no contention. -/
theorem primStep_free {D : Draws} {p : Prim} {s : State} (hf : (primStep D p s).fault = none) :
    (primStep D p s).contention = false := by
  rw [primStep] at hf ⊢
  rcases actNow_cases D p (elapse D s) with ⟨f, e⟩ | ⟨-, t, -, e⟩ <;> rw [e] at hf ⊢
  · exact absurd hf (raise_faulted f _)
  · cases hc : t.contention with
    | true => rw [contentionCheck_raises hc] at hf; exact absurd hf (raise_faulted _ _)
    | false => rw [contentionCheck_none hc, hc]

theorem microStep_free {D : Draws} {m : Micro} {s : State} (h : s.fault = none → s.contention = false)
    (hf : (microStep D m s).fault = none) : (microStep D m s).contention = false := by
  cases m with
  | prim p =>
    rw [microStep, contention_congr (s := primStep D p s) (by simp) (by simp)]
    exact primStep_free (by simpa [microStep] using hf)
  | enter ph => exact h hf
  | emit a => exact h hf

/-- An expansion that ends without a fault leaves no contention where there was none. -/
theorem runMicros_free {D : Draws} {ms : List Micro} {s : State} (h : s.fault = none → s.contention = false) :
    (runMicros D ms s).fault = none → (runMicros D ms s).contention = false :=
  runMicros_keeps (P := fun u => u.fault = none → u.contention = false) (fun _ _ _ => microStep_free) h

/-- An operation that ends without a fault leaves no contention. -/
theorem exec_free {i : Instr} {s t : State} (hc : s.contention = false) (he : exec i s = .next t) (hf : t.fault = none) :
    t.contention = false := by
  obtain ⟨-, he⟩ := exec_ends he
  cases he with
  | refused f => exact absurd hf (raise_faulted f s)
  | inited => exact contention_input (by simp)
  | direct p =>
    rw [contention_congr (s := primStep Config.draws p s) (by simp) (by simp)]
    exact primStep_free (by simpa using hf)
  | expanded ph =>
    rw [contention_congr (completeMacro_store ph _) (completeMacro_dataDir ph _)]
    exact runMicros_free (s := { s with micro := 0 }) (fun _ => hc) (by simpa using hf)

/-- Settles O43, by the two answers of the contention check, and because an operation ends in one (`exec_free`). -/
theorem contentionIsDetected : Obligations.ContentionIsDetected := by
  refine ⟨fun D p s t hp ht => ⟨fun hd ho => ?_, fun hq => ?_⟩, fun i s t => exec_free⟩
  · rw [actNow_ok hp ht, contentionCheck_raises]
    simp [State.contention, State.eeDrives, hd, ho]
  · rw [actNow_ok hp ht, contentionCheck_none (hq.elim contention_input contention_disabled)]

/-- A role the pin does not have is the fault, once the write delay is over. -/
theorem primStep_refused {D : Draws} {p : Prim} {s : State} {f : Raised} (hd : s.DelayOver)
    (hr : roleCheck (elapse D s) p = some f) : primStep D p s = raise f (elapse D s) :=
  actNow_preCheck (by simp [preCheck, writeDelayCheck_none (delayOver_elapse D hd), hr])

/-- Settles O38: a data pin's role is the direction's, and the other lines have theirs from INIT on. -/
theorem rolesAreAsserted : Obligations.RolesAreAsserted := by
  refine ⟨fun D k l s hd hi => primStep_refused hd ?_, fun D k s hd ho => ⟨primStep_refused hd ?_, primStep_refused hd ?_⟩,
    fun s l hu => ?_⟩
  · simp [roleCheck, expectRole, role, hi]
  · simp [roleCheck, expectRole, role, ho]
  · simp [roleCheck, expectRole, role, ho]
  · simp [role, hu, roleCheck_lines hu]

/-- Settles O7, the step at a word that decodes. -/
theorem stepRunsDecodedOperation : Obligations.StepRunsDecodedOperation := fun _ _ _ hs hf hd _ => step_decoded hs hf hd

end Sys2Proof.Machine
end

section
/-! PROOFS. The statements about the shift-register driver (spec/41_shift_register_driver.md R121 to R125): the shift phase of `send`
is out of the EEPROM's sight, and what the latch pulse after it meets. -/

namespace Sys2Proof.Machine

/-! ### The shift phase (R121, R123) -/

/-- The primitives of the shift phase: SET_SER and SET_SRCLK. -/
inductive Shifts : Micro → Prop
  | ser (l : Bool) : Shifts (.prim (.setSer l))
  | srclk (l : Bool) : Shifts (.prim (.setSrclk l))

theorem sendBits_shifts {bits : List Bool} : ∀ m ∈ bits.flatMap sendBit, Shifts m := by
  intro m hm
  obtain ⟨b, -, hm⟩ := List.mem_flatMap.1 hm
  simp only [sendBit, List.mem_cons, List.not_mem_nil, or_false] at hm
  rcases hm with rfl | rfl | rfl
  · exact .ser b
  · exact .srclk true
  · exact .srclk false

/-- From `s` to `t` every line that reaches the EEPROM, or clocks the storage stage, stays as it is. -/
structure Unseen (s t : State) : Prop where
  store : t.store = s.store
  rclk : t.rclk = s.rclk
  weN : t.weN = s.weN
  dataDir : t.dataDir = s.dataDir
  dataOut : t.dataOut = s.dataOut

theorem Unseen.refl (s : State) : Unseen s s := ⟨rfl, rfl, rfl, rfl, rfl⟩

theorem Unseen.trans {s t u : State} (h : Unseen s t) (h' : Unseen t u) : Unseen s u :=
  ⟨h'.store.trans h.store, h'.rclk.trans h.rclk, h'.weN.trans h.weN, h'.dataDir.trans h.dataDir,
    h'.dataOut.trans h.dataOut⟩

theorem Unseen.eeInputs {s t : State} (h : Unseen s t) : eeInputs t = eeInputs s :=
  eeInputs_congr h.store h.weN h.dataDir h.dataOut

/-- Whatever the checks answer, a primitive of the shift phase moves SER, SRCLK and the shift stage only. -/
theorem Shifts.unseen {m : Micro} (hm : Shifts m) (D : Draws) (s : State) : Unseen s (microStep D m s) := by
  cases hm <;> constructor <;>
    simp [microStep, primStep_store, primStep_rclk, primStep_weN, primStep_dataDir, primStep_dataOut]

theorem runMicros_unseen {D : Draws} {ms : List Micro} (hms : ∀ m ∈ ms, Shifts m) (s : State) :
    Unseen s (runMicros D ms s) :=
  runMicros_keeps (P := Unseen s) (fun m hmem u hu => hu.trans ((hms m hmem).unseen D u)) (.refl s)

/-- The first 48 primitives of `send` are those of its shift phase. -/
theorem take_sendExpansion_shifts {w : SrWord} {n : Nat} (hn : n ≤ 48) : ∀ m ∈ (sendExpansion w).take n, Shifts m := by
  have hlen : ((serialBits w).flatMap sendBit).length = 48 := rfl
  rw [sendExpansion, List.take_append_of_le_length (by omega)]
  exact fun m hm => sendBits_shifts m (List.mem_of_mem_take hm)

/-- Settles O25: none of the 48 primitives moves a line that reaches the EEPROM (`Shifts.unseen`). -/
theorem shiftingIsInvisible : Obligations.ShiftingIsInvisible := by
  intro D w n s hn
  have h := runMicros_unseen (D := D) (take_sendExpansion_shifts (w := w) hn) s
  exact ⟨h.eeInputs, h.store⟩

/-! ### The shift phase completes from either level of SRCLK (R124) -/

/-- What a primitive needs is kept where no line that reaches the EEPROM moves. -/
theorem Calm.of_unseen {s t : State} (h : Calm s) (hu : Unseen s t) (hf : Forward s t) (hs : t.fault = none)
    (hp : t.phase = s.phase) (hr : t.lastWeRise = s.lastWeRise) : Calm t :=
  ⟨hs, hp ▸ h.inited, delayOver_later h.delay hr hf.params hf.now, (contention_congr hu.store hu.dataDir).trans h.free⟩

/-- A primitive of the shift phase just has its effect: no fault, and no write cycle is started. -/
theorem Shifts.calm {m : Micro} (hm : Shifts m) (D : Draws) {s : State} (h : Calm s) :
    Calm (microStep D m s) ∧ (s.busy = none → (microStep D m s).busy = none) := by
  have hc := h.elapse D
  have hkeep := h.of_unseen (hm.unseen D s) (forward_microStep D m s)
  cases hm with
  | ser l =>
    have hstep := microStep_prim (actNow_setSer hc.inited hc.delay hc.free l) (by simpa using hc.safe)
    rw [hstep] at hkeep ⊢
    exact ⟨hkeep (by simp [h.safe]) (by simp) (by simp), fun hb => by simp [elapse_busy_none hb]⟩
  | srclk l =>
    have hstep := microStep_prim (actNow_setSrclk hc.inited hc.delay hc.free l) (by simpa using hc.safe)
    rw [hstep] at hkeep ⊢
    exact ⟨hkeep (by simp [h.safe]) (by simp) (by simp), fun hb => by simp [elapse_busy_none hb]⟩

theorem runMicros_shift_calm {D : Draws} {ms : List Micro} (hms : ∀ m ∈ ms, Shifts m) {s : State} (h : Calm s) :
    Calm (runMicros D ms s) ∧ (s.busy = none → (runMicros D ms s).busy = none) :=
  runMicros_keeps (P := fun u => Calm u ∧ (s.busy = none → u.busy = none))
    (fun m hmem _ ⟨hu, hb⟩ =>
      have ⟨hu', hb'⟩ := (hms m hmem).calm D hu
      ⟨hu', fun h0 => hb' (hb h0)⟩)
    ⟨h, id⟩

/-- Entered with SRCLK high: the fifteen bits that are shifted in, over the old position 0 (R124). -/
theorem toList_shiftedStage_hi (w : SrWord) (v : Stage) :
    (shiftedStage .hi w v).toList = (List.range 15).map (fun i => some (w.getLsbD i)) ++ v.toList.take 1 := by
  rw [shiftedStage, if_neg (by decide), toList_foldl_shiftIn]
  rfl

theorem shiftedStage_hi_get (w : SrWord) (v : Stage) {i : Nat} (hi : i < 15) :
    (shiftedStage .hi w v)[i] = some (w.getLsbD i) := by
  rw [← Vector.getElem_toList (by simp; omega)]
  simp [toList_shiftedStage_hi, hi]

theorem shiftedStage_hi_last (w : SrWord) (v : Stage) : (shiftedStage .hi w v)[15] = v[0] := by
  rw [← Vector.getElem_toList (by simp)]
  simp [toList_shiftedStage_hi]

theorem shiftedStage_lo (w : SrWord) (v : Stage) : shiftedStage .lo w v = wordStage w := by
  rw [shiftedStage, if_pos rfl, foldl_shiftIn_serialBits]

/-- The latch pulse where RCLK is high already: no rising edge (R124). -/
theorem latchPulse_high_safe {D : Draws} {s : State} (h : Calm s) (hr : s.rclk = .hi) :
    (runMicros D latchPulse s).fault = none := by
  have hc := h.elapse D
  have h1 := microStep_prim (actNow_setRclk_level (l := true) hc.inited hc.delay hc.free (.inl (by simp [hr]))) hc.safe
  have hc1 : Calm (microStep D (.prim (.setRclk true)) s) := by
    rw [h1]
    exact ⟨hc.safe, hc.inited, hc.delay, hc.free⟩
  have hc2 := hc1.elapse D
  have h2 := microStep_prim (actNow_setRclk_level (l := false) hc2.inited hc2.delay hc2.free (.inr rfl)) hc2.safe
  rw [latchPulse, runMicros_cons hc1.safe, runMicros_singleton, h2]
  exact hc2.safe

/-- `send` completes from SRCLK high, where the inputs may change and the data pins meet no enabled EEPROM. -/
theorem send_safe_srclk_high {D : Draws} {w : SrWord} {s : State} (h : Calm s) (hsr : s.srclk = .hi) (hr : s.rclk = .lo)
    (hs : s.Steady) (hc : s.dataDir = .output → w.getLsbD 11 = true) : (runMicros D (sendExpansion w) s).fault = none := by
  obtain ⟨hu, hb⟩ := runMicros_shift_calm (D := D) (sendBits_shifts (bits := serialBits w)) h
  have hun := runMicros_unseen (D := D) (sendBits_shifts (bits := serialBits w)) s
  have hshift := congrArg Chain.shift (shiftPhase_chain (D := D) h.safe hu.safe)
  simp only [State.chain, hsr] at hshift
  have hoe : stageOeN (shiftedStage .hi w s.shift) = some (w.getLsbD 11) := shiftedStage_hi_get w s.shift (by decide)
  obtain ⟨n, k, y, m, -, -, hpulse⟩ := runMicros_latchPulse hu (hun.rclk.trans hr)
    (fun _ => ⟨hb hs.1, by rw [hun.weN]; exact hs.2⟩)
    (fun hd => by rw [hshift, hoe, hc (hun.dataDir ▸ hd)])
  rw [sendExpansion, runMicros_append hu.safe, hpulse]
  exact hu.safe

/-- `send` completes from RCLK high. -/
theorem send_safe_rclk_high {D : Draws} {w : SrWord} {s : State} (h : Calm s) (hr : s.rclk = .hi) :
    (runMicros D (sendExpansion w) s).fault = none := by
  obtain ⟨hu, -⟩ := runMicros_shift_calm (D := D) (sendBits_shifts (bits := serialBits w)) h
  have hun := runMicros_unseen (D := D) (sendBits_shifts (bits := serialBits w)) s
  rw [sendExpansion, runMicros_append hu.safe]
  exact latchPulse_high_safe hu (hun.rclk.trans hr)

/-- The state an expansion starts from. -/
theorem calm_start {s : State} (h : s.Live) (hd : s.DelayOver) (hc : s.contention = false) : Calm { s with micro := 0 } :=
  ⟨h.1, h.2, hd, hc⟩

/-- SEND whose expansion ends without a fault completes, and leaves the chain that `send_chain` says. -/
theorem exec_send_chain {w : SrWord} {s : State} (h : s.Live)
    (hf : (runMicros Config.draws (sendExpansion w) { s with micro := 0 }).fault = none) :
    ∃ t, exec (.send w) s = .next t ∧ t.fault = none ∧ t.chain =
      ⟨Level.ofBool (w.getLsbD 0), .lo, .lo, shiftedStage s.srclk w s.shift,
        if s.rclk = .lo then shiftedStage s.srclk w s.shift else s.store⟩ :=
  ⟨_, runMacro_done h rfl hf, hf, send_chain (s := { s with micro := 0 }) h.1 hf⟩

/-- Settles O45: the shift phase completes whatever SRCLK's level, and the latch pulse whatever RCLK's; the chain is then the one
of `send_chain`. -/
theorem sendIsLiteralAboutEntryLevels : Obligations.SendIsLiteralAboutEntryLevels := by
  refine fun w s h hd hc => ⟨fun hsr hr hs ho => ?_, fun hsr hr => ?_⟩
  · obtain ⟨t, ht, hf, hchain⟩ :=
      exec_send_chain (w := w) h (send_safe_srclk_high (calm_start h hd hc) hsr hr hs ho)
    simp only [State.chain, hsr, hr, if_true, Chain.mk.injEq] at hchain
    obtain ⟨-, hlo, hrlo, hshift, hstore⟩ := hchain
    refine ⟨t, ht, hf, fun i hi => ?_, ?_, hstore.trans hshift.symm, hlo, hrlo⟩
    · simp only [hshift, shiftedStage_hi_get w s.shift hi]
    · simp only [hshift, shiftedStage_hi_last]
  · obtain ⟨t, ht, hf, hchain⟩ := exec_send_chain (w := w) h (send_safe_rclk_high (calm_start h hd hc) hr)
    simp only [State.chain, hsr, hr, reduceCtorEq, if_false, shiftedStage_lo, Chain.mk.injEq] at hchain
    obtain ⟨-, hlo, hrlo, hshift, hstore⟩ := hchain
    exact ⟨t, ht, hf, hstore, hshift, hlo, hrlo⟩

/-! ### SEND from low clocks (R121) -/

/-- Time lets an open write cycle stay or end with its byte in its cell. -/
theorem Passed.staysOrEnds {s t : State} (h : Passed s.busy s.cells t.busy t.cells) : CycleStaysOrEnds s t :=
  h.cell Config.draws

/-- Settles O44: the expansion leaves the one state of `runMicros_send`. -/
theorem sendLatchesTheWord : Obligations.SendLatchesTheWord := by
  intro w s h hd hc hsr hr hs ho
  obtain ⟨n, k, y, m, hk, hp, hrun⟩ := runMicros_send (D := Config.draws) (calm_start h hd hc) hsr hr w hs ho
  have hsel : selects { s with micro := 0 } (wordStage w) = selects s (wordStage w) := rfl
  rw [hsel] at hrun
  refine ⟨_, runMacro_done h hrun h.1, rfl, stageAddr_wordStage w, stageOeN_wordStage w, Nat.le_add_right _ _,
    Passed.staysOrEnds hp, fun hx => if_neg (by simp [hx]), fun hx => ?_, fun a ha => hp.cellRead _ ha⟩
  simp only [hx, if_true]
  omega

/-! ### SEND against output pins (R125) -/

theorem noteSelection_eq (l : Bool) (old new : EeInputs) (s : State) :
    noteSelection l old new s = { s with tSel := (noteSelection l old new s).tSel } := by
  unfold noteSelection
  split <;> rfl

/-- A latch edge that enables the EEPROM against output pins has its effect and raises the fault. -/
theorem actNow_latch_contends {D : Draws} {s : State} (hu : s.phase ≠ .uninit) (hd : s.DelayOver) (hl : s.rclk = .lo)
    (hs : s.Steady) (ho : s.dataDir = .output) (hoe : stageOeN s.shift = some false) :
    ∃ n, actNow D (.setRclk true) s =
      raise (.busContention (stageAddr s.shift) (some false)) { s with rclk := .hi, store := s.shift, tSel := n } := by
  have he : effect D (.setRclk true) s = { s with rclk := .hi, store := s.shift } := by
    simp [effect, driveRclk, hl, latchEdge, Level.ofBool]
  have hw : (eeInputs s).weN = true := by
    cases h : s.weN with
    | lo => exact absurd h hs.2
    | z | hi => simp [eeInputs, h, Level.weSeen]
  obtain ⟨n, hcheck⟩ : ∃ n, eepromCheck D (rclkRose s (effect D (.setRclk true) s)) (eeInputs s)
      (eeInputs (effect D (.setRclk true) s)) (effect D (.setRclk true) s) =
      .ok { s with rclk := .hi, store := s.shift, tSel := n } := by
    rw [he]
    exact ⟨_, (eepromCheck_steady (by exact hs.1) hw (by exact hw)).trans (congrArg _ (noteSelection_eq _ _ _ _))⟩
  refine ⟨n, ?_⟩
  rw [← hoe]
  exact (contentionIsDetected.1 D _ s _ (preCheck_none hd (roleCheck_lines hu true).2.2.1) hcheck).1 ho
    (by simp [State.oeN, hoe])

/-- A primitive that ends with a fault does not advance `c.micro`. -/
theorem microStep_prim_faulted {D : Draws} {p : Prim} {s t : State} (h : actNow D p (elapse D s) = t)
    (ht : t.fault ≠ none) : microStep D (.prim p) s = t := by
  simp [microStep, primStep, h, advanceMicro, Option.isNone_iff_eq_none, ht]

/-- The latch pulse ends at its rising edge where that enables the EEPROM against output pins. -/
theorem runMicros_latchPulse_contends {D : Draws} {s : State} (h : Calm s) (hl : s.rclk = .lo) (hs : s.Steady)
    (ho : s.dataDir = .output) (hoe : stageOeN s.shift = some false) :
    ∃ k n, runMicros D latchPulse s =
      { s with
        fault := some (.busContention (stageAddr s.shift) (some false)), rclk := .hi, store := s.shift, tSel := n,
        now := s.now + k, draws := s.draws + 1 } := by
  have hc := h.elapse D
  obtain ⟨n, hn⟩ := actNow_latch_contends (D := D) hc.inited hc.delay (by simpa using hl) (steady_elapse D hs)
    (by simpa using ho) (by simpa using hoe)
  have hstep := microStep_prim_faulted hn (raise_faulted _ _)
  refine ⟨D.latency s.draws, n, ?_⟩
  rw [latchPulse, runMicros_cons_fault (by rw [hstep]; exact raise_first _ hc.safe), hstep, elapse_idle hs.1]
  simp [raise, h.safe]

/-- `send` ends at its 49th primitive where its word enables the EEPROM against output pins. -/
theorem runMicros_send_contends {D : Draws} {w : SrWord} {s : State} (h : Calm s) (hsr : s.srclk = .lo)
    (hl : s.rclk = .lo) (hs : s.Steady) (ho : s.dataDir = .output) (hw : w.getLsbD 11 = false) :
    ∃ k n, runMicros D (sendExpansion w) s =
      { s with
        fault := some (.busContention (some (w.setWidth 11)) (some false)), ser := Level.ofBool (w.getLsbD 0), rclk := .hi,
        shift := wordStage w, store := wordStage w, tSel := n, now := s.now + k, draws := s.draws + 49,
        micro := s.micro + 48 } := by
  obtain ⟨k, y, m, hp, hshift⟩ := runMicros_sendBits (D := D) (serialBits w) h hsr
  rw [hs.1] at hp
  obtain ⟨rfl, rfl⟩ := hp.of_none
  rw [foldl_shiftIn_serialBits] at hshift
  obtain ⟨hu, -⟩ := runMicros_shift_calm (D := D) (sendBits_shifts (bits := serialBits w)) h
  obtain ⟨j, n, hpulse⟩ := runMicros_latchPulse_contends hu (by rw [hshift]; exact hl)
    (by rw [hshift]; exact ⟨rfl, hs.2⟩) (by rw [hshift]; exact ho) (by rw [hshift, stageOeN_wordStage, hw])
  refine ⟨k + j, n, ?_⟩
  rw [sendExpansion, runMicros_append hu.safe, hpulse, hshift, stageAddr_wordStage]
  simp [serialBits, hs.1, Nat.add_assoc]

/-- Settles O46: the expansion ends at its latch edge (`runMicros_send_contends`), so the operation is not passed. -/
theorem sendStopsAtContention : Obligations.SendStopsAtContention := by
  intro w s h hd hsr hl hs ho hoe hw
  obtain ⟨k, n, hrun⟩ := runMicros_send_contends (D := Config.draws) (calm_start h hd (contention_disabled hoe)) hsr hl hs
    ho hw
  refine ⟨_, (runMacro_live h).trans (congrArg _ (completeMacro_faulted _ (by simp [hrun]))), ?_⟩
  simp [hrun]

end Sys2Proof.Machine
end

section
/-! PROOFS. The statements about the EEPROM transactor (spec/42_eeprom_transactor.md): INIT, the range checks, and what SELECT,
WRITE_BYTE, READ_BYTE and DUMP_RANGE do from a state a transaction left. A dump runs its reads one after another without
completing in between, so `Poised` says what holds from read to read. -/

namespace Sys2Proof.Machine

/-! ### Between the reads and writes of an expansion -/

/-- What `State.Ready` says of the pins, the chain and the EEPROM: all of it but the phase and `c.micro`, which move inside an
expansion (spec/42_eeprom_transactor.md R144). -/
structure Poised (s : State) : Prop extends Calm s where
  srclk_low : s.srclk = .lo
  rclk_low : s.rclk = .lo
  we_high : s.weN = .hi
  latch_known : s.dataOut ≠ none
  no_pulse : s.weFall = none
  no_cycle : s.busy = none
  sel_time : s.tSel ≤ s.now

theorem Poised.steady {s : State} (h : Poised s) : s.Steady := ⟨h.no_cycle, by simp [h.we_high]⟩

/-- An expansion starts poised in a ready state. -/
theorem State.Ready.poised {s : State} (h : s.Ready) : Poised { s with micro := 0 } :=
  { calm_start h.live h.delay_over h.no_contention, h with }

/-- An expansion that ends poised completes in a ready state (spec/42_eeprom_transactor.md R129). -/
theorem Poised.completed_ready {s : State} (h : Poised s) :
    State.Ready { s with phase := .idle, micro := 0, pc := s.pc + 1 } :=
  { h with idle := rfl, micro_zero := rfl, delay_over := h.delay, no_contention := h.free }

/-! ### INIT (R130) -/

/-- Settles O28: INIT sets the pins up after its latency in Uninit, and raises its fault elsewhere. -/
theorem initConfiguresThePins : Obligations.InitConfiguresThePins := by
  refine ⟨fun s hs hu => ?_, fun s hs hu => ?_⟩
  · have hrun : exec .init s = .next (advancePc (configurePins s.afterLatency)) := by
      simp [exec, execInit, runInit, hs, hu]
    have hsafe : (configurePins s.afterLatency).fault = none := by simpa using hs
    rw [hrun, advancePc_safe hsafe]
    refine ⟨by simp [configurePins], ?_⟩
    rintro hw hd t ⟨⟩
    simp [eeInputs, State.addr, State.oeN, State.busC, hw, hd, Level.weSeen]
  · have hrun : exec .init s = .next (raise (.illegalCommand (encode .init)) s) := by
      simp [exec, execInit, runInit, hs, hu]
    rw [hrun, raise_eq_of_safe _ hs]
    rfl

/-! ### The arguments (R134, R135) -/

/-- Settles O6: a value above 255 does not fit the call's field, and one that fits is the operation's argument. -/
theorem transcriberRefusesWideBytes : Obligations.TranscriberRefusesWideBytes := by
  have hwide : ∀ a v : Nat, 255 < v → (Call.writeByte a v).transcribe = none := by
    intro a v hv
    have hv' : ¬ v < 256 := by omega
    simp [Call.transcribe, Call.wellFormed, hv']
  refine ⟨hwide, fun t a v ht hv => ?_, fun a v ha hv => ⟨BitVec.ofNat 8 v, BitVec.ofNat 16 a, ?_, ?_, ?_⟩⟩
  · rw [transcribe, ht, Option.bind_some, hwide a v hv]
  · have hv' : v < 256 := by omega
    simp [Call.transcribe, Call.wellFormed, Call.operation, ha, hv']
  · exact Nat.mod_eq_of_lt (by omega)
  · exact Nat.mod_eq_of_lt (by omega)

theorem rangeCheck_wide {n : Nat} (h : 2047 < n) : rangeCheck n = some (.rangeError n) := if_pos h

/-- An operation whose argument check fails records the fault and does nothing else. -/
theorem runMacro_check_failed {D : Draws} {i : Instr} {check : Option Raised} {f : Raised} {ms : List Micro} {ph : Phase}
    {s : State} (h : s.Live) (hc : check = some f) : runMacro D i check ms ph s = .next { s with fault := some f } := by
  rw [hc, runMacro_refused h, raise_eq_of_safe f h.1]

/-- Settles O47: each of the four operations checks its addresses before its expansion. -/
theorem addressesAboveTheRangeAreRefused : Obligations.AddressesAboveTheRangeAreRefused := by
  refine fun s h => ⟨fun o a ha => ?_, fun v a ha => ?_, fun a ha => ?_, fun f u hf => ?_, fun f u hf hu => ?_⟩
  · exact runMacro_check_failed h (rangeCheck_wide ha)
  · exact runMacro_check_failed h (rangeCheck_wide ha)
  · exact runMacro_check_failed h (rangeCheck_wide ha)
  · exact runMacro_check_failed h (by rw [dumpCheck, rangeCheck_wide hf, Option.some_or])
  · exact runMacro_check_failed h (by rw [dumpCheck, rangeCheck_ok hf, rangeCheck_wide hu, Option.none_or])

/-! ### SELECT (R133) -/

/-- Settles O48: the expansion is that of `send` with the packed word, so its end is the one state of `runMicros_send`. -/
theorem selectPresentsTheAddress : Obligations.SelectPresentsTheAddress := by
  intro o a s ha h hd hc hsr hr hs ho
  obtain ⟨n, k, y, m, -, hp, hrun⟩ := runMicros_send (D := Config.draws) (calm_start h hd hc) hsr hr (packWord a o) hs
    (fun hdir => by rw [packWord_oe o ha, ho hdir]; rfl)
  have hexec : exec (.select o a) s = runMacro Config.draws (.select o a) none (sendExpansion (packWord a o)) .idle s := by
    rw [exec, execSelect, rangeCheck_ok ha]
    rfl
  refine ⟨_, hexec.trans (runMacro_done h hrun h.1), ?_, ?_, rfl, Passed.staysOrEnds hp, fun b hb => hp.cellRead _ hb⟩
  · rw [State.addr, stageAddr_wordStage, packWord_addr]
  · rw [State.oeN, stageOeN_wordStage, packWord_oe o ha]

/-! ### WRITE_BYTE (R136 to R138) -/

/-- What stands at the instant `u` at which WE_n falls in the write of byte `v` to cell `a`: the address, OE_n 1 and the driven
byte (spec/42_eeprom_transactor.md R136, step 5). -/
structure WriteFall (p : Params) (a : BitVec 16) (v : Byte) (u : State) : Prop extends Calm u where
  we_low : u.weN = .lo
  falls : u.weFall = some u.now
  addr : u.addr = some (a.setWidth 11)
  oeN : u.oeN = some true
  driving : u.dataDir = .output
  driven : u.dataOut = some (pinLevels p.pinForBit v)
  srclk_low : u.srclk = .lo
  rclk_low : u.rclk = .lo
  no_cycle : u.busy = none
  sel_time : u.tSel ≤ u.now
  params : u.params = p

/-- The opening of a write, begun poised, ends at the falling edge. -/
theorem Poised.writeByteOpening {D : Draws} {a : BitVec 16} {s : State} (h : Poised s) (v : Byte) (ha : a.toNat ≤ 2047) :
    ∃ u, runMicros D (writeByteOpening s.params a v) s = u ∧ s.now ≤ u.now ∧ WriteFall s.params a v u := by
  obtain ⟨n, k, hk, hrun⟩ := runMicros_writeByteOpening (D := D) s.params v h.toCalm h.srclk_low h.rclk_low h.no_cycle
    h.we_high h.latch_known ha
  have hoe : stageOeN (wordStage (packWord a false)) = some true := by rw [stageOeN_wordStage, packWord_oe false ha]; rfl
  have hlater : s.now ≤ s.now + n := Nat.le_add_right _ _
  refine ⟨_, hrun, hlater, ?_⟩
  exact {
    safe := h.safe
    inited := by simp
    delay := delayOver_later h.delay rfl rfl hlater
    free := contention_disabled hoe
    we_low := rfl
    falls := rfl
    addr := by rw [State.addr, stageAddr_wordStage, packWord_addr]
    oeN := hoe
    driving := rfl
    driven := rfl
    srclk_low := h.srclk_low
    rclk_low := h.rclk_low
    no_cycle := h.no_cycle
    sel_time := by
      have := h.sel_time
      simp only
      split <;> omega
    params := rfl }

/-- What holds at the end `t` of the write, WE_n having risen at `tr` and the write delay passed (R136, steps 6 to 8). -/
structure WriteEnd (p : Params) (a : BitVec 16) (v : Byte) (tr : Nat) (t : State) : Prop where
  rise : t.lastWeRise = some tr
  delay : tr + p.tWriteDelay ≤ t.now
  safe : t.fault = none
  inited : t.phase ≠ .uninit
  we_high : t.weN = .hi
  no_pulse : t.weFall = none
  addr : t.addr = some (a.setWidth 11)
  oeN : t.oeN = some true
  driving : t.dataDir = .output
  driven : t.dataOut = some (pinLevels p.pinForBit v)
  srclk_low : t.srclk = .lo
  rclk_low : t.rclk = .lo
  sel_time : t.tSel ≤ t.now
  params : t.params = p
  /-- A cycle no longer than the write delay has ended with the byte in its cell (spec/20_memory.md R60). -/
  stored : p.tWc ≤ p.tWriteDelay → t.busy = none ∧ t.cell (a.setWidth 11) = pinLevels p.pinForBit v

/-- From the falling edge the pulse lasts at least `T_WE_PULSE` (spec/42_eeprom_transactor.md R137), and the write ends. -/
theorem WriteFall.writeBytePulse {p : Params} {a : BitVec 16} {v : Byte} {u : State} (h : WriteFall p a v u)
    (hwp : p.tWpMin ≤ p.tWePulse) :
    ∃ t tr, runMicros Config.draws (writeBytePulse p) u = t ∧ u.now + p.tWePulse ≤ tr ∧ WriteEnd p a v tr t := by
  obtain ⟨tr, d, htr, hd, hrun⟩ := runMicros_writeBytePulse (D := Config.draws) (p := p) h.toCalm h.no_cycle h.we_low
    h.falls (by rw [h.params]; omega) h.addr h.driving h.driven
  have hsel := h.sel_time
  refine ⟨_, tr, hrun, htr, ?_⟩
  exact {
    rise := by simp
    delay := by simpa using hd
    safe := by simpa using h.safe
    inited := by simp
    we_high := by simp
    no_pulse := by simp
    addr := by simpa [State.addr] using h.addr
    oeN := by simpa [State.oeN] using h.oeN
    driving := by simpa using h.driving
    driven := by simpa using h.driven
    srclk_low := by simpa using h.srclk_low
    rclk_low := by simpa using h.rclk_low
    sel_time := by simp; omega
    params := by simpa using h.params
    stored := fun hwc => by
      rw [advance_done rfl (by simp only [h.params]; omega)]
      exact ⟨rfl, cellRead_write_same _ _ _ _⟩ }

/-- A write whose cycle has ended leaves what the next transaction needs. -/
theorem WriteEnd.poised {p : Params} {a : BitVec 16} {v : Byte} {tr : Nat} {t : State} (h : WriteEnd p a v tr t)
    (hb : t.busy = none) : Poised t :=
  { h with
    delay := by
      intro r hr
      cases h.rise.symm.trans hr
      rw [h.params]
      exact h.delay
    free := contention_disabled h.oeN
    latch_known := by simp [h.driven]
    no_cycle := hb }

/-- WRITE_BYTE is its opening, up to the falling edge, and then its pulse. -/
theorem exec_writeByte_pulse {v : Byte} {a : BitVec 16} {s u : State} (h : s.Live) (ha : a.toNat ≤ 2047)
    (hu : runMicros Config.draws (writeByteOpening s.params a v) { s with micro := 0 } = u) (hf : u.fault = none) :
    exec (.writeByte v a) s = .next (completeMacro .idle (runMicros Config.draws (writeBytePulse s.params) u)) := by
  rw [exec_writeByte_in_range s ha, runMacro_live h, writeByteExpansion, runMicros_append (by rw [hu]; exact hf), hu]

/-- WRITE_BYTE from a ready state changes no other cell (O58, with no cycle open and RCLK low). -/
theorem exec_writeByte_other_cell {v : Byte} {a : BitVec 16} {s t : State} (h : s.Ready)
    (he : exec (.writeByte v a) s = .next t) {b : Addr} (hb : b ≠ a.setWidth 11) : t.cell b = s.cell b := by
  refine cellsChangeOnlyByWriteCycles _ s t b he (by simp [h.no_cycle]) ?_
  rintro v' a' ⟨⟩
  exact ⟨fun _ => hb.symm, fun hr => absurd h.rclk_low hr⟩

/-- Settles O49: the opening ends at the falling edge (`WriteFall`), the pulse with the write delay (`WriteEnd`), and what
WRITE_BYTE leaves alone is what the frame laws of every operation say. -/
theorem writeByteStoresTheByte : Obligations.WriteByteStoresTheByte := by
  intro v a s ha h hwp
  obtain ⟨u, hu, hlater, hfall⟩ := h.poised.writeByteOpening (D := Config.draws) v ha
  obtain ⟨t, tr, ht, htr, hend⟩ := hfall.writeBytePulse hwp
  have hexec := exec_writeByte_pulse h.live ha hu hfall.safe
  have hdone : completeMacro .idle t = { t with phase := .idle, micro := 0, pc := t.pc + 1 } :=
    completeMacro_safe _ hend.safe
  have hpc : t.pc + 1 = s.pc + 1 := by rw [← ht, runMicros_pc, ← hu, runMicros_pc]
  rw [ht, hdone] at hexec
  obtain ⟨hout, hsampled⟩ : _ ∧ _ := exec_unchanged (x := .results) hexec (by simp [Instr.writes])
  refine ⟨_, u, u.now, tr, hexec, hend.safe, hpc, rfl, rfl, hend.driving, hend.driven, hend.we_high, hend.no_pulse, hend.addr,
    hend.oeN, hend.srclk_low, hend.rclk_low, hout, hend.params, (forward_exec hexec).program, hsampled, hu.symm,
    by rw [ht, hdone], hfall.safe, hfall.we_low, hfall.falls, rfl, hfall.addr, hfall.oeN, hfall.driving, hfall.driven, hlater,
    htr, hend.rise, hend.delay, fun b hb => exec_writeByte_other_cell h hexec hb, fun hwc => ?_⟩
  obtain ⟨hbusy, hcell⟩ := hend.stored hwc
  exact ⟨(hend.poised hbusy).completed_ready, hbusy, hcell⟩

/-! ### READ_BYTE (R140) -/

/-- What holds at the end `t` of the read of cell `a` begun in `s`, whose result is `v`: the pins are inputs, OE_n is 0, and the
byte is the cell's where the lines carry it in time (spec/42_eeprom_transactor.md R140, R142). -/
structure ReadEnd (D : Draws) (a : BitVec 16) (v : Byte) (s t : State) : Prop where
  result : t.out = s.out ++ [.byte (a.setWidth 11) v]
  listening : t.dataDir = .input
  addr : t.addr = some (a.setWidth 11)
  oeN : t.oeN = some false
  cells : t.cells = s.cells
  params : t.params = s.params
  sampled : t.sampled = 0
  value : s.params.connected = true → s.params.tAcc ≤ s.params.tReadSettle →
    v = unpack s.params.pinForBit (cellRead D s.cells (a.setWidth 11))

/-- A read begun poised ends poised, so that another can follow it. -/
theorem Poised.readByte {D : Draws} {a : BitVec 16} {s : State} (h : Poised s) (ha : a.toNat ≤ 2047) :
    ∃ t v, runMicros D (readByteExpansion s.params a) s = t ∧ Poised t ∧ ReadEnd D a v s t := by
  obtain ⟨n, k, d, q, hk, hrun, hq⟩ := runMicros_readByte (D := D) h.toCalm h.srclk_low h.rclk_low h.steady h.sel_time ha
  refine ⟨_, unpack s.params.pinForBit q, hrun, ?_, ?_⟩
  · exact {
      safe := h.safe
      inited := by simp
      delay := delayOver_later h.delay rfl rfl (Nat.le_add_right _ _)
      free := contention_input rfl
      srclk_low := h.srclk_low
      rclk_low := h.rclk_low
      we_high := h.we_high
      latch_known := h.latch_known
      no_pulse := h.no_pulse
      no_cycle := h.no_cycle
      sel_time := by
        have := h.sel_time
        simp only
        split <;> omega }
  · exact {
      result := rfl
      listening := rfl
      addr := by rw [State.addr, stageAddr_wordStage, packWord_addr]
      oeN := by rw [State.oeN, stageOeN_wordStage, packWord_oe true ha]; rfl
      cells := rfl
      params := rfl
      sampled := rfl
      value := fun hcon hacc => by rw [hq hcon hacc] }

/-- Settles O50: the expansion is one read (`Poised.readByte`), and READ_BYTE writes neither the output latch nor WE_n. -/
theorem readByteReturnsTheCell : Obligations.ReadByteReturnsTheCell := by
  intro a s ha h
  obtain ⟨t, v, ht, hpoised, hend⟩ := h.poised.readByte (D := Config.draws) ha
  have hexec : exec (.readByte a) s = .next { t with phase := .idle, micro := 0, pc := t.pc + 1 } :=
    (exec_readByte_in_range s ha).trans (runMacro_done h.live ht hpoised.safe)
  have hpc : t.pc + 1 = s.pc + 1 := by rw [← ht, runMicros_pc]
  obtain ⟨-, -, hrise, -⟩ : _ ∧ _ := exec_unchanged (x := .we) hexec (by simp [Instr.writes])
  exact ⟨_, v, hexec, hpoised.completed_ready, hpc, hend.result, hend.listening,
    exec_unchanged (x := .dataOut) hexec (by simp [Instr.writes]), hend.addr, hend.oeN, hend.cells, hrise, hend.params,
    (forward_exec hexec).program, hend.sampled, hend.value⟩

/-! ### DUMP_RANGE (R143) -/

theorem dumpAddresses_pairwise (inclusive : Bool) (f u : Nat) : (dumpAddresses inclusive f u).Pairwise (· < ·) :=
  List.pairwise_lt_range'

theorem mem_dumpAddresses_inclusive {f u n : Nat} : n ∈ dumpAddresses true f u ↔ f ≤ n ∧ n ≤ u := by
  simp only [dumpAddresses, if_true, List.mem_range'_1]
  omega

theorem mem_dumpAddresses_exclusive {f u n : Nat} : n ∈ dumpAddresses false f u ↔ f ≤ n ∧ n < u := by
  simp only [dumpAddresses, Bool.false_eq_true, if_false, List.mem_range'_1]
  omega

theorem le_of_mem_dumpAddresses {inclusive : Bool} {f u n : Nat} (h : n ∈ dumpAddresses inclusive f u) : n ≤ u := by
  cases inclusive with
  | true => exact (mem_dumpAddresses_inclusive.1 h).2
  | false => exact (mem_dumpAddresses_exclusive.1 h).2.le

/-- A range whose first address is past its last holds none. -/
theorem dumpAddresses_empty {inclusive : Bool} {f u : Nat} (h : u < f ∨ (u = f ∧ inclusive = false)) :
    dumpAddresses inclusive f u = [] := by
  refine List.eq_nil_iff_forall_not_mem.2 fun n hn => ?_
  rcases h with h | ⟨rfl, rfl⟩
  · have hfn : f ≤ n := (List.mem_range'_1.1 hn).1
    exact absurd (hfn.trans (le_of_mem_dumpAddresses hn)) (Nat.not_le.2 h)
  · obtain ⟨hfn, hnu⟩ := mem_dumpAddresses_exclusive.1 hn
    exact absurd hfn (Nat.not_le.2 hnu)

/-- Bounds in range let DUMP_RANGE run its expansion. -/
theorem exec_dumpRange_in_range {f u : BitVec 12} (s : State) (hf : f.toNat ≤ 2047) (hu : u.toNat ≤ 2047) :
    exec (.dumpRange f u) s =
      runMacro Config.draws (.dumpRange f u) none (dumpRangeExpansion s.params f.toNat u.toNat) .idle s := by
  rw [exec, execDumpRange, dumpCheck, rangeCheck_ok hf, rangeCheck_ok hu, Option.none_or]

/-- Settles O52: the expansion of an empty range has no entry. -/
theorem emptyDumpsDoNothing : Obligations.EmptyDumpsDoNothing := by
  refine ⟨fun f u s hf hu h hempty => ?_, fun _ _ _ => mem_dumpAddresses_inclusive, fun _ _ _ => mem_dumpAddresses_exclusive,
    dumpAddresses_pairwise⟩
  have hnil : dumpRangeExpansion s.params f.toNat u.toNat = [] := by
    rw [dumpRangeExpansion, dumpAddresses_empty hempty, List.flatMap_nil]
  rw [exec_dumpRange_in_range s hf hu, hnil]
  exact runMacro_done (u := { s with micro := 0 }) h rfl h.1

theorem setWidth_ofNat_addr (n : Nat) : (BitVec.ofNat 16 n).setWidth 11 = BitVec.ofNat 11 n :=
  BitVec.setWidth_ofNat_of_le (by decide) n

/-- Reads of different addresses one after another, each from where the one before it ended: each gives its byte, and the cells
are those of the start throughout. -/
theorem Poised.readBytes {D : Draws} {l : List Nat} (hl : ∀ n ∈ l, n ≤ 2047) (hnodup : l.Nodup) {s : State} (h : Poised s) :
    ∃ t, ∃ g : Nat → Byte,
      runMicros D (l.flatMap fun n => readByteExpansion s.params (BitVec.ofNat 16 n)) s = t ∧ Poised t ∧
      t.cells = s.cells ∧ t.out = s.out ++ l.map (fun n => .byte (BitVec.ofNat 11 n) (g n)) ∧
      (s.params.connected = true → s.params.tAcc ≤ s.params.tReadSettle →
        ∀ n ∈ l, g n = unpack s.params.pinForBit (cellRead D s.cells (BitVec.ofNat 11 n))) := by
  induction l generalizing s with
  | nil => exact ⟨s, fun _ => 0, rfl, h, rfl, by simp, by simp⟩
  | cons n l ih =>
    obtain ⟨hn, hl⟩ := List.forall_mem_cons.1 hl
    obtain ⟨hnl, hnodup⟩ := List.nodup_cons.1 hnodup
    obtain ⟨s', v, hs', hpoised, hend⟩ := h.readByte (D := D) (a := BitVec.ofNat 16 n)
      (by rw [BitVec.toNat_ofNat, Nat.mod_eq_of_lt (by omega)]; exact hn)
    obtain ⟨t, g, hrun, ht, hcells, hout, hvalue⟩ := ih hl hnodup hpoised
    have hresult := hend.result
    have hread := hend.value
    rw [setWidth_ofNat_addr] at hresult hread
    rw [hend.params] at hrun hvalue
    rw [hend.cells] at hcells hvalue
    have hne : ∀ m ∈ l, m ≠ n := fun m hm e => hnl (e ▸ hm)
    refine ⟨t, Function.update g n v, ?_, ht, hcells, ?_, fun hcon hacc m hm => ?_⟩
    · rw [List.flatMap_cons, runMicros_append (by rw [hs']; exact hpoised.safe), hs', hrun]
    · have hmap : l.map (fun m => Obs.byte (BitVec.ofNat 11 m) (Function.update g n v m)) =
          l.map fun m => Obs.byte (BitVec.ofNat 11 m) (g m) :=
        List.map_congr_left fun m hm => by rw [Function.update_of_ne (hne m hm)]
      rw [hout, hresult, List.map_cons, hmap, Function.update_self, List.append_assoc]
      rfl
    · rcases List.mem_cons.1 hm with rfl | hm
      · rw [Function.update_self, hread hcon hacc]
      · rw [Function.update_of_ne (hne m hm), hvalue hcon hacc m hm]

/-- Settles O51: the expansion is the reads of the range in a row (`Poised.readBytes`). -/
theorem dumpRangeReturnsTheCells : Obligations.DumpRangeReturnsTheCells := by
  intro f u s hf hu h
  obtain ⟨t, g, ht, hpoised, hcells, hout, hvalue⟩ := h.poised.readBytes (D := Config.draws)
    (l := dumpAddresses s.params.dumpInclusive f.toNat u.toNat) (fun n hn => (le_of_mem_dumpAddresses hn).trans hu)
    ((dumpAddresses_pairwise _ _ _).imp Nat.ne_of_lt)
  have hexec : exec (.dumpRange f u) s = .next { t with phase := .idle, micro := 0, pc := t.pc + 1 } :=
    (exec_dumpRange_in_range s hf hu).trans (runMacro_done h.live ht hpoised.safe)
  have hpc : t.pc + 1 = s.pc + 1 := by rw [← ht, runMicros_pc]
  have hforward := forward_exec hexec
  exact ⟨_, g, hexec, hpoised.completed_ready, hpc, hcells, hforward.params, hforward.program, hout, hvalue⟩

/-! ### Transactions in a row (R144) -/

/-- Settles O55: each of the three transactions answers a ready state, and an operation keeps the list and the parameters. -/
theorem transactionsKeepReady : Obligations.TransactionsKeepReady := by
  intro i s hi h hp
  obtain ⟨t, he, hready⟩ : ∃ t, exec i s = .next t ∧ t.Ready := by
    cases i with
    | writeByte v a =>
      obtain ⟨t, he, hready, -⟩ := exec_writeByte_ready v h hp (of_decide_eq_true hi)
      exact ⟨t, he, hready⟩
    | readByte a =>
      obtain ⟨t, -, he, hready, -⟩ := exec_readByte_ready h (a := a) (of_decide_eq_true hi)
      exact ⟨t, he, hready⟩
    | dumpRange f u =>
      obtain ⟨hf, hu⟩ : f.toNat ≤ 2047 ∧ u.toNat ≤ 2047 := by simpa [Instr.transaction, Instr.argsInRange] using hi
      obtain ⟨t, -, he, hready, -⟩ := dumpRangeReturnsTheCells f u s hf hu h
      exact ⟨t, he, hready⟩
    | init | setSer | setSrclk | setRclk | setWe | setDataDir | setDataPin | readDataPin | wait | send | select =>
      simp [Instr.transaction] at hi
  have hforward := forward_exec he
  exact ⟨t, he, hready, hready.safe, hforward.params, hforward.program⟩

end Sys2Proof.Machine
end

section
/-! PROOFS. The statements about faults and about what comes to the machine from outside it (spec/60_exceptions.md): the codes of the
faults, the check that INIT has run, the host's placing of an operation, and the power loss. -/

namespace Sys2Proof.Machine

/-! ### The fault table (R152) -/

theorem Raised.code_in_table (f : Raised) : 1 ≤ f.code ∧ f.code ≤ 11 := by
  cases f <;> simp [Raised.code]

/-- Settles O59: the code of each constructor, and the bounds by the cases of the constructors. -/
theorem faultCodesAreTheTable : Obligations.FaultCodesAreTheTable :=
  ⟨fun _ => rfl, fun _ => rfl, fun _ => rfl, fun _ => rfl, fun _ => rfl, fun _ => rfl, fun _ => rfl, fun _ => rfl,
    fun _ _ => rfl, fun _ => rfl, fun _ _ => rfl, Raised.code_in_table⟩

/-! ### Before INIT (R154) -/

theorem gate_uninit {i : Instr} {s : State} (h : s.fault = none) (hu : s.phase = .uninit) (c : State) :
    gate i s c = .next (raise (.notInitialised i) s) := by
  simp [gate, h, hu]

/-- Every operation but INIT begins with the common entry, which passes none of them in Uninit. -/
theorem exec_uninit {i : Instr} {s : State} (hi : i ≠ .init) (h : s.fault = none) (hu : s.phase = .uninit) :
    exec i s = .next (raise (.notInitialised i) s) := by
  cases i with
  | init => exact absurd rfl hi
  | setSer | setSrclk | setRclk | setWe | setDataDir | setDataPin | readDataPin | wait | send | select | writeByte
  | readByte | dumpRange => exact gate_uninit h hu _

/-- Settles O11: the common entry raises the operation's fault (`exec_uninit`), the first one recorded. -/
theorem nothingRunsBeforeInit : Obligations.NothingRunsBeforeInit := by
  intro i s hi h hu
  refine ⟨?_, rfl⟩
  rw [exec_uninit hi h hu, raise_eq_of_safe _ h]

/-! ### An operation placed by the host (R166) -/

theorem placeAt_get (n : Nat) (w : CommandWord) (l : List CommandWord) : (placeAt n w l)[n]? = some w := by
  fun_induction placeAt n w l with
  | case1 w => rfl
  | case2 w x l => rfl
  | case3 n w ih => simpa using ih
  | case4 n w x l ih => simpa using ih

theorem fetch_withFetchWord (s : State) (nbits w : Nat) :
    fetch (s.withFetchWord nbits w) = some (BitVec.ofNat 32 (w % 2 ^ nbits)) := placeAt_get _ _ _

/-- A table word that gives an operation is a command word that decodes to it. -/
theorem decode_of_decodeTableWord {nbits w : Nat} {i : Instr} (h : decodeTableWord nbits w = some i) :
    decode (BitVec.ofNat 32 (w % 2 ^ nbits)) = .ok i := by
  unfold decodeTableWord at h
  split at h
  · split at h
    · next j hj => cases h; exact hj
    · cases h
  · cases h

/-- Settles O8: the placed word is the one fetched, and it decodes to the operation. -/
theorem placedOperationIsRun : Obligations.PlacedOperationIsRun := fun s nbits w _ hs hw =>
  step_decoded hs (fetch_withFetchWord s nbits w) (decode_of_decodeTableWord hw)

/-! ### Power loss (R174) -/

theorem powerCycle_cells_cut {D : Draws} {s : State} {c : WriteCycle} (h : s.busy = some c) :
    (powerCycle D s).cells = Memory.write s.cells c.addr.toNat (D.cutByte s.draws) := by
  simp [powerCycle, h]

/-- Settles O16: the power cycle is one write of the free byte, to the cell of the open cycle. -/
theorem powerLossCutsOneCell : Obligations.PowerLossCutsOneCell := by
  intro s c hb
  simp only [State.cell, powerCycle_cells_cut hb]
  exact ⟨cellRead_write_same _ _ _ _, fun a ha => cellRead_write_other _ _ _ ha⟩

end Sys2Proof.Machine
end

section
/-! PROOFS. The statements about reset and what follows it (spec/70_reset_and_hazards.md): the values that reset gives, the invariant
`State.Legal` at reset and after a power cycle, and INIT from there. Power-on and the power cycle leave one form of state,
`State.resetWith`, so what holds of both is proved of that form. -/

namespace Sys2Proof.Machine

/-! ### The form of a state after reset (R176) -/

/-- The state after a reset that finds cells `m`, list `l`, parameters `p` and `n` draws made: every other field has its reset
value. -/
def State.resetWith (m : Memory) (l : List CommandWord) (p : Params) (n : Nat) : State :=
  { State.reset with cells := m, program := l, params := p, draws := n }

theorem reset_eq_resetWith : State.reset = .resetWith [] [] defaultParams 0 := rfl

theorem powerCycle_eq_resetWith (D : Draws) (s : State) :
    powerCycle D s = .resetWith (powerCycle D s).cells s.program s.params (s.draws + 1) := rfl

/-- Canonical cells are all a state after reset needs to be legal: nothing is driven, and no pulse, cycle, delay or fault stands. -/
theorem resetWith_legal {m : Memory} (hm : m.wf) (l : List CommandWord) (p : Params) (n : Nat) :
    (State.resetWith m l p n).Legal where
  cells_wf := hm
  undriven _ := ⟨rfl, rfl, rfl, rfl, rfl, rfl, rfl, rfl, rfl⟩
  driven hu := absurd rfl hu
  pulse := ⟨nofun, fun hf => absurd rfl hf⟩
  pulse_selected := nofun
  pulse_time := nofun
  cycle_time := nofun
  cycle_high hb := absurd rfl hb
  cycle_rise := nofun
  rise_time := nofun
  sel_time := Nat.le_refl 0
  no_contention _ := contention_input rfl
  phase_between _ := .inl rfl
  micro_zero _ := rfl
  sampled_zero _ := rfl

/-- Settles O17: the reset state has the form `State.resetWith`, with no cell listed. -/
theorem resetIsLegal : Obligations.ResetIsLegal := resetWith_legal wf_reset _ _ _

/-- Settles O19: a power cycle leaves the form `State.resetWith`, and its write to a cut cell keeps the cells canonical
(`wf_powerCycle`). -/
theorem powerCyclesKeepLegal : Obligations.PowerCyclesKeepLegal := by
  intro s h
  rw [powerCycle_eq_resetWith]
  exact resetWith_legal (wf_powerCycle _ h.cells_wf) _ _ _

theorem powerCycle_cells_uncut {D : Draws} {s : State} (h : s.busy = none) : (powerCycle D s).cells = s.cells := by
  simp [powerCycle, h]

/-- Settles O15: both resets leave the form `State.resetWith`, whose fields are those of R43, and where no cell is listed a cell
reads as its draw. -/
theorem powerCycleResets : Obligations.PowerCycleResets := by
  refine ⟨fun t ht => ?_, fun _ h => powerCycle_cells_uncut h, fun _ => rfl⟩
  obtain ⟨m, l, p, n, rfl⟩ : ∃ m l p n, t = .resetWith m l p n := by
    obtain rfl | ⟨s, rfl⟩ := ht
    · exact ⟨_, _, _, _, reset_eq_resetWith⟩
    · exact ⟨_, _, _, _, powerCycle_eq_resetWith _ s⟩
  have hstage (i : Fin 16) : (Vector.replicate 16 (none : Option Bool))[i] = none := Vector.getElem_replicate i.isLt
  exact ⟨rfl, rfl, rfl, rfl, rfl, rfl, rfl, rfl, rfl, rfl, rfl, rfl, fun i => ⟨hstage i, hstage i⟩, rfl, rfl, rfl, rfl⟩

/-! ### INIT after reset (R180) -/

/-- What a ready state needs beside the invariant: Idle, the shift clocks low, WE_n high and nothing of a write left over. -/
theorem State.Legal.ready {s : State} (h : s.Legal) (hs : s.fault = none) (hi : s.phase = .idle) (hsr : s.srclk = .lo)
    (hr : s.rclk = .lo) (hw : s.weN = .hi) (hb : s.busy = none) (hd : s.DelayOver) : s.Ready where
  safe := hs
  idle := hi
  micro_zero := h.micro_zero hs
  srclk_low := hsr
  rclk_low := hr
  we_high := hw
  latch_known := by
    obtain ⟨-, -, -, -, hlatch⟩ := h.driven (by simp [hi])
    exact hlatch
  no_pulse := by simpa [hw] using h.pulse
  no_cycle := hb
  delay_over := hd
  sel_time := h.sel_time
  no_contention := h.no_contention hs

/-- Settles O56: `initConfiguresThePins` gives INIT's state, `exec_legal` makes it legal, and before INIT no cycle is open and
WE_n has not risen yet. -/
theorem initMakesReady : Obligations.InitMakesReady := by
  intro s h hs hu
  obtain ⟨hexec, -⟩ := initConfiguresThePins.1 s hs hu
  obtain ⟨-, -, -, -, -, -, hbusy, -, hrise⟩ := h.undriven hu
  have hdelay : s.DelayOver := fun tr htr => by simp [hrise] at htr
  refine ⟨_, hexec, (exec_legal h hexec).ready ?_ rfl rfl rfl rfl (elapse_busy_none hbusy) (delayOver_elapse _ hdelay)⟩
  simpa using hs

end Sys2Proof.Machine
end
